-- ==== Sys2Proof/Word.lean ====
section
/-! DEFINITION. The word types of the hardware (30_encoding R70, R72, R82, R85) and the byte-order names. -/

namespace Sys2Proof

/-- One byte: a field of a bulk-update group, a byte of the mailbox. -/
abbrev Byte := BitVec 8

/-- A 4-byte mailbox field (30_encoding R78). -/
abbrev Word32 := BitVec 32

/-- The 12-bit channel word (30_encoding R70). -/
abbrev ChannelWord := BitVec 12

/-- The 24-bit device payload, or the data field of a response word (30_encoding R72, R85). -/
abbrev Payload := BitVec 24

/-- The 64-bit command word CW (30_encoding R82). -/
abbrev CommandWord := BitVec 64

/-- The 32-bit response word RW (30_encoding R85). -/
abbrev ResponseWord := BitVec 32

/-- A preset index or preset count as field A of a command word carries it (30_encoding R82). -/
abbrev PresetIndex := BitVec 16

/-- The byte orders of 20_memory R51 and R52. -/
inductive ByteOrder where
  | le
  | be
deriving DecidableEq, Repr

end Sys2Proof
end

