-- ==== Sys2Proof/Config.lean ====
section
/-! DEFINITION. The implementation parameters of 00_scope R5, the device mapping of 10_state R16, and the
free values: what the spec leaves open, as constants without a body. -/

namespace Sys2Proof

/-- The two kinds of mapping row (10_state R16). -/
inductive DeviceKind where
  | tx
  | rx
deriving DecidableEq, Repr

/-- One row of `DEVICE_MAP` (10_state R16). A slot is `none` where the spec writes NONE. -/
structure DeviceRow where
  bus   : Nat
  addr  : Nat
  kind  : DeviceKind
  slotA : Option Nat
  slotB : Option Nat
deriving DecidableEq, Repr

/-- The 3 bytes of a probe response (30_encoding R92). -/
abbrev ProbeBytes := Byte × Byte × Byte

/-- How the probe hands its 3 bytes to the host: "content and destination are the parameter PROBE_RESPONSE"
(30_encoding R92, 43_command_channel R183). `payloadAt` is the index in the mailbox payload at which the bytes
are also stored, `len` and `status` the values written to those fields, `notify` whether the host is notified. -/
structure ProbeReturn where
  payloadAt : Option Nat
  len       : Option Word32
  status    : Option Word32
  notify    : Bool
deriving DecidableEq, Repr

/-- The parameters of 00_scope R5. `channels` and `deviceCount` are derived below. `WRITE_RETRIES` is left out:
it is "not used by any rule of the block". `MAILBOX_PAYLOAD_MAX` is the format's 512 (30_encoding R78). -/
structure Config where
  maxPresets        : Nat
  nRx               : Nat
  deviceMap         : List DeviceRow
  txDeviceIndex     : Nat
  outputRegId       : Nat
  busIdBits         : Nat
  devAddrBits       : Nat
  regIdBits         : Nat
  payloadByteOrder  : ByteOrder
  mailboxByteOrder  : ByteOrder
  mailboxBase       : Nat
  magic             : Word32
  activePresets     : Nat
  /-- The storage is the fixed arena, so `alloc_ok` is the constant true (41_cache R124). When false,
  `alloc_ok` is drawn at each PRECOMPUTE. -/
  fixedArena        : Bool
  pulseHoldUs       : Nat
  echoesPerScan     : Nat
  scanTarget        : BitVec 8
  interScanDelayMs  : Nat
  echoHighDelay     : Nat
  echoLowDelay      : Nat
  edgeRaisesPulse   : Bool
  presetInputBits   : Nat
  triggerLine       : Nat
  strobeLine        : Nat
  presetInputLine   : Nat
  muxAddr           : Nat
  muxStatusReg      : Nat
  /-- `PROBE_RESPONSE` as a table (status byte, response bytes); a status byte that is not listed is answered with
  `probeElse`. Every function of the status byte has such a table. -/
  probeTable        : List (Nat × ProbeBytes)
  probeElse         : ProbeBytes
  probeReturn       : ProbeReturn
deriving DecidableEq, Repr

/-- `CHANNELS`, one TX and N RX channels (00_scope R5). -/
def Config.channels (cfg : Config) : Nat := 1 + cfg.nRx

/-- `DEVICE_COUNT`, the number of rows of the mapping (00_scope R5). -/
def Config.deviceCount (cfg : Config) : Nat := cfg.deviceMap.length

/-- The mailbox message: 16 bytes of fields and 512 bytes of payload (30_encoding R78). -/
def mailboxHeaderBytes : Nat := 16

/-- `MAILBOX_PAYLOAD_MAX` (00_scope R5, 30_encoding R78). -/
def mailboxPayloadMax : Nat := 512

/-- The answer of one `selectBus` or `writeRegister` (20_memory R46, R47). `noAnswer`: the call has not returned
yet (70_reset_and_hazards R295); it is asked again at the next step. -/
inductive BusAnswer where
  | ok
  | fail
  | noAnswer
deriving DecidableEq, Repr, Inhabited

/-- FREE VALUE: the answer of the n-th drawn bus call (93 U11, LOG 3). -/
opaque Config.freeBusAnswer : Nat → BusAnswer

/-- FREE VALUE: `alloc_ok` where the storage is not the fixed arena (93 U2, LOG 6). -/
opaque Config.freeAllocOk : Nat → Bool

/-- FREE VALUE: the answer of `readRegister16`, `none` for failure (93 U11, LOG 3). -/
opaque Config.freeMuxRead : Nat → Option (BitVec 16)

/-- PARAMETER without a value: which byte of the 16-bit answer is the bus-multiplexer status byte
(43_command_channel R183, LOG 13). -/
opaque Config.muxStatusByte : BitVec 16 → Byte

/-- FREE VALUE: the 3 response bytes when the mux read failed (93 U13, LOG 13). -/
opaque Config.freeProbeResponse : Nat → ProbeBytes

/-- FREE VALUE: the routing after a read of the mux status register, whose side effects are "not in the source"
(20_memory R55, LOG 14). -/
opaque Config.freeRouting : Nat → Option Nat

/-- FREE VALUE: the mapping row, if any, whose device a write reaches when the selected sub-bus is not the one the
sequencer selected (70_reset_and_hazards R291, LOG 14). -/
opaque Config.freeMisroute : Nat → Option Nat

/-- EX1 of 95_test_vectors section 1 for the parameters it names, the default of 00_scope R5 where R5 gives one,
and a small value for the rest. DESIGN CHOICE (LOG 1): it is the configuration of `State.reset` only. -/
def Config.example1 : Config where
  maxPresets := 4
  nRx := 3
  deviceMap :=
    [ { bus := 0, addr := 0x20, kind := .tx, slotA := some 0, slotB := none },
      { bus := 1, addr := 0x21, kind := .rx, slotA := some 1, slotB := some 2 },
      { bus := 1, addr := 0x22, kind := .rx, slotA := some 3, slotB := none } ]
  txDeviceIndex := 0
  outputRegId := 0x04
  busIdBits := 8
  devAddrBits := 8
  regIdBits := 8
  payloadByteOrder := .le
  mailboxByteOrder := .le
  mailboxBase := 0
  magic := 0x4D424F58#32
  activePresets := 4
  fixedArena := true
  pulseHoldUs := 500
  echoesPerScan := 600
  scanTarget := 112#8
  interScanDelayMs := 30
  echoHighDelay := 1
  echoLowDelay := 1
  edgeRaisesPulse := false
  presetInputBits := 8
  triggerLine := 0
  strobeLine := 1
  presetInputLine := 2
  muxAddr := 0x70
  muxStatusReg := 0
  probeTable := []
  probeElse := (0x00#8, 0x00#8, 0x00#8)
  probeReturn := { payloadAt := none, len := none, status := none, notify := true }

end Sys2Proof
end

