-- ==== Sys2Proof/Machine/Store.lean ====
section
/-! DEFINITION. The sparse stores behind every index space of 20_memory R40: lists of (key, value) in one canonical
form, keys strictly rising and no entry equal to what an unlisted key reads as. -/

namespace Sys2Proof.Machine

/-- A sparse array. Which value an unlisted key reads as is the argument `d` of every operation below. -/
abbrev Store (α : Type) := List (Nat × α)

/-- The value at key `k`. -/
def storeRead {α : Type} (d : α) (k : Nat) : Store α → α
  | [] => d
  | (k', v) :: rest => if k = k' then v else storeRead d k rest

/-- Put `v` at the front under `k`, unless an unlisted `k` reads as `v` already. -/
def storeCons {α : Type} [DecidableEq α] (d : α) (k : Nat) (v : α) (rest : Store α) : Store α :=
  if v = d then rest else (k, v) :: rest

/-- Set key `k` to `v`, keeping the canonical form. -/
def storeWrite {α : Type} [DecidableEq α] (d : α) (k : Nat) (v : α) : Store α → Store α
  | [] => storeCons d k v []
  | (k', v') :: rest =>
    if k < k' then storeCons d k v ((k', v') :: rest)
    else if k = k' then storeCons d k v rest
    else (k', v') :: storeWrite d k v rest

/-- Set keys `0 .. n-1` to `f 0 .. f (n-1)`. -/
def storeFill {α : Type} [DecidableEq α] (d : α) (f : Nat → α) : Nat → Store α → Store α
  | 0, m => m
  | n + 1, m => storeWrite d n (f n) (storeFill d f n m)

/-- The canonical form. -/
def storeWf {α : Type} [DecidableEq α] (d : α) : Store α → Bool
  | [] => true
  | (k, v) :: rest => decide (v ≠ d) && rest.all (fun e => decide (k < e.1)) && storeWf d rest

/-- Every listed key lies in `lo .. lo + n - 1`. -/
def storeWithin {α : Type} (lo n : Nat) (m : Store α) : Bool :=
  m.all (fun e => decide (lo ≤ e.1) && decide (e.1 < lo + n))

/-- Byte memory: the shared mailbox region and the payload buffer of PB. -/
abbrev Memory := List Host.Cell

/-- What a byte that nothing has written reads as: DESIGN CHOICE 0, the spec gives the content of `status` only
(10_state R32, LOG 9). -/
def unlistedByte : Byte := 0#8

/-- The byte at address `a`. -/
def Memory.read (m : Memory) (a : Nat) : Byte := storeRead unlistedByte a m

/-- Store one byte. -/
def Memory.write (m : Memory) (a : Nat) (b : Byte) : Memory := storeWrite unlistedByte a b m

/-- The canonical form of a byte memory. -/
def Memory.wf (m : Memory) : Bool := storeWf unlistedByte m

end Sys2Proof.Machine
end

