-- ==== Sys2Proof/Syntax.lean ====
section
/-! DEFINITION. The instructions: one constructor for each row of spec/opcode_table.json. -/

namespace Sys2Proof

/-- The raw configuration operand `cfg24` (30_encoding R75), whole bytes, as a caller gives them. -/
structure Cfg24 where
  tuning     : Byte
  matching   : Byte
  detuneFlag : Byte
deriving DecidableEq, Repr

/-- The ten operations. The first six are the block's and carry the fields of their command word
(30_encoding R83). The last four are the command channel's: their operands stand in the buffer PB or in no place
at all (43_command_channel R183, R185 to R187), so they carry none. -/
inductive Instr where
  /-- ENCODE `{t, m, f}` (40_codec R102). -/
  | encode (cfg : Cfg24)
  /-- DECODE of field C; bits 23:12 are carried and ignored (40_codec R105). -/
  | decode (c : BitVec 24)
  /-- LOADCFG `p, c, {t, m, f}` (41_cache R120). -/
  | loadcfg (p : PresetIndex) (c : Byte) (cfg : Cfg24)
  /-- PRECOMPUTE `n` (41_cache R123 to R125). -/
  | precompute (n : PresetIndex)
  /-- GET `p, d` (41_cache R127). -/
  | get (p : PresetIndex) (d : Byte)
  /-- APPLY `p` (42_sequencer R150, R151). -/
  | apply (p : PresetIndex)
  /-- BULK_UPDATE, cmd 2, operands PB.len and PB.payload (43_command_channel R185). -/
  | bulkUpdate
  /-- PRESET_SELECT, cmd 3, operand PB.payload[0] (43_command_channel R186). -/
  | presetSelect
  /-- TEST_SEQUENCE_START, cmd 4, no operand (43_command_channel R187). -/
  | testSequenceStart
  /-- PROBE, the fallback of an invalid notification (43_command_channel R183). -/
  | probe
deriving DecidableEq, Repr

end Sys2Proof
end

