-- ==== Sys2Proof/Machine/State.lean ====
section
/-! DEFINITION. The state of the machine (10_state R10 to R32), its reset, and why a step can stop. -/

namespace Sys2Proof.Machine

/-- The status codes of 30_encoding R84; code 7 is "never produced". -/
inductive Status where
  | ok
  | configError
  | resourceError
  | notFound
  | notReady
  | indexOutOfRange
  | badCommand
deriving DecidableEq, Repr

/-- A cell of the matrix M: tuning and matching raw, detune one bit (10_state R11, 90_conflicts C9). -/
structure Cell where
  tuning   : Byte
  matching : Byte
  detune   : Bool
deriving DecidableEq, Repr

/-- `seq_state` (10_state R20). -/
inductive SeqState where
  | idle
  | select
  | write
deriving DecidableEq, Repr

/-- Where a PRECOMPUTE stands whose count was accepted (41_cache R123 to R125): before its resource check, or before
its derivation. The model's own field: it lets an interrupt fall between the steps of a PRECOMPUTE (60_exceptions
R259); the walk over the cells is one step (10_state R21). -/
inductive PrecomputeStage where
  | idle
  | resource (n : PresetIndex)
  | derive (n : PresetIndex)
deriving DecidableEq, Repr

/-- The two contexts of the companion core (60_exceptions R262). -/
inductive Context where
  | loop
  | interrupt
deriving DecidableEq, Repr

/-- Where the control loop stands (44_control_loop R210 to R215): one constructor for each line of the items'
pseudocode, so that an interrupt can land between any two of them (20_memory R58, R61, LOG 5). -/
inductive LoopPos where
  /-- The top of an iteration: item 1's flag is read here. -/
  | top
  /-- Item 1: read `pending_preset` and issue APPLY. -/
  | presetApply
  /-- Item 1: the APPLY has returned; clear `preset_change_requested`. -/
  | presetClear
  /-- Item 2: read `pulse_requested`. -/
  | pulseTest
  /-- Item 2: drive the trigger output high. -/
  | pulseHigh
  /-- Item 2: hold. -/
  | pulseHold
  /-- Item 2: drive the trigger output low. -/
  | pulseLow
  /-- Item 2: clear `pulse_requested`. -/
  | pulseClear
  /-- Item 3: read `test_sequence_active`. -/
  | scanTest
  /-- Item 3, `n` strobe toggles still to do: drive the strobe output high. -/
  | echoHigh (n : Nat)
  /-- Item 3: the micro-delay while high. -/
  | echoHighDelay (n : Nat)
  /-- Item 3: drive the strobe output low. -/
  | echoLow (n : Nat)
  /-- Item 3: the micro-delay while low. -/
  | echoLowDelay (n : Nat)
  /-- Item 3: the inter-scan delay. -/
  | scanDelay
  /-- Item 3: count the scan step and end the sequence at the target. -/
  | scanCount
  /-- Item 4: read `mailbox_message_pending`. -/
  | mailTest
  /-- Item 4: switch on `PB.cmd`. -/
  | dispatch
  /-- Item 4, BULK_UPDATE: group `g` of `groups` is next; at `g = groups` the PRECOMPUTE. -/
  | bulkGroup (g groups : Nat)
  /-- Item 4: clear `mailbox_message_pending`. -/
  | mailClear
  /-- The test of R215, atomic with the suspension (decision D38). -/
  | endTest
  /-- Suspended until the next hardware interrupt (60_exceptions R268). -/
  | suspended
deriving DecidableEq, Repr

/-- The four 4-byte fields of the mailbox message (30_encoding R78). -/
inductive MailField where
  | magic
  | cmd
  | len
  | status
deriving DecidableEq, Repr

/-- One entry of the schedule of outside events (LOG 2). -/
inductive Input where
  /-- Nothing arrives here: the machine takes a step of its own. -/
  | machine
  /-- An edge on the preset-input line, with the value the line then holds (44_control_loop R216). -/
  | edge (v : Byte)
  /-- The cross-core notification from the host (43_command_channel R181). -/
  | notify
  /-- The host stores a 4-byte field of the message in one access (20_memory R54). -/
  | hostField (f : MailField) (v : Word32)
  /-- The host stores byte `i` of the payload. -/
  | hostPayload (i : Nat) (b : Byte)
deriving DecidableEq, Repr

/-- The delays of the control loop (60_exceptions R264), each a lower bound. -/
inductive Delay where
  | pulseHold (us : Nat)
  | echoHigh (t : Nat)
  | echoLow (t : Nat)
  | interScan (ms : Nat)
deriving DecidableEq, Repr

/-- What goes out on the interfaces or is taken from them (LOG 16). -/
inductive Obs where
  /-- The block accepts an operation. -/
  | accept (i : Instr)
  /-- The block delivers a response word (30_encoding R85). -/
  | response (rw : ResponseWord)
  /-- `selectBus(bus)` with its answer (30_encoding R90). -/
  | selectBus (bus : Nat) (ok : Bool)
  /-- `writeRegister(addr, reg, bytes, len)` with its answer (30_encoding R90). -/
  | writeRegister (addr reg : Nat) (bytes : List Byte) (len : Nat) (ok : Bool)
  /-- `readRegister16(addr, reg)` with its answer (20_memory R48). -/
  | readRegister16 (addr reg : Nat) (answer : Option (BitVec 16))
  /-- `lineWrite(id, v)` (20_memory R49). -/
  | lineWrite (id : Nat) (v : Bool)
  /-- `lineRead(id)` and the value read (20_memory R49). -/
  | lineRead (id : Nat) (v : Byte)
  /-- `delay(t)`. -/
  | delay (d : Delay)
  /-- `MemRead(MAILBOX_BASE + off, n)` by the companion core (20_memory R44). -/
  | memRead (off n : Nat)
  /-- `MemWrite(MAILBOX_BASE + off, n, v)` by the companion core (20_memory R44). -/
  | memWrite (off n : Nat) (v : Word32)
  /-- `notifyPeer()` (20_memory R50). -/
  | notifyPeer
  /-- `barrier()` (20_memory R56). -/
  | barrier
  /-- The 3 bytes of a probe response go to the host (43_command_channel R183). -/
  | probeResponse (b0 b1 b2 : Byte)
deriving DecidableEq, Repr

/-- The buffer PB (10_state R26). `payload` is the whole buffer, keyed by index: a shorter message leaves the bytes
past its end as they were (LOG 11). -/
structure MessageBuffer where
  cmd     : Word32
  len     : Word32
  payload : Memory
deriving DecidableEq, Repr

/-- Why the machine stops with a fault. -/
inductive Fault where
  /-- Raised by a step whose next input is a host store to payload byte 512 or above: no such address exists in
  the mailbox region (20_memory R44). Safe: the machine stops where the hardware has no meaning. -/
  | outsideMailbox
deriving DecidableEq, Repr

/-- Why the model gives no meaning. -/
inductive Refusal where
  /-- Raised by `exec` for an instruction without a meaning; safe. No arm raises it. -/
  | notModelled (mnemonic : String)
  /-- Raised by an operation of the block issued while `busy = 1` (10_state R18, 93 U16); safe. -/
  | blockBusy
  /-- Raised by an operation of the block issued from interrupt context (70_reset_and_hazards R285, 93 U16); safe. -/
  | interruptContext
  /-- Raised by the notification of a valid message with `len > 512` (30_encoding R88, 43_command_channel R189);
  safe. -/
  | mailboxLengthOver512
  /-- Raised by every step under a mapping that is not well-formed (10_state R17, 93 U21); safe. -/
  | illFormedMapping
  /-- Raised by every step under a misaligned MAILBOX_BASE (20_memory R53); safe. -/
  | misalignedMailbox
  /-- Raised by every step under a parameter outside its range (00_scope R5); safe. -/
  | parameterOutOfRange
deriving DecidableEq, Repr

/-- Everything the spec gives the machine, and the model's own fields, which stand last. -/
structure State where
  /-- M[p][c] at key `p * CHANNELS + c`, an unlisted cell reads {0,0,0} (10_state R10, R11, R32). -/
  matrix                : Store Cell
  /-- PC[p][d] at key `p * DEVICE_COUNT + d` (10_state R12). -/
  arena                 : Store Payload
  /-- `cached_presets` (10_state R13). -/
  cachedPresets         : Nat
  /-- `cached_devices` (10_state R14). -/
  cachedDevices         : Nat
  /-- `busy` (10_state R18). -/
  busy                  : Bool
  /-- `last_status` (10_state R19). -/
  lastStatus            : Status
  /-- `seq_state` (10_state R20). -/
  seqState              : SeqState
  /-- `dev_idx` (10_state R20). -/
  devIdx                : Nat
  /-- `seq_preset` (10_state R20). -/
  seqPreset             : PresetIndex
  /-- The stage of a running PRECOMPUTE (60_exceptions R259, LOG 32). -/
  precompute            : PrecomputeStage
  /-- The response word last delivered (30_encoding R82, R85). -/
  response              : ResponseWord
  /-- Command words waiting at the port: the calls of the bring-up code, first call first (LOG 4). -/
  commands              : List CommandWord
  /-- The four pending-event flags (10_state R22). -/
  presetChangeRequested : Bool
  pulseRequested        : Bool
  mailboxMessagePending : Bool
  testSequenceActive    : Bool
  /-- `pending_preset` (10_state R23). -/
  pendingPreset         : Byte
  /-- `scan_count` and `scan_target` (10_state R24). -/
  scanCount             : BitVec 8
  scanTarget            : BitVec 8
  /-- The shared mailbox region MB, keyed by address (10_state R25). -/
  mailbox               : Memory
  /-- The buffer PB (10_state R26). -/
  pb                    : MessageBuffer
  /-- The three discrete lines (10_state R27). -/
  trigger               : Bool
  strobe                : Bool
  presetInput           : Byte
  /-- `selected_bus`, `none` for UNKNOWN (10_state R28). -/
  selectedBus           : Option Nat
  /-- OUT[d] at key `d` (10_state R29). -/
  out                   : Store Payload
  /-- The execution context (60_exceptions R262). -/
  context               : Context
  /-- The position of the control loop (44_control_loop R210). -/
  loopPos               : LoopPos
  /-- The configuration: a constant (10_state R16, R31), carried here because a step takes no other argument. -/
  cfg                   : Config
  /-- The outside events still to come (LOG 2). -/
  inputs                : List Input
  /-- Answers still to come of `selectBus` and `writeRegister`, in call order (LOG 3). -/
  busAnswers            : List BusAnswer
  /-- Answers still to come of `readRegister16` (LOG 3). -/
  muxReads              : List (Option (BitVec 16))
  /-- Values still to come of `alloc_ok` (LOG 6). -/
  allocAnswers          : List Bool
  /-- How many free values have been drawn (LOG 27). -/
  draws                 : Nat
  /-- What went out on the interfaces, newest first (LOG 16). -/
  trace                 : List Obs
deriving DecidableEq, Repr

/-- The state right after reset under a configuration (10_state R32, 70_reset_and_hazards R280, R281). -/
def State.resetWith (cfg : Config) : State where
  matrix := []
  arena := []
  cachedPresets := 0
  cachedDevices := 0
  busy := false
  lastStatus := .ok
  seqState := .idle
  devIdx := 0
  seqPreset := 0#16
  precompute := .idle
  response := 0#32
  commands := []
  presetChangeRequested := false
  pulseRequested := false
  mailboxMessagePending := false
  testSequenceActive := false
  pendingPreset := 0#8
  scanCount := 0#8
  scanTarget := 0#8
  mailbox := []
  pb := { cmd := 0#32, len := 0#32, payload := [] }
  trigger := false
  strobe := false
  presetInput := 0#8
  selectedBus := none
  out := []
  context := .loop
  loopPos := .top
  cfg := cfg
  inputs := []
  busAnswers := []
  muxReads := []
  allocAnswers := []
  draws := 0
  trace := []

/-- The reset state under the spec's own example configuration (LOG 1). -/
def State.reset : State := State.resetWith Config.example1

end Sys2Proof.Machine
end

