-- ==== Sys2Proof/Machine/Flags.lean ====
section
/-! DEFINITION. The pending-event flags (10_state R22): every set, every clear, and the suspend test. There are no
arithmetic flags in this hardware, and no operation of the block writes one of these four. -/

namespace Sys2Proof.Machine

/-- Record a preset request: the value and its flag (44_control_loop R216, 43_command_channel R186). -/
def requestPreset (v : Byte) (s : State) : State := { s with pendingPreset := v, presetChangeRequested := true }

/-- Raise `pulse_requested` if `raise` (44_control_loop R216: the edge handler raises it only if
EDGE_RAISES_PULSE; 43_command_channel R186: always). -/
def requestPulse (raise : Bool) (s : State) : State := { s with pulseRequested := s.pulseRequested || raise }

/-- Set `mailbox_message_pending` (43_command_channel R182). -/
def setMailPending (s : State) : State := { s with mailboxMessagePending := true }

/-- Clear `preset_change_requested` (44_control_loop R211). -/
def clearPresetChange (s : State) : State := { s with presetChangeRequested := false }

/-- Clear `pulse_requested` (44_control_loop R212). -/
def clearPulse (s : State) : State := { s with pulseRequested := false }

/-- Clear `mailbox_message_pending` (44_control_loop R214). -/
def clearMailPending (s : State) : State := { s with mailboxMessagePending := false }

/-- Start the scan generator unless it is active (43_command_channel R187). -/
def startSequence (s : State) : State :=
  if s.testSequenceActive then s
  else { s with scanCount := 0#8, scanTarget := s.cfg.scanTarget, testSequenceActive := true }

/-- Count one scan step and end the sequence at the target; the count is not cleared (44_control_loop R213). -/
def countScan (s : State) : State :=
  if s.scanTarget ≤ s.scanCount + 1#8 then
    { s with scanCount := s.scanCount + 1#8, testSequenceActive := false, scanTarget := 0#8 }
  else { s with scanCount := s.scanCount + 1#8 }

/-- An event is pending or a sequence is active: the loop does not suspend (44_control_loop R215). -/
def anyEvent (s : State) : Bool :=
  s.presetChangeRequested || s.pulseRequested || s.mailboxMessagePending || s.testSequenceActive

end Sys2Proof.Machine
end

