-- ==== Sys2Proof/Decode.lean ====
section
/-! DEFINITION. The decoder and the encoder (30_encoding R75, R78, R80, R82, R83, R86). The decoder is total and
rejects by name; what the machine does with a rejected word is a rule of its own (R86, R87). -/

namespace Sys2Proof

/-- Why a word stands for no instruction. -/
inductive DecodeError where
  /-- `op` is 0x0 or 0x7..0xF (30_encoding R86). -/
  | reservedOp
  /-- `rsv` is not zero (30_encoding R86). -/
  | reservedBits
  /-- Field A, B or C is not zero where 30_encoding R83 marks it 0 (R86). -/
  | fieldNotZero
  /-- A mailbox `cmd` other than 2, 3, 4 (30_encoding R87). -/
  | unrecognisedCmd
deriving DecidableEq, Repr

/-- The fields of a command word (30_encoding R82). -/
def opField (cw : CommandWord) : BitVec 4 := cw.extractLsb' 60 4
def rsvField (cw : CommandWord) : BitVec 12 := cw.extractLsb' 48 12
def fieldA (cw : CommandWord) : BitVec 16 := cw.extractLsb' 32 16
def fieldB (cw : CommandWord) : Byte := cw.extractLsb' 24 8
def fieldC (cw : CommandWord) : BitVec 24 := cw.extractLsb' 0 24

/-- `cfg24` read from field C: tuning 7:0, matching 15:8, detuneFlag 23:16 (30_encoding R75). -/
def cfg24OfBits (c : BitVec 24) : Cfg24 where
  tuning := c.extractLsb' 0 8
  matching := c.extractLsb' 8 8
  detuneFlag := c.extractLsb' 16 8

/-- `cfg24` as field C carries it (30_encoding R75). -/
def cfg24ToBits (x : Cfg24) : BitVec 24 :=
  (BitVec.setWidth 24 x.detuneFlag <<< 16) ||| (BitVec.setWidth 24 x.matching <<< 8) ||| BitVec.setWidth 24 x.tuning

/-- The command word of five fields (30_encoding R82). -/
def packCommand (op : BitVec 4) (a : BitVec 16) (b : Byte) (c : BitVec 24) : CommandWord :=
  (BitVec.setWidth 64 op <<< 60) ||| (BitVec.setWidth 64 a <<< 32) ||| (BitVec.setWidth 64 b <<< 24) |||
    BitVec.setWidth 64 c

/-- The instruction if the fields marked 0 are zero (30_encoding R86). -/
def requireZero (fieldsZero : Bool) (i : Instr) : Except DecodeError Instr :=
  if fieldsZero then .ok i else .error .fieldNotZero

/-- The decoder of the command port (30_encoding R83, R86). -/
def decodeCommand (cw : CommandWord) : Except DecodeError Instr :=
  let a := fieldA cw
  let b := fieldB cw
  let c := fieldC cw
  if rsvField cw ≠ 0#12 then .error .reservedBits
  else if opField cw = 1#4 then requireZero (decide (a = 0#16) && decide (b = 0#8)) (.encode (cfg24OfBits c))
  else if opField cw = 2#4 then requireZero (decide (a = 0#16) && decide (b = 0#8)) (.decode c)
  else if opField cw = 3#4 then .ok (.loadcfg a b (cfg24OfBits c))
  else if opField cw = 4#4 then requireZero (decide (b = 0#8) && decide (c = 0#24)) (.precompute a)
  else if opField cw = 5#4 then requireZero (decide (c = 0#24)) (.get a b)
  else if opField cw = 6#4 then requireZero (decide (b = 0#8) && decide (c = 0#24)) (.apply a)
  else .error .reservedOp

/-- The decoder of a message's `cmd` field (30_encoding R80, R87). -/
def decodeCmd (cmd : Word32) : Except DecodeError Instr :=
  if cmd = 2#32 then .ok .bulkUpdate
  else if cmd = 3#32 then .ok .presetSelect
  else if cmd = 4#32 then .ok .testSequenceStart
  else .error .unrecognisedCmd

/-- How an instruction reaches the machine: as a command word at the port, as the `cmd` field of a valid message,
or, for PROBE, as a notification whose message is invalid, which has "no encoding of its own". -/
inductive Encoding where
  | command (cw : CommandWord)
  | mailboxCmd (cmd : Word32)
  | invalidMessage
deriving DecidableEq, Repr

/-- The decoder on every way an instruction can arrive. -/
def decode : Encoding → Except DecodeError Instr
  | .command cw     => decodeCommand cw
  | .mailboxCmd cmd => decodeCmd cmd
  | .invalidMessage => .ok .probe

/-- The encoder, from the columns of 30_encoding R83 and R80. -/
def encode : Instr → Encoding
  | .encode cfg        => .command (packCommand 1#4 0#16 0#8 (cfg24ToBits cfg))
  | .decode c          => .command (packCommand 2#4 0#16 0#8 c)
  | .loadcfg p c cfg   => .command (packCommand 3#4 p c (cfg24ToBits cfg))
  | .precompute n      => .command (packCommand 4#4 n 0#8 0#24)
  | .get p d           => .command (packCommand 5#4 p d 0#24)
  | .apply p           => .command (packCommand 6#4 p 0#8 0#24)
  | .bulkUpdate        => .mailboxCmd 2#32
  | .presetSelect      => .mailboxCmd 3#32
  | .testSequenceStart => .mailboxCmd 4#32
  | .probe             => .invalidMessage

/-- A whole message image, byte k in bits 8k+7..8k of `w`: an invalid one (magic, status) stands for PROBE, a valid
one for its `cmd` (43_command_channel R181). Magic and byte order are those of `Config.example1`, since this
function has no state to read them from (LOG 26). -/
def decodeMessage (w : Nat) : Except DecodeError Instr :=
  if BitVec.ofNat 32 w = Config.example1.magic ∧ BitVec.ofNat 32 (w >>> 96) = 1#32 then
    decode (.mailboxCmd (BitVec.ofNat 32 (w >>> 32)))
  else decode .invalidMessage

/-- The instruction the decoder reads from a table row's word: 64 bits for a command word, 32 for a `cmd` field,
any other length for a message image (LOG 26). -/
def decodeTableWord (nbits w : Nat) : Option Instr :=
  if nbits = 64 then (decode (.command (BitVec.ofNat 64 w))).toOption
  else if nbits = 32 then (decode (.mailboxCmd (BitVec.ofNat 32 w))).toOption
  else (decodeMessage w).toOption

end Sys2Proof
end

