-- ==== Sys2Proof/Machine/Operands.lean ====
section
/-! DEFINITION. Operand assembly: the raw configuration operand, the bulk-update group, the payload bytes, the
4-byte mailbox fields (30_encoding R71 to R78, 20_memory R51, R52). -/

namespace Sys2Proof.Machine

/-- The cell LOADCFG stores: tuning and matching raw, detune = bit 0 of the flag byte (41_cache R120,
30_encoding R75). -/
def cellOfCfg24 (x : Cfg24) : Cell where
  tuning := x.tuning
  matching := x.matching
  detune := x.detuneFlag.getLsbD 0

/-- An unwritten cell of M (10_state R32). -/
def zeroCell : Cell where
  tuning := 0#8
  matching := 0#8
  detune := false

/-- The low byte, the middle byte and the high byte of a payload. -/
def payloadByte (p : Payload) (i : Nat) : Byte := p.extractLsb' (8 * i) 8

/-- `bytes3(P)`, the 3 bytes handed to `writeRegister` (30_encoding R74, 20_memory R51). -/
def bytes3 (order : ByteOrder) (p : Payload) : List Byte :=
  match order with
  | .le => [payloadByte p 0, payloadByte p 1, payloadByte p 2]
  | .be => [payloadByte p 2, payloadByte p 1, payloadByte p 0]

/-- Where byte `i` of the field's value, `i = 0` its bits 7:0, stands inside the field (20_memory R52). -/
def byteLane (order : ByteOrder) (i : Nat) : Nat :=
  match order with
  | .le => i
  | .be => 3 - i

/-- Byte `i` of a 4-byte value, `i = 0` its bits 7:0. -/
def word32Byte (w : Word32) (i : Nat) : Byte := w.extractLsb' (8 * i) 8

/-- The 4-byte value with these bytes, the first its bits 7:0. -/
def word32OfBytes (b0 b1 b2 b3 : Byte) : Word32 :=
  BitVec.setWidth 32 b0 ||| (BitVec.setWidth 32 b1 <<< 8) ||| (BitVec.setWidth 32 b2 <<< 16) |||
    (BitVec.setWidth 32 b3 <<< 24)

/-- The 4-byte value stored at address `a` (20_memory R44, R52). -/
def memWord (order : ByteOrder) (m : Memory) (a : Nat) : Word32 :=
  word32OfBytes (m.read (a + byteLane order 0)) (m.read (a + byteLane order 1)) (m.read (a + byteLane order 2))
    (m.read (a + byteLane order 3))

/-- The memory with the 4-byte value `w` stored at address `a` (20_memory R44, R52). -/
def memPutWord (order : ByteOrder) (m : Memory) (a : Nat) (w : Word32) : Memory :=
  (((m.write (a + byteLane order 0) (word32Byte w 0)).write (a + byteLane order 1) (word32Byte w 1)).write
    (a + byteLane order 2) (word32Byte w 2)).write (a + byteLane order 3) (word32Byte w 3)

/-- The offset of a field in the message (30_encoding R78). -/
def fieldOffset : MailField → Nat
  | .magic  => 0
  | .cmd    => 4
  | .len    => 8
  | .status => 12

/-- The address of byte `off` of the message (20_memory R44). -/
def mailboxAddr (cfg : Config) (off : Nat) : Nat := cfg.mailboxBase + off

/-- The number of complete groups of a bulk update (30_encoding R77). -/
def groupCount (pb : MessageBuffer) : Nat := pb.len.toNat / 3

/-- Group `g` of the bulk update in PB: tuning, matching, detuneFlag in this order (30_encoding R76). -/
def groupOperand (pb : MessageBuffer) (g : Nat) : Cfg24 where
  tuning := pb.payload.read (3 * g)
  matching := pb.payload.read (3 * g + 1)
  detuneFlag := pb.payload.read (3 * g + 2)

/-- The preset of group `g`, "preset-major order" (20_memory R41). -/
def groupPreset (cfg : Config) (g : Nat) : Nat := g / cfg.channels

/-- The channel of group `g` (20_memory R41). -/
def groupChannel (cfg : Config) (g : Nat) : Nat := g % cfg.channels

/-- The value an edge leaves on the preset-input line: the line is PRESET_INPUT_BITS wide (44_control_loop R216). -/
def sampledValue (cfg : Config) (v : Byte) : Byte := BitVec.ofNat 8 (v.toNat % 2 ^ cfg.presetInputBits)

end Sys2Proof.Machine
end

