-- ==== Sys2Proof/Machine/Ops.lean ====
section
/-! DEFINITION. The shared operations: acceptance and response of an operation, error statuses (60_exceptions R240),
interrupt entry and return (R259, R260), the index spaces, the answers of the collaborators, the lines, the mailbox
fields. -/

namespace Sys2Proof.Machine

/-- The outcome type of every meaning. -/
abbrev Result := Host.Outcome State Fault Refusal

/-! ### Acceptance, response, error status -/

/-- The status code of 30_encoding R84. -/
def statusCode : Status → BitVec 3
  | .ok              => 0#3
  | .configError     => 1#3
  | .resourceError   => 2#3
  | .notFound        => 3#3
  | .notReady        => 4#3
  | .indexOutOfRange => 5#3
  | .badCommand      => 6#3

/-- The response word: bits 31:27 zero, 26:24 the status, 23:0 the data (30_encoding R85). -/
def responseWord (st : Status) (data : Payload) : ResponseWord :=
  (BitVec.setWidth 32 (statusCode st) <<< 24) ||| BitVec.setWidth 32 data

/-- Record one event on the interfaces. -/
def observe (o : Obs) (s : State) : State := { s with trace := o :: s.trace }

/-- The block accepts an operation: `busy` becomes 1 (10_state R18). -/
def accept (i : Instr) (s : State) : State := { s with busy := true, trace := .accept i :: s.trace }

/-- The block delivers its response: `last_status` is written and `busy` returns to 0 (10_state R18, R19). -/
def respond (st : Status) (data : Payload) (s : State) : State :=
  { s with
    busy := false
    lastStatus := st
    response := responseWord st data
    trace := .response (responseWord st data) :: s.trace }

/-- `raise <Status>`: the operation ends here, the data is 0, nothing else changes (60_exceptions R240). -/
def raise (st : Status) (s : State) : State := respond st 0#24 s

/-- An operation of the block: refused while busy or from interrupt context (93 U16), else accepted and run. -/
def operation (i : Instr) (s : State) (run : State → State) : Result :=
  if s.context = .interrupt then .refused .interruptContext
  else if s.busy then .refused .blockBusy
  else .next (run (accept i s))

/-- A reserved command word: BadCommand and nothing else (30_encoding R86). -/
def rejectCommand (s : State) : State := raise .badCommand s

/-! ### Interrupt entry and return -/

/-- Entry: the handler runs in interrupt context; nothing of this spec is saved (60_exceptions R259, R262). -/
def takeInterrupt (s : State) : State := { s with context := .interrupt }

/-- The loop position after an interrupt: a suspended loop begins an iteration (44_control_loop R215,
60_exceptions R268). -/
def wakePos : LoopPos → LoopPos
  | .suspended => .top
  | p          => p

/-- Return: the barrier, then the interrupted point of the loop, which wakes if it was suspended
(60_exceptions R260, R262). -/
def returnFromInterrupt (s : State) : State :=
  { s with context := .loop, loopPos := wakePos s.loopPos, trace := .barrier :: s.trace }

/-! ### The index spaces of the block and of the devices -/

/-- The key of M[p][c] (20_memory R41). -/
def matrixKey (cfg : Config) (p c : Nat) : Nat := p * cfg.channels + c

/-- The key of PC[p][d] (20_memory R42). -/
def arenaKey (cfg : Config) (p d : Nat) : Nat := p * cfg.deviceCount + d

/-- M[p][c] in a matrix content. -/
def matrixCell (cfg : Config) (m : Store Cell) (p c : Nat) : Cell := storeRead zeroCell (matrixKey cfg p c) m

/-- A write of one whole cell of M (10_state R11). -/
def writeCell (p c : Nat) (x : Cell) (s : State) : State :=
  { s with matrix := storeWrite zeroCell (matrixKey s.cfg p c) x s.matrix }

/-- PC[p][d]. -/
def arenaCell (s : State) (p d : Nat) : Payload := storeRead 0#24 (arenaKey s.cfg p d) s.arena

/-- OUT[d]. -/
def outCell (s : State) (d : Nat) : Payload := storeRead 0#24 d s.out

/-- Set OUT[d] (10_state R29). -/
def setOut (d : Nat) (p : Payload) (s : State) : State := { s with out := storeWrite 0#24 d p s.out }

/-- The cache becomes empty (41_cache R124). -/
def emptyCache (s : State) : State := { s with cachedPresets := 0, cachedDevices := 0 }

/-- The routing of the shared bus, `none` for UNKNOWN (10_state R28). -/
def setBus (b : Option Nat) (s : State) : State := { s with selectedBus := b }

/-- `seq_state` (10_state R20). -/
def setSeq (q : SeqState) (s : State) : State := { s with seqState := q }

/-- The stage of a running PRECOMPUTE. -/
def setPrecompute (q : PrecomputeStage) (s : State) : State := { s with precompute := q }

/-- `dev_idx <- dev_idx + 1` (42_sequencer R151). -/
def advanceDevice (s : State) : State := { s with devIdx := s.devIdx + 1 }

/-- The outside events still to come. -/
def setInputs (l : List Input) (s : State) : State := { s with inputs := l }

/-- The calls of the bring-up code still to come. -/
def setCommands (l : List CommandWord) (s : State) : State := { s with commands := l }

/-- The position of the control loop. -/
def goto (p : LoopPos) (s : State) : State := { s with loopPos := p }

/-! ### The answers of the collaborators -/

/-- The next answer of `selectBus` or `writeRegister`: the next one given, else a free value. -/
def nextBusAnswer (s : State) : BusAnswer :=
  match s.busAnswers with
  | a :: _ => a
  | []     => Config.freeBusAnswer s.draws

/-- The state after one bus answer has been taken. -/
def takeBusAnswer (s : State) : State :=
  match s.busAnswers with
  | _ :: rest => { s with busAnswers := rest }
  | []        => { s with draws := s.draws + 1 }

/-- The value of `alloc_ok` at this PRECOMPUTE (41_cache R124). -/
def allocOk (s : State) : Bool :=
  if s.cfg.fixedArena then true
  else match s.allocAnswers with
    | a :: _ => a
    | []     => Config.freeAllocOk s.draws

/-- The state after `alloc_ok` has been taken. -/
def takeAlloc (s : State) : State :=
  if s.cfg.fixedArena then s
  else match s.allocAnswers with
    | _ :: rest => { s with allocAnswers := rest }
    | []        => { s with draws := s.draws + 1 }

/-- The next answer of `readRegister16`, `none` for failure (20_memory R48). -/
def nextMuxRead (s : State) : Option (BitVec 16) :=
  match s.muxReads with
  | a :: _ => a
  | []     => Config.freeMuxRead s.draws

/-- The state after one mux answer has been taken. -/
def takeMuxRead (s : State) : State :=
  match s.muxReads with
  | _ :: rest => { s with muxReads := rest }
  | []        => { s with draws := s.draws + 1 }

/-- Count one free value as drawn. -/
def countDraw (s : State) : State := { s with draws := s.draws + 1 }

/-! ### Lines, delays, mailbox -/

/-- `lineWrite(id, v)`: the output line with that logical id holds `v` (20_memory R49, 10_state R27). -/
def lineWrite (id : Nat) (v : Bool) (s : State) : State :=
  { s with
    trigger := if id = s.cfg.triggerLine then v else s.trigger
    strobe := if id = s.cfg.strobeLine then v else s.strobe
    trace := .lineWrite id v :: s.trace }

/-- A 4-byte field of the shared message. -/
def mailField (s : State) (f : MailField) : Word32 :=
  memWord s.cfg.mailboxByteOrder s.mailbox (mailboxAddr s.cfg (fieldOffset f))

/-- Payload byte `i` of the shared message (20_memory R52). -/
def mailPayload (s : State) (i : Nat) : Byte := s.mailbox.read (mailboxAddr s.cfg (mailboxHeaderBytes + i))

/-- Store a 4-byte field of the shared message. -/
def putMailField (f : MailField) (v : Word32) (s : State) : State :=
  { s with mailbox := memPutWord s.cfg.mailboxByteOrder s.mailbox (mailboxAddr s.cfg (fieldOffset f)) v }

/-- Store payload byte `i` of the shared message. -/
def putMailPayload (i : Nat) (b : Byte) (s : State) : State :=
  { s with mailbox := s.mailbox.write (mailboxAddr s.cfg (mailboxHeaderBytes + i)) b }

/-- `MemWrite` of a field by the companion core. -/
def coreWriteField (f : MailField) (v : Word32) (s : State) : State :=
  observe (.memWrite (fieldOffset f) 4 v) (putMailField f v s)

/-- `MemWrite` of payload byte `i` by the companion core. -/
def coreWriteByte (i : Nat) (b : Byte) (s : State) : State :=
  observe (.memWrite (mailboxHeaderBytes + i) 1 (BitVec.setWidth 32 b)) (putMailPayload i b s)

/-- `MemRead` of a field by the companion core, as an event; the value is `mailField`. -/
def coreReadField (f : MailField) (s : State) : State := observe (.memRead (fieldOffset f) 4) s

end Sys2Proof.Machine
end

