-- ==== Sys2Proof/Machine/Codec.lean ====
section
/-! DEFINITION. The codec: rev7, encode, decode and the two operations (40_codec). -/

namespace Sys2Proof.Machine

/-- `rev7(t)`: r[i] = t[6-i] (40_codec R100). -/
def rev7 (t : BitVec 7) : BitVec 7 :=
  BitVec.ofBool (t.getLsbD 0) ++ BitVec.ofBool (t.getLsbD 1) ++ BitVec.ofBool (t.getLsbD 2) ++
    BitVec.ofBool (t.getLsbD 3) ++ BitVec.ofBool (t.getLsbD 4) ++ BitVec.ofBool (t.getLsbD 5) ++
    BitVec.ofBool (t.getLsbD 6)

/-- The channel word of three in-range fields: detune at bit 11, reversed tuning at 10:4, matching at 3:0
(30_encoding R70, R71). -/
def packChannel (t : BitVec 7) (m : BitVec 4) (d : Bool) : ChannelWord := BitVec.ofBool d ++ rev7 t ++ m

/-- `encode(tuning, matching, detune)`: mask, reverse, pack (40_codec R101). -/
def encodeChannel (tuning matching : Byte) (detune : Bool) : ChannelWord :=
  packChannel (tuning.extractLsb' 0 7) (matching.extractLsb' 0 4) detune

/-- The three fields `decode(word)` gives, zero-extended to raw bytes (40_codec R104). -/
def decodeChannel (w : ChannelWord) : Cell where
  tuning := BitVec.setWidth 8 (rev7 (w.extractLsb' 4 7))
  matching := BitVec.setWidth 8 (w.extractLsb' 0 4)
  detune := w.getLsbD 11

/-- The channel word of a cell. -/
def encodeCell (x : Cell) : ChannelWord := encodeChannel x.tuning x.matching x.detune

/-- A cell as `cfg24` with in-range fields, `(d << 16) | (m << 8) | t` (40_codec R105). -/
def cellToCfg24 (x : Cell) : BitVec 24 :=
  cfg24ToBits { tuning := x.tuning, matching := x.matching, detuneFlag := BitVec.setWidth 8 (BitVec.ofBool x.detune) }

/-- ENCODE (40_codec R102). -/
def execEncode (x : Cfg24) (s : State) : Result :=
  operation (.encode x) s fun s => respond .ok (BitVec.setWidth 24 (encodeCell (cellOfCfg24 x))) s

/-- DECODE (40_codec R105): C[11:0] is the word, C[23:12] is ignored. -/
def execDecode (c : BitVec 24) (s : State) : Result :=
  operation (.decode c) s fun s => respond .ok (cellToCfg24 (decodeChannel (c.extractLsb' 0 12))) s

end Sys2Proof.Machine
end

