-- ==== Sys2Proof/Machine/Cache.lean ====
section
/-! DEFINITION. The preset payload cache: LOADCFG, PRECOMPUTE, GET (41_cache). -/

namespace Sys2Proof.Machine

/-- `slot_word(Mx, p, s)` (41_cache R121). -/
def slotWord (cfg : Config) (m : Store Cell) (p : Nat) : Option Nat → ChannelWord
  | none   => 0#12
  | some c => encodeCell (matrixCell cfg m p c)

/-- Slot B in the high 12 bits, slot A in the low 12 bits (30_encoding R72). -/
def packPayload (a b : ChannelWord) : Payload := b ++ a

/-- The payload of a mapping row for preset `p` (41_cache R122). -/
def rowPayload (cfg : Config) (m : Store Cell) (p : Nat) (r : DeviceRow) : Payload :=
  packPayload (slotWord cfg m p r.slotA) (slotWord cfg m p r.slotB)

/-- `payload_of(Mx, p, d)` for `d < DEVICE_COUNT` (41_cache R122). -/
def payloadOf (cfg : Config) (m : Store Cell) (p d : Nat) : Payload :=
  match cfg.deviceMap[d]? with
  | some r => rowPayload cfg m p r
  | none   => 0#24

/-- LOADCFG (41_cache R120): one write of a whole cell. -/
def execLoadcfg (p : PresetIndex) (c : Byte) (x : Cfg24) (s : State) : Result :=
  operation (.loadcfg p c x) s fun s =>
    if s.cfg.maxPresets ≤ p.toNat ∨ s.cfg.channels ≤ c.toNat then raise .indexOutOfRange s
    else respond .ok 0#24 (writeCell p.toNat c.toNat (cellOfCfg24 x) s)

/-- The derivation: PC[p][d] for every `p < n` and every device, in one step (41_cache R125, 10_state R21). The key
`k` stands for preset `k div DEVICE_COUNT` and device `k mod DEVICE_COUNT`. -/
def rebuildCache (n : Nat) (s : State) : State :=
  { s with
    arena := storeFill 0#24
      (fun k => payloadOf s.cfg s.matrix (k / s.cfg.deviceCount) (k % s.cfg.deviceCount))
      (n * s.cfg.deviceCount) s.arena
    cachedPresets := n
    cachedDevices := s.cfg.deviceCount }

/-- PRECOMPUTE: the count is validated first; with a legal count `busy` stays 1 and the resource check and the
derivation are steps of their own (`precomputeStep`), so that a handler can fall between them (41_cache R123, R129,
60_exceptions R259; LOG 32). -/
def execPrecompute (n : PresetIndex) (s : State) : Result :=
  operation (.precompute n) s fun s =>
    if n.toNat < 1 ∨ s.cfg.maxPresets < n.toNat then raise .configError s
    else setPrecompute (.resource n) s

/-- The resource check: without storage the cache becomes empty and the operation ends (41_cache R124). -/
def resourceStep (n : PresetIndex) (s : State) : State :=
  if allocOk s then setPrecompute (.derive n) (takeAlloc s)
  else raise .resourceError (emptyCache (setPrecompute .idle (takeAlloc s)))

/-- The derivation, from M as it stands, and the response OK (41_cache R125). -/
def deriveStep (n : PresetIndex) (s : State) : State :=
  respond .ok 0#24 (rebuildCache n.toNat (setPrecompute .idle s))

/-- One step of a running PRECOMPUTE. -/
def precomputeStep (s : State) : State :=
  match s.precompute with
  | .idle       => s
  | .resource n => resourceStep n s
  | .derive n   => deriveStep n s

/-- GET (41_cache R127). -/
def execGet (p : PresetIndex) (d : Byte) (s : State) : Result :=
  operation (.get p d) s fun s =>
    if s.cachedPresets = 0 ∨ s.cachedPresets ≤ p.toNat ∨ s.cachedDevices ≤ d.toNat then raise .notFound s
    else respond .ok (arenaCell s p.toNat d.toNat) s

end Sys2Proof.Machine
end

