-- ==== Sys2Proof/Machine/Sequencer.lean ====
section
/-! DEFINITION. The device apply sequencer: APPLY's entry and its walk, one bus transaction a step (42_sequencer). -/

namespace Sys2Proof.Machine

/-- The walk begins: `seq_preset <- p; dev_idx <- 0; seq_state <- SELECT` (42_sequencer R151). -/
def startWalk (p : PresetIndex) (s : State) : State :=
  { s with seqPreset := p, devIdx := 0, seqState := .select }

/-- APPLY: the entry checks in their order, then the walk begins; `busy` stays 1 until it ends and each bus
transaction is a step of its own (42_sequencer R150, R151, R159; LOG 5). -/
def execApply (p : PresetIndex) (s : State) : Result :=
  operation (.apply p) s fun s =>
    if s.cachedPresets = 0 then raise .notReady s
    else if s.cachedPresets ≤ p.toNat then raise .indexOutOfRange s
    else startWalk p s

/-- The walk ends: `seq_state <- IDLE` and the response OK (42_sequencer R151, R152). -/
def endWalk (s : State) : State := respond .ok 0#24 (setSeq .idle s)

/-- `dev_idx <- dev_idx + 1`, then the next device or the end (42_sequencer R151, R159). -/
def nextDevice (s : State) : State :=
  if s.devIdx + 1 < s.cfg.deviceCount then setSeq .select (advanceDevice s)
  else endWalk (advanceDevice s)

/-- The payload the sequencer writes for the device it serves: the cached one (42_sequencer R151). -/
def walkPayload (s : State) : Payload := arenaCell s s.seqPreset.toNat s.devIdx

/-- `selectBus(bus)` for the device served (20_memory R46, 10_state R28). What a call that has not returned has already
done is not in the spec (70_reset_and_hazards R295); that `selected_bus` stays as it was, and that the call stands in
the trace only with its answer, is DESIGN CHOICE (LOG 34). -/
def selectStep (r : DeviceRow) (s : State) : State :=
  match nextBusAnswer s with
  | .noAnswer => takeBusAnswer s
  | .ok => setSeq .write (observe (.selectBus r.bus true) (setBus (some r.bus) (takeBusAnswer s)))
  | .fail => nextDevice (observe (.selectBus r.bus false) (setBus none (takeBusAnswer s)))

/-- A mapping index that exists, else none. -/
def existingRow (cfg : Config) : Option Nat → Option Nat
  | some d => if d < cfg.deviceCount then some d else none
  | none   => none

/-- A successful write reaches the device the sequencer serves while the sub-bus is the one it selected; after the
routing was disturbed by a probe it reaches a device the source does not name (70_reset_and_hazards R291, LOG 14). -/
def deliver (r : DeviceRow) (s : State) : State :=
  if s.selectedBus = some r.bus then setOut s.devIdx (walkPayload s) s
  else match existingRow s.cfg (Config.freeMisroute s.draws) with
    | some d => countDraw (setOut d (walkPayload s) s)
    | none   => countDraw s

/-- The `writeRegister` event of the device served (20_memory R47, R43). -/
def writeEvent (r : DeviceRow) (ok : Bool) (s : State) : Obs :=
  .writeRegister r.addr s.cfg.outputRegId (bytes3 s.cfg.payloadByteOrder (walkPayload s)) 3 ok

/-- `writeRegister(addr, OUTPUT_REG_ID, bytes3(PC[p][d]), 3)` for the device served; the answer is ignored but for
OUT (42_sequencer R151, 10_state R29). What a call that has not returned has already done is not in the spec
(70_reset_and_hazards R295); that OUT stays as it was, and that the call stands in the trace only with its answer, is
DESIGN CHOICE (LOG 34). -/
def writeStep (r : DeviceRow) (s : State) : State :=
  match nextBusAnswer s with
  | .noAnswer => takeBusAnswer s
  | .ok => nextDevice (observe (writeEvent r true s) (deliver r (takeBusAnswer s)))
  | .fail => nextDevice (observe (writeEvent r false s) (takeBusAnswer s))

/-- One step of the sequencer (42_sequencer R151, R159). A position past the last device ends the walk, as the
`while` of R151 does. -/
def seqStep (s : State) : State :=
  match s.seqState, s.cfg.deviceMap[s.devIdx]? with
  | .idle, _          => s
  | .select, some r   => selectStep r s
  | .write, some r    => writeStep r s
  | .select, none     => endWalk s
  | .write, none      => endWalk s

end Sys2Proof.Machine
end

