-- ==== Sys2Proof/Machine/Mailbox.lean ====
section
/-! DEFINITION. The cross-core command channel: the NOTIFY handler, the probe, and the three commands
(43_command_channel). -/

namespace Sys2Proof.Machine

/-! ### The commands, in loop context -/

/-- BULK_UPDATE (43_command_channel R185): the group count is taken from PB.len and the loop over the groups begins.
Each LOADCFG and the PRECOMPUTE are operations the loop issues at steps of their own (`bulkStep`), so that a
notification can land between them (70_reset_and_hazards R288; LOG 5, LOG 11). -/
def execBulkUpdate (s : State) : Result := .next (goto (.bulkGroup 0 (groupCount s.pb)) s)

/-- PRESET_SELECT (43_command_channel R186). -/
def execPresetSelect (s : State) : Result :=
  if 1 ≤ s.pb.len.toNat then .next (requestPulse true (requestPreset (s.pb.payload.read 0) s))
  else .next s

/-- TEST_SEQUENCE_START (43_command_channel R187). -/
def execTestSequenceStart (s : State) : Result := .next (startSequence s)

/-! ### The probe, in interrupt context -/

/-- `PROBE_RESPONSE` of a status byte (30_encoding R92). -/
def probeResponse (cfg : Config) (status : Byte) : ProbeBytes := storeRead cfg.probeElse status.toNat cfg.probeTable

/-- The 3 response bytes: PROBE_RESPONSE of the status byte, or any bytes when the read failed (93 U13). That a
response is sent at all after a failed read is DESIGN CHOICE (LOG 13). -/
def probeBytes (cfg : Config) (answer : Option (BitVec 16)) (draws : Nat) : ProbeBytes :=
  match answer with
  | some v => probeResponse cfg (Config.muxStatusByte v)
  | none   => Config.freeProbeResponse draws

/-- The bytes in the mailbox payload, if PROBE_RESPONSE puts them there (30_encoding R92). The lowest first: DESIGN
CHOICE (LOG 13). -/
def probeStore (at? : Option Nat) (b : ProbeBytes) (s : State) : State :=
  match at? with
  | some i => coreWriteByte (i + 2) b.2.2 (coreWriteByte (i + 1) b.2.1 (coreWriteByte i b.1 s))
  | none   => s

/-- A field of the message, if PROBE_RESPONSE writes it. -/
def probeField (f : MailField) (v? : Option Word32) (s : State) : State :=
  match v? with
  | some v => coreWriteField f v s
  | none   => s

/-- The host notification, if PROBE_RESPONSE makes one. -/
def probeNotify (notify : Bool) (s : State) : State := if notify then observe .notifyPeer s else s

/-- The response goes to the host (43_command_channel R183, parameter PROBE_RESPONSE). The order of the parts is not in
the spec; the bytes, then `len`, then `status`, then the notification, as for a valid message, is DESIGN CHOICE
(LOG 13). -/
def returnProbe (b : ProbeBytes) (s : State) : State :=
  probeNotify s.cfg.probeReturn.notify
    (probeField .status s.cfg.probeReturn.status
      (probeField .len s.cfg.probeReturn.len
        (probeStore s.cfg.probeReturn.payloadAt b (observe (.probeResponse b.1 b.2.1 b.2.2) s))))

/-- `readRegister16(MUX_ADDR, MUX_STATUS_REG)`: the answer is a draw, and what the read does to the routing is "not
in the source" (20_memory R48, R55, LOG 14). -/
def readMux (s : State) : State :=
  observe (.readRegister16 s.cfg.muxAddr s.cfg.muxStatusReg (nextMuxRead s))
    (setBus (Config.freeRouting (takeMuxRead s).draws) (countDraw (takeMuxRead s)))

/-- PROBE, the rest of the NOTIFY handler for an invalid message (43_command_channel R183): one register read, three
bytes to the host, no flag, return from the interrupt. What happens after a failed read is not in the spec; that the
response goes out in the same way, with free bytes, is DESIGN CHOICE (LOG 13). -/
def execProbe (s : State) : Result :=
  .next (returnFromInterrupt (returnProbe (probeBytes s.cfg (nextMuxRead s) s.draws) (readMux s)))

/-! ### NOTIFY -/

/-- `valid <- (magic = MAGIC) and (status = 1)` (43_command_channel R181). -/
def messageValid (s : State) : Bool := decide (mailField s .magic = s.cfg.magic) && decide (mailField s .status = 1#32)

/-- The private copy of the first `n` payload bytes; the buffer past them keeps its content (43_command_channel R182,
LOG 11). -/
def copyPayload (n : Nat) (s : State) : Memory := storeFill unlistedByte (mailPayload s) n s.pb.payload

/-- The events of reading `n` payload bytes, one byte access each (20_memory R54), newest first. The spec gives no
order among them; the lowest index first is DESIGN CHOICE (LOG 33). -/
def payloadReads (n : Nat) : List Obs := (List.range n).reverse.map (fun i => .memRead (mailboxHeaderBytes + i) 1)

/-- The copy of the message into PB, before the acknowledgement (43_command_channel R182, 20_memory R59): `cmd`, then
`len`, then the payload, whose bytes are read in the order of `payloadReads` (LOG 33). -/
def copyMessage (s : State) : State :=
  { s with
    pb := { cmd := mailField s .cmd, len := mailField s .len, payload := copyPayload (mailField s .len).toNat s }
    trace := payloadReads (mailField s .len).toNat ++
      .memRead (fieldOffset .len) 4 :: .memRead (fieldOffset .cmd) 4 :: s.trace }

/-- A valid message of legal length: copy, acknowledge, notify the host, set the flag, return (43_command_channel
R182). -/
def takeMessage (s : State) : State :=
  returnFromInterrupt (setMailPending (observe .notifyPeer (coreWriteField .status 2#32 (copyMessage s))))

/-- The validation reads of the handler: magic, then status (43_command_channel R181). -/
def beginNotify (s : State) : State := coreReadField .status (coreReadField .magic (takeInterrupt s))

/-! ### The edge interrupt -/

/-- The preset-input line takes the value that comes with the edge, PRESET_INPUT_BITS wide (10_state R27). -/
def setPresetInput (v : Byte) (s : State) : State := { s with presetInput := sampledValue s.cfg v }

/-- `v <- lineRead(PRESET_INPUT_LINE)` and the request it records (44_control_loop R216). -/
def sampleRequest (s : State) : State :=
  requestPulse s.cfg.edgeRaisesPulse
    (requestPreset s.presetInput (observe (.lineRead s.cfg.presetInputLine s.presetInput) s))

/-- EDGE (44_control_loop R216): the line holds its new value, the handler samples it, records the request and
returns. -/
def edgeHandler (v : Byte) (s : State) : State :=
  returnFromInterrupt (sampleRequest (takeInterrupt (setPresetInput v s)))

end Sys2Proof.Machine
end

