-- ==== Sys2Proof/WellFormed.lean ====
section
/-! DEFINITION. What a well-formed configuration is (00_scope R5, 10_state R17, 20_memory R53). An instruction
needs no check: every operand has exactly the width of its field (30_encoding R83), so every term of `Instr` is
well-formed. -/

namespace Sys2Proof

/-- A slot of an RX row is unmapped or an RX channel 1..N_RX (10_state R17 b). -/
def rxSlotOk (nRx : Nat) : Option Nat → Bool
  | none   => true
  | some c => decide (1 ≤ c) && decide (c ≤ nRx)

/-- A row of the mapping by its kind (10_state R17 a, b). -/
def DeviceRow.slotsOk (nRx : Nat) (r : DeviceRow) : Bool :=
  match r.kind with
  | .tx => decide (r.slotA = some 0) && decide (r.slotB = none)
  | .rx => rxSlotOk nRx r.slotA && rxSlotOk nRx r.slotB

/-- The mapping is well-formed: each row by its kind, exactly one TX row, at `TX_DEVICE_INDEX` (10_state R17). -/
def Config.mappingOk (cfg : Config) : Bool :=
  cfg.deviceMap.all (DeviceRow.slotsOk cfg.nRx) &&
    decide (cfg.deviceMap.countP (fun r => decide (r.kind = .tx)) = 1) &&
    decide (cfg.deviceMap[cfg.txDeviceIndex]?.map DeviceRow.kind = some .tx)

/-- The mailbox base is 4-byte aligned (20_memory R53). -/
def Config.mailboxAligned (cfg : Config) : Bool := decide (cfg.mailboxBase % 4 = 0)

/-- MAX_PRESETS, CHANNELS, DEVICE_COUNT, ACTIVE_PRESETS and PRESET_INPUT_BITS lie in their ranges (00_scope R5,
decision D33). -/
def Config.sizesOk (cfg : Config) : Bool :=
  decide (1 ≤ cfg.maxPresets) && decide (cfg.maxPresets ≤ 65535) && decide (cfg.channels ≤ 256) &&
    decide (1 ≤ cfg.deviceCount) && decide (cfg.deviceCount ≤ 255) &&
    decide (1 ≤ cfg.activePresets) && decide (cfg.activePresets ≤ cfg.maxPresets) &&
    decide (1 ≤ cfg.presetInputBits) && decide (cfg.presetInputBits ≤ 8)

/-- Every bus id, device address and register id fits its width (00_scope R5). -/
def Config.widthsOk (cfg : Config) : Bool :=
  cfg.deviceMap.all (fun r => decide (r.bus < 2 ^ cfg.busIdBits) && decide (r.addr < 2 ^ cfg.devAddrBits)) &&
    decide (cfg.outputRegId < 2 ^ cfg.regIdBits) && decide (cfg.muxAddr < 2 ^ cfg.devAddrBits) &&
    decide (cfg.muxStatusReg < 2 ^ cfg.regIdBits)

/-- The three discrete lines have distinct logical ids (00_scope R5). -/
def Config.linesDistinct (cfg : Config) : Bool :=
  decide (cfg.triggerLine ≠ cfg.strobeLine) && decide (cfg.triggerLine ≠ cfg.presetInputLine) &&
    decide (cfg.strobeLine ≠ cfg.presetInputLine)

/-- Bytes of a probe response stored in the mailbox lie in its payload, and the companion core "never writes 0 or
1 to `status`" (43_command_channel R180). -/
def ProbeReturn.ok (r : ProbeReturn) : Bool :=
  (match r.payloadAt with
    | none   => true
    | some i => decide (i + 3 ≤ mailboxPayloadMax)) &&
    decide (r.status ≠ some 0#32) && decide (r.status ≠ some 1#32)

/-- Every parameter of 00_scope R5 but the mapping and the mailbox base, which have refusals of their own. -/
def Config.parametersOk (cfg : Config) : Bool :=
  cfg.sizesOk && cfg.widthsOk && cfg.linesDistinct && cfg.probeReturn.ok

/-- A well-formed configuration: the only ones the machine runs (93 U21, 20_memory R53). -/
def Config.wf (cfg : Config) : Bool := cfg.mappingOk && cfg.mailboxAligned && cfg.parametersOk

end Sys2Proof
end

