-- ==== Sys2Proof/Machine/ControlLoop.lean ====
section
/-! DEFINITION. The control loop, line by line (44_control_loop R210 to R215), and what the machine does next: an
instruction to run, or a step that needs none. -/

namespace Sys2Proof.Machine

/-- What a step does: run an instruction at a state, or answer at once. -/
inductive Action where
  | run (i : Instr) (s : State)
  | done (s : State)
  | fault (f : Fault)
  | refuse (r : Refusal)
deriving Repr

/-- One command word of the bring-up caller: the decoded operation, or BadCommand (30_encoding R86). -/
def commandStep (cw : CommandWord) (s : State) : Action :=
  match decode (.command cw) with
  | .ok i    => .run i s
  | .error _ => .done (rejectCommand s)

/-- The top of an iteration: a waiting call of the bring-up code first (LOG 4), then item 1's condition. -/
def topStep (s : State) : Action :=
  match s.commands with
  | cw :: rest => commandStep cw (setCommands rest s)
  | []         => .done (goto (if s.presetChangeRequested then .presetApply else .pulseTest) s)

/-- The next strobe toggle, or the inter-scan delay after the last (44_control_loop R213). -/
def afterEcho (n : Nat) : LoopPos := if n = 0 then .scanDelay else .echoHigh n

/-- The switch on `PB.cmd`; an unrecognised `cmd` does nothing (43_command_channel R184, R188). -/
def dispatchStep (s : State) : Action :=
  match decode (.mailboxCmd s.pb.cmd) with
  | .ok i    => .run i (goto .mailClear s)
  | .error _ => .done (goto .mailClear s)

/-- One round of BULK_UPDATE: the LOADCFG of group `g`, which is read from PB now; a group past the matrix is
ignored; after the last group the PRECOMPUTE (43_command_channel R185, 20_memory R41). -/
def bulkStep (g groups : Nat) (s : State) : Action :=
  if g < groups then
    if groupPreset s.cfg g < s.cfg.maxPresets then
      .run (.loadcfg (BitVec.ofNat 16 (groupPreset s.cfg g)) (BitVec.ofNat 8 (groupChannel s.cfg g))
        (groupOperand s.pb g)) (goto (.bulkGroup (g + 1) groups) s)
    else .done (goto (.bulkGroup (g + 1) groups) s)
  else .run (.precompute (BitVec.ofNat 16 s.cfg.activePresets)) (goto .mailClear s)

/-- One step of the control loop (44_control_loop R210 to R215). -/
def loopStep (s : State) : Action :=
  match s.loopPos with
  | .top             => topStep s
  | .presetApply     => .run (.apply (BitVec.setWidth 16 s.pendingPreset)) (goto .presetClear s)
  | .presetClear     => .done (goto .pulseTest (clearPresetChange s))
  | .pulseTest       => .done (goto (if s.pulseRequested then .pulseHigh else .scanTest) s)
  | .pulseHigh       => .done (goto .pulseHold (lineWrite s.cfg.triggerLine true s))
  | .pulseHold       => .done (goto .pulseLow (observe (.delay (.pulseHold s.cfg.pulseHoldUs)) s))
  | .pulseLow        => .done (goto .pulseClear (lineWrite s.cfg.triggerLine false s))
  | .pulseClear      => .done (goto .scanTest (clearPulse s))
  | .scanTest        => .done (goto (if s.testSequenceActive then afterEcho s.cfg.echoesPerScan else .mailTest) s)
  | .echoHigh n      => .done (goto (.echoHighDelay n) (lineWrite s.cfg.strobeLine true s))
  | .echoHighDelay n => .done (goto (.echoLow n) (observe (.delay (.echoHigh s.cfg.echoHighDelay)) s))
  | .echoLow n       => .done (goto (.echoLowDelay n) (lineWrite s.cfg.strobeLine false s))
  | .echoLowDelay n  => .done (goto (afterEcho (n - 1)) (observe (.delay (.echoLow s.cfg.echoLowDelay)) s))
  | .scanDelay       => .done (goto .scanCount (observe (.delay (.interScan s.cfg.interScanDelayMs)) s))
  | .scanCount       => .done (goto .mailTest (countScan s))
  | .mailTest        => .done (goto (if s.mailboxMessagePending then .dispatch else .endTest) s)
  | .dispatch        => dispatchStep s
  | .bulkGroup g n   => bulkStep g n s
  | .mailClear       => .done (goto .endTest (clearMailPending s))
  | .endTest         => .done (goto (if anyEvent s then .top else .suspended) s)
  | .suspended       => .done s

/-- The machine's own step: the sequencer while an APPLY walks, the cache while a PRECOMPUTE runs, else the loop
(10_state R18, 42_sequencer R156). -/
def machineStep (s : State) : Action :=
  if s.seqState ≠ .idle then .done (seqStep s)
  else if s.precompute ≠ .idle then .done (precomputeStep s)
  else loopStep s

/-- NOTIFY (43_command_channel R181 to R183, R189): the probe, the refusal of a length past the payload, or the
message taken. -/
def notifyStep (s : State) : Action :=
  if messageValid s then
    if mailboxPayloadMax < (mailField s .len).toNat then .refuse .mailboxLengthOver512
    else .done (takeMessage (beginNotify s))
  else .run .probe (beginNotify s)

/-- A host store to payload byte `i` (60_exceptions R269); past the region there is no byte (20_memory R44). -/
def hostPayloadStep (i : Nat) (b : Byte) (s : State) : Action :=
  if i < mailboxPayloadMax then .done (putMailPayload i b s) else .fault .outsideMailbox

/-- One entry of the schedule. -/
def inputStep (e : Input) (s : State) : Action :=
  match e with
  | .machine         => machineStep s
  | .edge v          => .done (edgeHandler v s)
  | .notify          => notifyStep s
  | .hostField f v   => .done (putMailField f v s)
  | .hostPayload i b => hostPayloadStep i b s

/-- Whose turn it is: the next entry of the schedule, or the machine when the schedule is empty (LOG 2). -/
def scheduledStep (s : State) : Action :=
  match s.inputs with
  | e :: rest => inputStep e (setInputs rest s)
  | []        => machineStep s

/-- The next action; a configuration that is not well-formed has none (93 U21, 20_memory R53). -/
def nextAction (s : State) : Action :=
  if s.cfg.mappingOk = false then .refuse .illFormedMapping
  else if s.cfg.mailboxAligned = false then .refuse .misalignedMailbox
  else if s.cfg.parametersOk = false then .refuse .parameterOutOfRange
  else scheduledStep s

/-! ### Placing an instruction so that the next step runs it -/

/-- The machine is at the point where the instruction is fetched, and the next turn is its own. -/
def fetchReady (p : LoopPos) (s : State) : State :=
  { s with
    busy := false, seqState := .idle, precompute := .idle, context := .loop, loopPos := p
    inputs := .machine :: s.inputs }

/-- A command word as the next call of the bring-up code (LOG 4). -/
def placeCommand (cw : CommandWord) (s : State) : State :=
  { fetchReady .top s with commands := cw :: s.commands }

/-- A message with this `cmd`, `len` 0 and an all-zero payload, copied into PB and about to be dispatched. -/
def placeCmd (cmd : Word32) (s : State) : State :=
  { fetchReady .dispatch s with mailboxMessagePending := true, pb := { cmd := cmd, len := 0#32, payload := [] } }

/-- The byte image `w` in the mailbox region, byte k in its bits 8k+7..8k. -/
def mailboxImage (cfg : Config) (w : Nat) : Nat → Memory → Memory
  | 0, m => m
  | n + 1, m => (mailboxImage cfg w n m).write (mailboxAddr cfg n) (BitVec.ofNat 8 (w >>> (8 * n)))

/-- A message image in the mailbox and, as the next input, the notification: for an invalid message the next step
is PROBE. A valid message is given as copied into PB and about to be dispatched. -/
def placeMessage (w : Nat) (s : State) : State :=
  let t := { s with mailbox := mailboxImage s.cfg w (mailboxHeaderBytes + mailboxPayloadMax) s.mailbox }
  if messageValid t then
    { fetchReady .dispatch t with
      mailboxMessagePending := true
      pb := { cmd := mailField t .cmd, len := mailField t .len, payload := copyPayload mailboxPayloadMax t } }
  else { t with inputs := .notify :: t.inputs }

/-- The state whose next step runs the instruction of a table row's word (LOG 4, LOG 26). -/
def placeWord (nbits w : Nat) (s : State) : State :=
  if nbits = 64 then placeCommand (BitVec.ofNat 64 w) s
  else if nbits = 32 then placeCmd (BitVec.ofNat 32 w) s
  else placeMessage w s

end Sys2Proof.Machine
end

