-- ==== Sys2Proof/Machine/Dispatch.lean ====
section
/-! DEFINITION. One arm for each constructor of Instr. -/

namespace Sys2Proof.Machine

def exec (i : Instr) (s : State) : Host.Outcome State Fault Refusal :=
  match i with
  | .encode cfg => Sys2Proof.Machine.execEncode cfg s
  | .decode c => Sys2Proof.Machine.execDecode c s
  | .loadcfg p c cfg => Sys2Proof.Machine.execLoadcfg p c cfg s
  | .precompute n => Sys2Proof.Machine.execPrecompute n s
  | .get p d => Sys2Proof.Machine.execGet p d s
  | .apply p => Sys2Proof.Machine.execApply p s
  | .bulkUpdate => Sys2Proof.Machine.execBulkUpdate s
  | .presetSelect => Sys2Proof.Machine.execPresetSelect s
  | .testSequenceStart => Sys2Proof.Machine.execTestSequenceStart s
  | .probe => Sys2Proof.Machine.execProbe s

end Sys2Proof.Machine
end

