-- ==== Sys2Proof/Machine/Step.lean ====
section
/-! DEFINITION. One step of the machine, and where an instruction is placed to be its next. -/

namespace Sys2Proof.Machine

/-- One step: the next action decides; an instruction is run by `exec`. -/
def step (s : State) : Host.Outcome State Fault Refusal :=
  match nextAction s with
  | .run i t  => exec i t
  | .done t   => .next t
  | .fault f  => .fault f
  | .refuse r => .refused r

/-- `s` with the instruction of a table row's word placed so that the next step runs it. -/
def State.withFetchWord (s : State) (nbits w : Nat) : State := placeWord nbits w s

end Sys2Proof.Machine
end

