-- ==== Sys2Proof/Safety.lean ====
section
/-! DEFINITION. What counts as a safe run, in the terms the statements use: the invariant of the machine, the cache's
validity, runs of several steps, and the bus trace an APPLY is to leave. -/

namespace Sys2Proof.Machine

/-- `n` steps lead from `s` to `t`. -/
def runs : Nat → State → State → Prop
  | 0, s, t => s = t
  | n + 1, s, t => ∃ u, step s = .next u ∧ runs n u t

/-- The machine takes its own steps: a well-formed configuration, no outside event to come, loop context
(the hypotheses under which a run is the machine's alone). -/
structure Undisturbed (s : State) : Prop where
  cfgWf   : s.cfg.wf = true
  inputs  : s.inputs = []
  context : s.context = .loop

/-- The next turn is the machine's own: no outside event lands here. After the step `inputs.tail` is left. -/
structure OwnTurn (s : State) : Prop where
  cfgWf  : s.cfg.wf = true
  inputs : s.inputs = [] ∨ ∃ rest, s.inputs = .machine :: rest

/-- The block is idle (10_state R18, R20). -/
structure BlockIdle (s : State) : Prop where
  busy       : s.busy = false
  seqState   : s.seqState = .idle
  precompute : s.precompute = .idle

/-- The next turn is the control loop's: the machine's own, with no operation of the block under way. -/
structure LoopTurn (s : State) : Prop where
  own        : OwnTurn s
  seqState   : s.seqState = .idle
  precompute : s.precompute = .idle

/-- An operation can be accepted (10_state R18, 60_exceptions R263). -/
structure Accepts (s : State) : Prop where
  busy    : s.busy = false
  context : s.context = .loop

/-- The cache holds the payloads of the matrix content `m` inside its bounds (10_state R15 b). -/
def CacheOf (m : Store Cell) (s : State) : Prop :=
  ∀ p d, p < s.cachedPresets → d < s.cachedDevices → arenaCell s p d = payloadOf s.cfg m p d

/-- Every store is in canonical form and lists only cells that exist. -/
structure StoresOk (s : State) : Prop where
  matrixWf       : storeWf zeroCell s.matrix = true
  matrixWithin   : storeWithin 0 (s.cfg.maxPresets * s.cfg.channels) s.matrix = true
  arenaWf        : storeWf 0#24 s.arena = true
  arenaWithin    : storeWithin 0 (s.cfg.maxPresets * s.cfg.deviceCount) s.arena = true
  outWf          : storeWf 0#24 s.out = true
  outWithin      : storeWithin 0 s.cfg.deviceCount s.out = true
  mailboxWf      : s.mailbox.wf = true
  mailboxWithin  : storeWithin s.cfg.mailboxBase (mailboxHeaderBytes + mailboxPayloadMax) s.mailbox = true
  bufferWf       : s.pb.payload.wf = true
  bufferWithin   : storeWithin 0 mailboxPayloadMax s.pb.payload = true

/-- The block's control state is consistent (10_state R13, R14, R18, R20). -/
structure BlockOk (s : State) : Prop where
  busyAtWork   : s.busy = true ↔ s.seqState ≠ .idle ∨ s.precompute ≠ .idle
  oneAtWork    : s.seqState = .idle ∨ s.precompute = .idle
  countInRange : ∀ n, s.precompute = .resource n ∨ s.precompute = .derive n →
    1 ≤ n.toNat ∧ n.toNat ≤ s.cfg.maxPresets
  presetsBound : s.cachedPresets ≤ s.cfg.maxPresets
  devicesBound : s.cachedDevices = if s.cachedPresets = 0 then 0 else s.cfg.deviceCount
  walkPreset   : s.seqState ≠ .idle → s.seqPreset.toNat < s.cachedPresets
  walkDevice   : s.seqState ≠ .idle → s.devIdx < s.cfg.deviceCount
  devIdxBound  : s.devIdx ≤ s.cfg.deviceCount

/-- The strobe output is high exactly at these positions of item 3 (44_control_loop R213). -/
def strobeHighAt : LoopPos → Bool
  | .echoHighDelay _ => true
  | .echoLow _       => true
  | _                => false

/-- The trigger output is high exactly at these positions of item 2 (44_control_loop R212). -/
def triggerHighAt : LoopPos → Bool
  | .pulseHold => true
  | .pulseLow  => true
  | _          => false

/-- The environment's state is consistent (10_state R24, R26, R27, 60_exceptions R262). -/
structure LoopOk (s : State) : Prop where
  contextLoop   : s.context = .loop
  targetFollows : s.scanTarget = if s.testSequenceActive then s.cfg.scanTarget else 0#8
  bufferLength  : s.pb.len.toNat ≤ mailboxPayloadMax
  triggerPulse  : s.trigger = triggerHighAt s.loopPos
  strobeEcho    : s.strobe = strobeHighAt s.loopPos
  walkPos       : s.seqState ≠ .idle → s.loopPos = .top ∨ s.loopPos = .presetClear
  precomputePos : s.precompute ≠ .idle → s.loopPos = .top ∨ s.loopPos = .mailClear

/-- The invariant every step keeps. -/
structure Inv (s : State) : Prop where
  cfgWf  : s.cfg.wf = true
  stores : StoresOk s
  block  : BlockOk s
  loop   : LoopOk s

/-- What the collaborators answer to one device of a walk: `select` to its `selectBus` and, when that succeeded,
`write` to its `writeRegister`. -/
structure DeviceAnswers where
  select : Bool
  write  : Bool
deriving DecidableEq, Repr

/-- A success or failure as a bus answer. -/
def busAnswerOf (ok : Bool) : BusAnswer := if ok then .ok else .fail

/-- The answers of a walk in call order: a failed `selectBus` is followed by no `writeRegister` (42_sequencer R151). -/
def answerList : List DeviceAnswers → List BusAnswer
  | [] => []
  | a :: rest =>
    if a.select then .ok :: busAnswerOf a.write :: answerList rest else .fail :: answerList rest

/-- The bus trace of a walk, oldest first, written from 42_sequencer R154: for each row `selectBus`, then
`writeRegister` only if that answered ok. `payload d` is the cached payload of device `d`. -/
def walkTrace (cfg : Config) (payload : Nat → Payload) : Nat → List DeviceRow → List DeviceAnswers → List Obs
  | _, [], _ => []
  | _, _ :: _, [] => []
  | d, r :: rows, a :: rest =>
    (if a.select then
      [.selectBus r.bus true,
        .writeRegister r.addr cfg.outputRegId (bytes3 cfg.payloadByteOrder (payload d)) 3 a.write]
    else [.selectBus r.bus false]) ++ walkTrace cfg payload (d + 1) rows rest

/-- A command word is reserved, written from 30_encoding R82, R83 and R86 in plain arithmetic: `op` 0 or above 6,
`rsv` not zero, or a field marked 0 that is not zero. -/
def reservedWord (cw : CommandWord) : Prop :=
  let op := cw.toNat / 2 ^ 60
  let rsv := cw.toNat / 2 ^ 48 % 2 ^ 12
  let a := cw.toNat / 2 ^ 32 % 2 ^ 16
  let b := cw.toNat / 2 ^ 24 % 2 ^ 8
  let c := cw.toNat % 2 ^ 24
  op = 0 ∨ 7 ≤ op ∨ rsv ≠ 0 ∨ ((op = 1 ∨ op = 2) ∧ (a ≠ 0 ∨ b ≠ 0)) ∨
    ((op = 4 ∨ op = 6) ∧ (b ≠ 0 ∨ c ≠ 0)) ∨ (op = 5 ∧ c ≠ 0)

/-- The item of an iteration a loop position belongs to: items 1 to 4 of 44_control_loop R210, 5 for the test at the
end, 6 for the suspension. -/
def itemOf : LoopPos → Nat
  | .top             => 1
  | .presetApply     => 1
  | .presetClear     => 1
  | .pulseTest       => 2
  | .pulseHigh       => 2
  | .pulseHold       => 2
  | .pulseLow        => 2
  | .pulseClear      => 2
  | .scanTest        => 3
  | .echoHigh _      => 3
  | .echoHighDelay _ => 3
  | .echoLow _       => 3
  | .echoLowDelay _  => 3
  | .scanDelay       => 3
  | .scanCount       => 3
  | .mailTest        => 4
  | .dispatch        => 4
  | .bulkGroup _ _   => 4
  | .mailClear       => 4
  | .endTest         => 5
  | .suspended       => 6

/-- The trace of one trigger pulse, oldest first (44_control_loop R212). -/
def pulseTrace (cfg : Config) : List Obs :=
  [.lineWrite cfg.triggerLine true, .delay (.pulseHold cfg.pulseHoldUs), .lineWrite cfg.triggerLine false]

/-- The trace of `n` strobe toggles, oldest first (44_control_loop R213). -/
def strobeTrace (cfg : Config) : Nat → List Obs
  | 0 => []
  | n + 1 =>
    [.lineWrite cfg.strobeLine true, .delay (.echoHigh cfg.echoHighDelay), .lineWrite cfg.strobeLine false,
      .delay (.echoLow cfg.echoLowDelay)] ++ strobeTrace cfg n

end Sys2Proof.Machine
end

