-- ==== Sys2Proof/Certificates/Slice0/Obligations.lean ====
section
/-! DEFINITION. The statements for the provers. Each docstring names the rule it formalises; a statement that rests on
a choice of the model names the log entry. -/

open Sys2Proof Sys2Proof.Machine

/-! ### Encoding -/

/-- Decoding the encoding of an instruction gives it back, for every instruction and every operand (30_encoding R82,
R83, R80). -/
def Obligations.DecodeEncodeAgree : Prop := ∀ i : Instr, decode (encode i) = .ok i

/-- Each encoding that decodes is the encoding of what it decodes to: every word has one meaning, and no bit of it is
dropped (30_encoding R83). -/
def Obligations.EncodeDecodeAgree : Prop := ∀ (e : Encoding) (i : Instr), decode e = .ok i → encode i = e

/-- The words of 95_test_vectors P1, P2 and section 4, and the `cmd` values of 30_encoding R80, decode to the
operations they stand for. -/
def Obligations.WordsOfTheVectorsDecode : Prop :=
  decodeCommand 0x10000000000312C8#64 = .ok (.encode { tuning := 200#8, matching := 18#8, detuneFlag := 3#8 }) ∧
  decodeCommand 0x2000000000000ABC#64 = .ok (.decode 0xABC#24) ∧
  decodeCommand 0x300000010101030A#64 =
    .ok (.loadcfg 1#16 1#8 { tuning := 10#8, matching := 3#8, detuneFlag := 1#8 }) ∧
  decodeCommand 0x4000000500000000#64 = .ok (.precompute 5#16) ∧
  decodeCommand 0x5000000102000000#64 = .ok (.get 1#16 2#8) ∧
  decodeCommand 0x6000000200000000#64 = .ok (.apply 2#16) ∧
  decodeCmd 2#32 = .ok .bulkUpdate ∧ decodeCmd 3#32 = .ok .presetSelect ∧ decodeCmd 4#32 = .ok .testSequenceStart

/-- 30_encoding R86: the decoder of the port rejects exactly the reserved words, and a reserved command word at the port
is answered with BadCommand (RW 0x06000000) and changes no state except `last_status`; no bus operation is issued. That
the word is a waiting call of the bring-up code is the model's (LOG 4). -/
def Obligations.ReservedWordAnswersBadCommand : Prop :=
  (∀ cw : CommandWord, reservedWord cw ↔ ∀ i, decode (.command cw) ≠ .ok i) ∧
  ∀ (s : State) (cw : CommandWord) (rest : List CommandWord), OwnTurn s → BlockIdle s → s.loopPos = .top →
    s.commands = cw :: rest → reservedWord cw →
    step s = .next { s with
      inputs := s.inputs.tail
      commands := rest
      lastStatus := .badCommand
      response := 0x06000000#32
      trace := .response 0x06000000#32 :: s.trace }

/-- 30_encoding R84, R85: the seven status codes; bits 31:27 of a response word are 0, bits 26:24 the status code, bits
23:0 the data; a raised status carries data 0. -/
def Obligations.ResponseWordLayout : Prop :=
  (statusCode .ok = 0#3 ∧ statusCode .configError = 1#3 ∧ statusCode .resourceError = 2#3 ∧
    statusCode .notFound = 3#3 ∧ statusCode .notReady = 4#3 ∧ statusCode .indexOutOfRange = 5#3 ∧
    statusCode .badCommand = 6#3) ∧
  (∀ (st : Status) (data : Payload), (responseWord st data).toNat = (statusCode st).toNat * 2 ^ 24 + data.toNat) ∧
  ∀ (st : Status) (s : State), (raise st s).response.toNat = (statusCode st).toNat * 2 ^ 24

/-! ### A step runs the decoded instruction -/

/-- Where the machine's own turn meets an instruction, `step` is `exec` of it: a call at the port that decodes, the
`cmd` of PB at the dispatch, item 1's APPLY, and PROBE for a notification whose message is invalid. Around `exec` the
step takes the call from the port, or moves the loop past the dispatch, or past the APPLY, or enters the interrupt. -/
def Obligations.StepRunsTheDecodedInstruction : Prop :=
  (∀ (s : State) (cw : CommandWord) (rest : List CommandWord) (i : Instr), LoopTurn s → s.loopPos = .top →
    s.commands = cw :: rest → decode (.command cw) = .ok i →
    step s = exec i { s with inputs := s.inputs.tail, commands := rest }) ∧
  (∀ (s : State) (i : Instr), LoopTurn s → s.loopPos = .dispatch →
    decode (.mailboxCmd s.pb.cmd) = .ok i →
    step s = exec i { s with inputs := s.inputs.tail, loopPos := .mailClear }) ∧
  (∀ s : State, LoopTurn s → s.loopPos = .presetApply →
    step s = exec (.apply (BitVec.setWidth 16 s.pendingPreset))
      { s with inputs := s.inputs.tail, loopPos := .presetClear }) ∧
  (∀ (s : State) (rest : List Input), s.cfg.wf = true → s.inputs = .notify :: rest →
    ¬ (mailField s .magic = s.cfg.magic ∧ mailField s .status = 1#32) →
    step s = exec .probe { s with
      inputs := rest
      context := .interrupt
      trace := .memRead 12 4 :: .memRead 0 4 :: s.trace })

/-! ### Codec -/

/-- 40_codec R100: `r[i] = t[6-i]` for i = 0..6, and rev7 is its own inverse. -/
def Obligations.Rev7ReversesTheBits : Prop :=
  (∀ (t : BitVec 7) (i : Nat), i ≤ 6 → (rev7 t).getLsbD i = t.getLsbD (6 - i)) ∧ ∀ t : BitVec 7, rev7 (rev7 t) = t

/-- 30_encoding R71: tuning bit i lands in word bit 10-i, matching bit i in word bit i, detune in word bit 11. -/
def Obligations.EncodePlacesEveryBit : Prop :=
  ∀ (tuning matching : Byte) (detune : Bool),
    (∀ j, j ≤ 6 → (encodeChannel tuning matching detune).getLsbD (4 + j) = tuning.getLsbD (6 - j)) ∧
    (∀ j, j ≤ 3 → (encodeChannel tuning matching detune).getLsbD j = matching.getLsbD j) ∧
    (encodeChannel tuning matching detune).getLsbD 11 = detune

/-- 40_codec R106: decode of encode is the masked configuration; for an in-range one it is the configuration. -/
def Obligations.DecodeChannelOfEncode : Prop :=
  ∀ x : Cell, decodeChannel (encodeCell x) =
    { tuning := x.tuning &&& 0x7F#8, matching := x.matching &&& 0x0F#8, detune := x.detune }

/-- 40_codec R107, R108: encode is injective on the in-range configurations, encode of decode is the word, and decode
is in range (R104). -/
def Obligations.EncodeChannelIsBijective : Prop :=
  (∀ x y : Cell, x.tuning.toNat ≤ 127 → x.matching.toNat ≤ 15 → y.tuning.toNat ≤ 127 → y.matching.toNat ≤ 15 →
    encodeCell x = encodeCell y → x = y) ∧
  ∀ w : ChannelWord, encodeCell (decodeChannel w) = w ∧
    (decodeChannel w).tuning.toNat ≤ 127 ∧ (decodeChannel w).matching.toNat ≤ 15

/-- 40_codec R102: ENCODE completes wherever the block accepts, answers OK with the channel word, and changes
nothing but `last_status` and the response. -/
def Obligations.EncodeCompletes : Prop :=
  ∀ (s : State) (x : Cfg24), Accepts s →
    exec (.encode x) s = .next { s with
      lastStatus := .ok
      response := responseWord .ok
        (BitVec.setWidth 24 (encodeChannel x.tuning x.matching (x.detuneFlag.getLsbD 0)))
      trace := .response (responseWord .ok
        (BitVec.setWidth 24 (encodeChannel x.tuning x.matching (x.detuneFlag.getLsbD 0)))) ::
        .accept (.encode x) :: s.trace }

/-- 40_codec R105: DECODE completes wherever the block accepts, answers OK with `(d << 16) | (m << 8) | t` of
C[11:0], and changes nothing but `last_status` and the response. -/
def Obligations.DecodeCompletes : Prop :=
  ∀ (s : State) (c : BitVec 24), Accepts s → ∃ data : Payload,
    data.toNat = (decodeChannel (BitVec.ofNat 12 c.toNat)).detune.toNat * 2 ^ 16 +
      (decodeChannel (BitVec.ofNat 12 c.toNat)).matching.toNat * 2 ^ 8 +
      (decodeChannel (BitVec.ofNat 12 c.toNat)).tuning.toNat ∧
    exec (.decode c) s = .next { s with
      lastStatus := .ok
      response := responseWord .ok data
      trace := .response (responseWord .ok data) :: .accept (.decode c) :: s.trace }

/-! ### Cache -/

/-- 41_cache R120: LOADCFG completes wherever the block accepts. In range it writes the one cell, all three fields,
and answers OK; else it answers IndexOutOfRange. Nothing else changes. -/
def Obligations.LoadcfgCompletes : Prop :=
  ∀ (s : State) (p : PresetIndex) (c : Byte) (x : Cfg24), Accepts s →
    (p.toNat < s.cfg.maxPresets ∧ c.toNat < s.cfg.channels →
      exec (.loadcfg p c x) s = .next { s with
        matrix := storeWrite zeroCell (p.toNat * s.cfg.channels + c.toNat)
          { tuning := x.tuning, matching := x.matching, detune := x.detuneFlag.getLsbD 0 } s.matrix
        lastStatus := .ok
        response := responseWord .ok 0#24
        trace := .response (responseWord .ok 0#24) :: .accept (.loadcfg p c x) :: s.trace }) ∧
    (¬ (p.toNat < s.cfg.maxPresets ∧ c.toNat < s.cfg.channels) →
      exec (.loadcfg p c x) s = .next { s with
        lastStatus := .indexOutOfRange
        response := responseWord .indexOutOfRange 0#24
        trace := .response (responseWord .indexOutOfRange 0#24) :: .accept (.loadcfg p c x) :: s.trace })

/-- 10_state R11, 41_cache R120: after a successful LOADCFG M[p][c] is the configuration and every other cell is as
before. -/
def Obligations.LoadcfgWritesOneCell : Prop :=
  ∀ (s : State) (p : PresetIndex) (c : Byte) (x : Cfg24), Accepts s → storeWf zeroCell s.matrix = true →
    p.toNat < s.cfg.maxPresets → c.toNat < s.cfg.channels →
    ∃ t, exec (.loadcfg p c x) s = .next t ∧
      matrixCell s.cfg t.matrix p.toNat c.toNat =
        { tuning := x.tuning, matching := x.matching, detune := x.detuneFlag.getLsbD 0 } ∧
      ∀ p' c', c' < s.cfg.channels → ¬ (p' = p.toNat ∧ c' = c.toNat) →
        matrixCell s.cfg t.matrix p' c' = matrixCell s.cfg s.matrix p' c'

/-- 41_cache R123: a count below 1 or above MAX_PRESETS answers ConfigError; PC, the bounds, M and everything else
are exactly as before. -/
def Obligations.PrecomputeValidatesFirst : Prop :=
  ∀ (s : State) (n : PresetIndex), Accepts s → n.toNat < 1 ∨ s.cfg.maxPresets < n.toNat →
    exec (.precompute n) s = .next { s with
      lastStatus := .configError
      response := responseWord .configError 0#24
      trace := .response (responseWord .configError 0#24) :: .accept (.precompute n) :: s.trace }

/-- 41_cache R124: a legal count with `alloc_ok` false empties the cache and answers ResourceError; M and PC are
unchanged. With the fixed arena no step ever produces that status. That the resource check is a step of its own is the
model's (LOG 32). -/
def Obligations.PrecomputeResourceError : Prop :=
  (∀ (s : State) (n : PresetIndex), Undisturbed s → BlockIdle s → 1 ≤ n.toNat → n.toNat ≤ s.cfg.maxPresets →
    allocOk s = false →
    ∃ t u, exec (.precompute n) s = .next t ∧ runs 1 t u ∧
      u = { s with
        allocAnswers := u.allocAnswers
        draws := u.draws
        cachedPresets := 0
        cachedDevices := 0
        lastStatus := .resourceError
        response := responseWord .resourceError 0#24
        trace := .response (responseWord .resourceError 0#24) :: .accept (.precompute n) :: s.trace }) ∧
  ∀ s t : State, s.cfg.fixedArena = true → s.lastStatus ≠ .resourceError → step s = .next t →
    t.lastStatus ≠ .resourceError

/-- 41_cache R125: PRECOMPUTE completes. With a legal count it is accepted wherever the block accepts; with `alloc_ok`
true, two steps later, every cell inside the new bounds is rebuilt from M, the bounds are set and the answer is OK; M is
read and not written, and no bus operation is issued. That the resource check and the derivation are one step each is
the model's (LOG 32). -/
def Obligations.PrecomputeRebuildsInFull : Prop :=
  (∀ (s : State) (n : PresetIndex), Accepts s → 1 ≤ n.toNat → n.toNat ≤ s.cfg.maxPresets →
    exec (.precompute n) s = .next { s with
      busy := true
      precompute := .resource n
      trace := .accept (.precompute n) :: s.trace }) ∧
  ∀ (s : State) (n : PresetIndex), Undisturbed s → BlockIdle s → storeWf 0#24 s.arena = true → 1 ≤ n.toNat →
    n.toNat ≤ s.cfg.maxPresets → allocOk s = true →
    ∃ t u, exec (.precompute n) s = .next t ∧ runs 2 t u ∧
      (∀ p d, p < n.toNat → d < s.cfg.deviceCount → arenaCell u p d = payloadOf s.cfg s.matrix p d) ∧
      u = { s with
        arena := u.arena
        cachedPresets := n.toNat
        cachedDevices := s.cfg.deviceCount
        allocAnswers := u.allocAnswers
        draws := u.draws
        lastStatus := .ok
        response := responseWord .ok 0#24
        trace := .response (responseWord .ok 0#24) :: .accept (.precompute n) :: s.trace }

/-- 41_cache R121, R122, 30_encoding R72: the low 12 bits of a payload are the channel word of slot A's cell, the high
12 bits that of slot B's, 0 where a slot is unmapped. -/
def Obligations.PayloadHasTheTwoSlots : Prop :=
  ∀ (cfg : Config) (m : Store Cell) (p d : Nat) (r : DeviceRow), cfg.deviceMap[d]? = some r →
    (payloadOf cfg m p d).toNat =
      (match r.slotB with
        | some c => (encodeCell (matrixCell cfg m p c)).toNat
        | none   => 0) * 2 ^ 12 +
      (match r.slotA with
        | some c => (encodeCell (matrixCell cfg m p c)).toNat
        | none   => 0)

/-- 41_cache R122: a payload depends on the cells of the mapped channels of its preset only: not on other presets,
other devices, `kind`, `bus` or `addr`. -/
def Obligations.PayloadDependsOnMappedCellsOnly : Prop :=
  ∀ (cfg cfg' : Config) (m m' : Store Cell) (p d : Nat) (r r' : DeviceRow),
    cfg.deviceMap[d]? = some r → cfg'.deviceMap[d]? = some r' → r'.slotA = r.slotA → r'.slotB = r.slotB →
    (∀ c, r.slotA = some c ∨ r.slotB = some c → matrixCell cfg m p c = matrixCell cfg' m' p c) →
    payloadOf cfg m p d = payloadOf cfg' m' p d

/-- 41_cache R127: GET completes wherever the block accepts: the cached payload inside the bounds, NotFound when the
cache is empty or an index is at or past its bound; nothing but `last_status` and the response changes. -/
def Obligations.GetCompletes : Prop :=
  ∀ (s : State) (p : PresetIndex) (d : Byte), Accepts s →
    (p.toNat < s.cachedPresets ∧ d.toNat < s.cachedDevices →
      exec (.get p d) s = .next { s with
        lastStatus := .ok
        response := responseWord .ok (arenaCell s p.toNat d.toNat)
        trace := .response (responseWord .ok (arenaCell s p.toNat d.toNat)) :: .accept (.get p d) :: s.trace }) ∧
    (s.cachedPresets = 0 ∨ s.cachedPresets ≤ p.toNat ∨ s.cachedDevices ≤ d.toNat →
      exec (.get p d) s = .next { s with
        lastStatus := .notFound
        response := responseWord .notFound 0#24
        trace := .response (responseWord .notFound 0#24) :: .accept (.get p d) :: s.trace })

/-- 41_cache R132: with {5, 2, 0} in M[0][0], after a successful PRECOMPUTE the payload of the TX device for preset 0
is 0x000502, under every well-formed mapping. The two steps of the PRECOMPUTE are the model's (LOG 32). -/
def Obligations.TxPayloadEndToEnd : Prop :=
  ∀ (s : State) (n : PresetIndex), Undisturbed s → BlockIdle s → storeWf 0#24 s.arena = true → 1 ≤ n.toNat →
    n.toNat ≤ s.cfg.maxPresets → allocOk s = true →
    matrixCell s.cfg s.matrix 0 0 = { tuning := 5#8, matching := 2#8, detune := false } →
    ∃ t u w, exec (.precompute n) s = .next t ∧ runs 2 t u ∧
      exec (.get 0#16 (BitVec.ofNat 8 s.cfg.txDeviceIndex)) u = .next w ∧
      w.lastStatus = .ok ∧ w.response = 0x00000502#32

/-- 10_state R15, 41_cache R128: the cache is all-or-nothing. If it holds the payloads of a matrix content `m`, then
after any step it still holds those of `m`, or, after the derivation of a PRECOMPUTE, those of the matrix as it stood;
and while a PRECOMPUTE runs no step changes the matrix, so that is the matrix the PRECOMPUTE was accepted with. -/
def Obligations.CacheIsAllOrNothing : Prop :=
  (∀ (s t : State) (m : Store Cell), storeWf 0#24 s.arena = true → CacheOf m s → step s = .next t →
    CacheOf m t ∨ ((∃ n, s.precompute = .derive n) ∧ CacheOf s.matrix t)) ∧
  ∀ s t : State, s.precompute ≠ .idle → step s = .next t → t.matrix = s.matrix

/-! ### Sequencer -/

/-- 42_sequencer R150, R153: APPLY with an empty cache answers NotReady, with an index at or past the cached count
IndexOutOfRange, the empty test first; no collaborator is called and nothing but `last_status` and the response
changes. -/
def Obligations.ApplyEntryErrors : Prop :=
  ∀ (s : State) (p : PresetIndex), Accepts s →
    (s.cachedPresets = 0 →
      exec (.apply p) s = .next { s with
        lastStatus := .notReady
        response := responseWord .notReady 0#24
        trace := .response (responseWord .notReady 0#24) :: .accept (.apply p) :: s.trace }) ∧
    (s.cachedPresets ≠ 0 → s.cachedPresets ≤ p.toNat →
      exec (.apply p) s = .next { s with
        lastStatus := .indexOutOfRange
        response := responseWord .indexOutOfRange 0#24
        trace := .response (responseWord .indexOutOfRange 0#24) :: .accept (.apply p) :: s.trace })

/-- 42_sequencer R151 (its first line) and R159 (the first row of its table): an APPLY whose checks pass is accepted
and stands at (SELECT, 0) with `seq_preset = p`; `busy` stays 1. The walk that follows is `ApplyWalkCompletes`. -/
def Obligations.ApplyBeginsTheWalk : Prop :=
  ∀ (s : State) (p : PresetIndex), Accepts s → p.toNat < s.cachedPresets →
    exec (.apply p) s = .next { s with
      busy := true
      seqState := .select
      devIdx := 0
      seqPreset := p
      trace := .accept (.apply p) :: s.trace }

/-- 42_sequencer R151, R152, R154, R155: APPLY completes. From any state in which the block accepts and the index is
cached, whatever the collaborators answer to each device, APPLY starts and its walk ends after one step for each call:
the status is OK, the bus trace is that of R154 with the three bytes of 30_encoding R74 and 20_memory R51,
OUT[d] is the cached payload where both calls of d answered ok and is unchanged elsewhere, and nothing else changes but
the sequencer's position and the selected bus. -/
def Obligations.ApplyWalkCompletes : Prop :=
  (∀ b0 b1 b2 : Byte, bytes3 .le (b2 ++ b1 ++ b0 : BitVec 24) = [b0, b1, b2] ∧
    bytes3 .be (b2 ++ b1 ++ b0 : BitVec 24) = [b2, b1, b0]) ∧
  ∀ (s : State) (p : PresetIndex) (script : List DeviceAnswers) (rest : List BusAnswer),
    Undisturbed s → BlockIdle s → storeWf 0#24 s.out = true → p.toNat < s.cachedPresets →
    script.length = s.cfg.deviceCount → s.busAnswers = answerList script ++ rest →
    ∃ t u, exec (.apply p) s = .next t ∧ runs (answerList script).length t u ∧
      (∀ (d : Nat) (a : DeviceAnswers), script[d]? = some a →
        outCell u d = if a.select && a.write then arenaCell s p.toNat d else outCell s d) ∧
      (∀ d, s.cfg.deviceCount ≤ d → outCell u d = outCell s d) ∧
      u = { s with
        lastStatus := .ok
        response := responseWord .ok 0#24
        seqPreset := p
        devIdx := s.cfg.deviceCount
        selectedBus := u.selectedBus
        out := u.out
        busAnswers := rest
        trace := .response (responseWord .ok 0#24) ::
          ((walkTrace s.cfg (arenaCell s p.toNat) 0 s.cfg.deviceMap script).reverse ++
            .accept (.apply p) :: s.trace) }

/-- 42_sequencer R159, the table of transitions of (`seq_state`, `dev_idx`) from SELECT and WRITE, with the routing of
10_state R28. -/
def Obligations.SequencerTransitions : Prop :=
  ∀ (s : State) (r : DeviceRow), OwnTurn s → s.cfg.deviceMap[s.devIdx]? = some r →
    (s.seqState = .select → nextBusAnswer s = .ok →
      ∃ t, step s = .next t ∧ t.seqState = .write ∧ t.devIdx = s.devIdx ∧ t.selectedBus = some r.bus) ∧
    (s.seqState = .select → nextBusAnswer s = .fail → s.devIdx + 1 < s.cfg.deviceCount →
      ∃ t, step s = .next t ∧ t.seqState = .select ∧ t.devIdx = s.devIdx + 1 ∧ t.selectedBus = none ∧
        t.out = s.out) ∧
    (s.seqState = .select → nextBusAnswer s = .fail → s.devIdx + 1 = s.cfg.deviceCount →
      ∃ t, step s = .next t ∧ t.seqState = .idle ∧ t.devIdx = s.cfg.deviceCount ∧ t.lastStatus = .ok ∧
        t.busy = false ∧ t.selectedBus = none ∧ t.out = s.out) ∧
    (s.seqState = .write → nextBusAnswer s ≠ .noAnswer → s.devIdx + 1 < s.cfg.deviceCount →
      ∃ t, step s = .next t ∧ t.seqState = .select ∧ t.devIdx = s.devIdx + 1) ∧
    (s.seqState = .write → nextBusAnswer s ≠ .noAnswer → s.devIdx + 1 = s.cfg.deviceCount →
      ∃ t, step s = .next t ∧ t.seqState = .idle ∧ t.devIdx = s.cfg.deviceCount ∧ t.lastStatus = .ok ∧
        t.busy = false)

/-- 10_state R29: a `writeRegister` that answers ok on the selected sub-bus sets OUT of the device served to the cached
payload and leaves every other device; one that answers fail leaves every OUT as it was. -/
def Obligations.WriteSetsTheOutputRegister : Prop :=
  ∀ (s : State) (r : DeviceRow), OwnTurn s → s.cfg.deviceMap[s.devIdx]? = some r → s.seqState = .write →
    storeWf 0#24 s.out = true →
    (nextBusAnswer s = .ok → s.selectedBus = some r.bus →
      ∃ t, step s = .next t ∧ outCell t s.devIdx = arenaCell s s.seqPreset.toNat s.devIdx ∧
        ∀ d, d ≠ s.devIdx → outCell t d = outCell s d) ∧
    (nextBusAnswer s = .fail → ∃ t, step s = .next t ∧ t.out = s.out)

/-- 70_reset_and_hazards R295: while a call does not answer, the walk stands where it is and the block stays busy. That
such a call has changed neither `selected_bus` nor OUT, and that it leaves no event, is the model's (LOG 34). -/
def Obligations.UnansweredCallHoldsTheBlock : Prop :=
  ∀ (s : State) (r : DeviceRow) (rest : List BusAnswer), OwnTurn s → s.cfg.deviceMap[s.devIdx]? = some r →
    s.seqState ≠ .idle → s.busAnswers = .noAnswer :: rest →
    step s = .next { s with inputs := s.inputs.tail, busAnswers := rest }

/-- 10_state R20: the position never goes back and never skips a device: a step of a walk keeps it and goes on with
the same device, or advances it by exactly 1 and selects the next device, or ends at DEVICE_COUNT with status OK. -/
def Obligations.SequencerPositionAdvances : Prop :=
  ∀ s t : State, Inv s → s.seqState ≠ .idle → step s = .next t →
    (t.devIdx = s.devIdx ∧ t.seqState ≠ .idle) ∨
    (t.devIdx = s.devIdx + 1 ∧ t.devIdx < t.cfg.deviceCount ∧ t.seqState = .select) ∨
    (t.devIdx = s.devIdx + 1 ∧ t.devIdx = t.cfg.deviceCount ∧ t.seqState = .idle ∧ t.lastStatus = .ok)

/-- 10_state R18, 93 U16, 70_reset_and_hazards R285: an operation of the block issued while busy, or from interrupt
context, is refused. The refusal is the treatment 93 names. -/
def Obligations.OverlappingOperationIsRefused : Prop :=
  ∀ (s : State) (i : Instr), (∃ cw, encode i = .command cw) →
    (s.context = .interrupt → exec i s = .refused .interruptContext) ∧
    (s.context = .loop → s.busy = true → exec i s = .refused .blockBusy)

/-! ### Command channel -/

/-- 43_command_channel R182, R190: a notification of a valid message of legal length: the copy in PB, then
`status <- 2`, then the host notified, then the flag, then the barrier. `magic`, `cmd`, `len` and the payload in the
shared region stay as they were, and nothing else changes but a suspended loop, which wakes. That the trace shows the
bytes of the copy read from the lowest index on is the model's (LOG 33). -/
def Obligations.NotifyTakesTheMessage : Prop :=
  ∀ (s : State) (rest : List Input), s.cfg.wf = true → s.context = .loop → s.mailbox.wf = true →
    s.pb.payload.wf = true → s.inputs = .notify :: rest →
    mailField s .magic = s.cfg.magic → mailField s .status = 1#32 → (mailField s .len).toNat ≤ 512 →
    ∃ t, step s = .next t ∧
      t.pb.cmd = mailField s .cmd ∧ t.pb.len = mailField s .len ∧
      (∀ i, i < (mailField s .len).toNat → t.pb.payload.read i = mailPayload s i) ∧
      mailField t .status = 2#32 ∧ mailField t .magic = mailField s .magic ∧ mailField t .cmd = mailField s .cmd ∧
      mailField t .len = mailField s .len ∧ (∀ i, mailPayload t i = mailPayload s i) ∧
      t = { s with
        inputs := rest
        mailbox := t.mailbox
        pb := t.pb
        mailboxMessagePending := true
        loopPos := wakePos s.loopPos
        trace := .barrier :: .notifyPeer :: .memWrite 12 4 2#32 ::
          (((List.range (mailField s .len).toNat).map (fun i => .memRead (16 + i) 1)).reverse ++
            .memRead 8 4 :: .memRead 4 4 :: .memRead 12 4 :: .memRead 0 4 :: s.trace) }

/-- 43_command_channel R189, 30_encoding R88: a valid message with `len > 512` has no meaning and is refused. -/
def Obligations.OverlongMessageIsRefused : Prop :=
  ∀ (s : State) (rest : List Input), s.cfg.wf = true → s.inputs = .notify :: rest →
    mailField s .magic = s.cfg.magic → mailField s .status = 1#32 → 512 < (mailField s .len).toNat →
    step s = .refused .mailboxLengthOver512

/-- 43_command_channel R183: PROBE completes in every state. One register read, three bytes to the host: PROBE_RESPONSE
of the status byte where the read succeeded. No flag is set, PB, M, the cache and every OUT are as before, and the
mailbox changes only where the parameter PROBE_RESPONSE puts something. What the read does to the routing is free
(LOG 14); that a response goes out after a failed read too is the model's (LOG 13). -/
def Obligations.ProbeCompletes : Prop :=
  ∀ s : State, ∃ t b0 b1 b2 sent,
    exec .probe s = .next t ∧
    (∀ v, nextMuxRead s = some v → (b0, b1, b2) = probeResponse s.cfg (Config.muxStatusByte v)) ∧
    (∀ o ∈ sent, o = .notifyPeer ∨ (∃ f v, o = .memWrite (fieldOffset f) 4 v) ∨
      ∃ i v, o = .memWrite (mailboxHeaderBytes + i) 1 v) ∧
    (∀ a, (∀ i, s.cfg.probeReturn.payloadAt = some i →
          a < mailboxAddr s.cfg (16 + i) ∨ mailboxAddr s.cfg (16 + i) + 3 ≤ a) →
        (s.cfg.probeReturn.len ≠ none → a < mailboxAddr s.cfg 8 ∨ mailboxAddr s.cfg 8 + 4 ≤ a) →
        (s.cfg.probeReturn.status ≠ none → a < mailboxAddr s.cfg 12 ∨ mailboxAddr s.cfg 12 + 4 ≤ a) →
      t.mailbox.read a = s.mailbox.read a) ∧
    t = { s with
      context := .loop
      loopPos := wakePos s.loopPos
      mailbox := t.mailbox
      selectedBus := t.selectedBus
      muxReads := s.muxReads.tail
      draws := t.draws
      trace := .barrier :: (sent ++ .probeResponse b0 b1 b2 ::
        .readRegister16 s.cfg.muxAddr s.cfg.muxStatusReg (nextMuxRead s) :: s.trace) }

/-- 43_command_channel R186: PRESET_SELECT completes in every state: with `len ≥ 1` the pending preset is payload byte 0
and both flags are set; with `len = 0` it is ignored. Nothing else changes. -/
def Obligations.PresetSelectCompletes : Prop :=
  ∀ s : State,
    (1 ≤ s.pb.len.toNat → exec .presetSelect s = .next { s with
      pendingPreset := s.pb.payload.read 0
      presetChangeRequested := true
      pulseRequested := true }) ∧
    (s.pb.len.toNat = 0 → exec .presetSelect s = .next s)

/-- 43_command_channel R187: TEST_SEQUENCE_START completes in every state: it starts the sequence when none is active
and is a no-op when one is. -/
def Obligations.TestSequenceStartCompletes : Prop :=
  ∀ s : State,
    (s.testSequenceActive = false → exec .testSequenceStart s = .next { s with
      scanCount := 0#8
      scanTarget := s.cfg.scanTarget
      testSequenceActive := true }) ∧
    (s.testSequenceActive = true → exec .testSequenceStart s = .next s)

/-- 43_command_channel R185: BULK_UPDATE completes. It starts in every state; in an undisturbed machine whose
`alloc_ok` is true its groups take one step each and its PRECOMPUTE three, after which group g's cell holds the group's
configuration, every other cell is as before, groups past the matrix are ignored, the cache is that of the updated
matrix for ACTIVE_PRESETS presets, and the loop stands before the clearing of the flag. No bus operation is issued. -/
def Obligations.BulkUpdateCompletes : Prop :=
  (∀ s : State, exec .bulkUpdate s = .next { s with loopPos := .bulkGroup 0 (s.pb.len.toNat / 3) }) ∧
  ∀ s : State, Undisturbed s → BlockIdle s → allocOk s = true → storeWf zeroCell s.matrix = true →
    storeWf 0#24 s.arena = true →
    ∃ t u ops, exec .bulkUpdate s = .next t ∧ runs (s.pb.len.toNat / 3 + 3) t u ∧
      (∀ p c, p < s.cfg.maxPresets → c < s.cfg.channels →
        matrixCell s.cfg u.matrix p c =
          if p * s.cfg.channels + c < s.pb.len.toNat / 3 then
            { tuning := s.pb.payload.read (3 * (p * s.cfg.channels + c))
              matching := s.pb.payload.read (3 * (p * s.cfg.channels + c) + 1)
              detune := (s.pb.payload.read (3 * (p * s.cfg.channels + c) + 2)).getLsbD 0 }
          else matrixCell s.cfg s.matrix p c) ∧
      CacheOf u.matrix u ∧
      (∀ o ∈ ops, (∃ i, o = .accept i) ∨ ∃ rw, o = .response rw) ∧
      u = { s with
        matrix := u.matrix
        arena := u.arena
        cachedPresets := s.cfg.activePresets
        cachedDevices := s.cfg.deviceCount
        allocAnswers := u.allocAnswers
        draws := u.draws
        lastStatus := .ok
        response := responseWord .ok 0#24
        loopPos := .mailClear
        trace := ops ++ s.trace }

/-- 43_command_channel R185: each round of the bulk update reads its group from PB as PB stands at that round, and
issues the LOADCFG of `(g div CHANNELS, g mod CHANNELS)`; a group past the matrix is ignored; after the last group the
PRECOMPUTE of ACTIVE_PRESETS. So a message that arrives between two rounds is read by the later ones (LOG 11). -/
def Obligations.BulkUpdateRound : Prop :=
  ∀ (s : State) (g groups : Nat), LoopTurn s → s.loopPos = .bulkGroup g groups →
    (g < groups → g / s.cfg.channels < s.cfg.maxPresets →
      step s = exec (.loadcfg (BitVec.ofNat 16 (g / s.cfg.channels)) (BitVec.ofNat 8 (g % s.cfg.channels))
          { tuning := s.pb.payload.read (3 * g)
            matching := s.pb.payload.read (3 * g + 1)
            detuneFlag := s.pb.payload.read (3 * g + 2) })
        { s with inputs := s.inputs.tail, loopPos := .bulkGroup (g + 1) groups }) ∧
    (g < groups → s.cfg.maxPresets ≤ g / s.cfg.channels →
      step s = .next { s with inputs := s.inputs.tail, loopPos := .bulkGroup (g + 1) groups }) ∧
    (groups ≤ g → step s = exec (.precompute (BitVec.ofNat 16 s.cfg.activePresets))
      { s with inputs := s.inputs.tail, loopPos := .mailClear })

/-- 43_command_channel R188: an unrecognised `cmd` does nothing at dispatch; the next step clears the flag. That these
are two steps is the model's (LOG 5). -/
def Obligations.UnrecognisedCmdDoesNothing : Prop :=
  ∀ s : State, Undisturbed s → BlockIdle s → s.loopPos = .dispatch → s.pb.cmd ≠ 2#32 → s.pb.cmd ≠ 3#32 →
    s.pb.cmd ≠ 4#32 → runs 2 s { s with loopPos := .endTest, mailboxMessagePending := false }

/-- 20_memory R52, 30_encoding R78: a 4-byte field the host stores reads back in the mailbox byte order; the other
fields, the payload and everything outside the mailbox are as before. -/
def Obligations.HostFieldReadsBack : Prop :=
  ∀ (s : State) (f : MailField) (v : Word32) (rest : List Input), s.cfg.wf = true → s.mailbox.wf = true →
    s.inputs = .hostField f v :: rest →
    ∃ t, step s = .next t ∧ mailField t f = v ∧ (∀ g, g ≠ f → mailField t g = mailField s g) ∧
      (∀ i, mailPayload t i = mailPayload s i) ∧
      (∀ i, i < 4 → t.mailbox.read (s.cfg.mailboxBase + fieldOffset f + i) =
        BitVec.ofNat 8 (v.toNat / 2 ^ (8 * (match s.cfg.mailboxByteOrder with
          | .le => i
          | .be => 3 - i)))) ∧
      t = { s with inputs := rest, mailbox := t.mailbox }

/-- 20_memory R44, R52: payload byte i is at offset 16 + i; a host store to index 512 or above addresses no byte of the
region and is a fault. -/
def Obligations.HostPayloadStore : Prop :=
  ∀ (s : State) (i : Nat) (b : Byte) (rest : List Input), s.cfg.wf = true → s.mailbox.wf = true →
    s.inputs = .hostPayload i b :: rest →
    (i < 512 → ∃ t, step s = .next t ∧ t.mailbox.read (s.cfg.mailboxBase + 16 + i) = b ∧
      (∀ a, a ≠ s.cfg.mailboxBase + 16 + i → t.mailbox.read a = s.mailbox.read a) ∧
      t = { s with inputs := rest, mailbox := t.mailbox }) ∧
    (512 ≤ i → step s = .fault .outsideMailbox)

/-! ### Control loop and interrupts -/

/-- 44_control_loop R212: item 2 of an undisturbed machine is exactly one high-then-low pulse with the hold between,
and clears its flag. -/
def Obligations.PulseItemDrivesOnePulse : Prop :=
  ∀ s : State, Undisturbed s → BlockIdle s → s.loopPos = .pulseTest → s.pulseRequested = true →
    runs 5 s { s with
      loopPos := .scanTest
      pulseRequested := false
      trigger := false
      trace := (pulseTrace s.cfg).reverse ++ s.trace }

/-- 44_control_loop R213: item 3 of an undisturbed machine is one scan step: ECHOES_PER_SCAN high-then-low strobe
pulses with their delays, the inter-scan delay, the count incremented; at the target the sequence ends and the target
is cleared, and the count is kept. -/
def Obligations.ScanItemRunsOneScanStep : Prop :=
  ∀ s : State, Undisturbed s → BlockIdle s → s.loopPos = .scanTest → s.testSequenceActive = true →
    s.strobe = false →
    runs (4 * s.cfg.echoesPerScan + 3) s { s with
      loopPos := .mailTest
      scanCount := s.scanCount + 1#8
      testSequenceActive := decide (s.scanCount + 1#8 < s.scanTarget)
      scanTarget := if s.scanCount + 1#8 < s.scanTarget then s.scanTarget else 0#8
      trace := .delay (.interScan s.cfg.interScanDelayMs) :: ((strobeTrace s.cfg s.cfg.echoesPerScan).reverse ++
        s.trace) }

/-- 44_control_loop R215: at the end of an iteration the loop suspends exactly when no flag is pending and no sequence
is active, and keeps all state; a suspended loop keeps all state. -/
def Obligations.LoopSuspendsWhenNothingIsPending : Prop :=
  ∀ s : State, LoopTurn s →
    (s.loopPos = .endTest →
      (s.presetChangeRequested = false ∧ s.pulseRequested = false ∧ s.mailboxMessagePending = false ∧
        s.testSequenceActive = false → step s = .next { s with inputs := s.inputs.tail, loopPos := .suspended }) ∧
      (¬ (s.presetChangeRequested = false ∧ s.pulseRequested = false ∧ s.mailboxMessagePending = false ∧
        s.testSequenceActive = false) → step s = .next { s with inputs := s.inputs.tail, loopPos := .top })) ∧
    (s.loopPos = .suspended → step s = .next { s with inputs := s.inputs.tail })

/-- 60_exceptions R268, 44_control_loop R215: every interrupt wakes a suspended loop, an invalid notification too. -/
def Obligations.EveryInterruptWakesTheLoop : Prop :=
  ∀ (s t : State) (e : Input) (rest : List Input), s.inputs = e :: rest → (e = .notify ∨ ∃ v, e = .edge v) →
    s.loopPos = .suspended → step s = .next t → t.loopPos = .top

/-- 44_control_loop R218: within an iteration the items follow each other in the fixed order: a step of the loop's own
stays in its item or goes to the next; only the test at the end goes back to item 1. -/
def Obligations.ItemsFollowTheFixedOrder : Prop :=
  ∀ s t : State, LoopTurn s → step s = .next t →
    itemOf t.loopPos = itemOf s.loopPos ∨ itemOf t.loopPos = itemOf s.loopPos + 1 ∨
      (s.loopPos = .endTest ∧ t.loopPos = .top)

/-- 44_control_loop R220: after a PRESET_SELECT has been dispatched, one iteration of an undisturbed machine makes
exactly one APPLY of the pending preset and exactly one high-then-low pulse, the pulse after the APPLY, clears both
flags and suspends. A pending preset past the cached count, or an empty cache, gives the APPLY's error status and the
same pulse (43_command_channel R186, 70_reset_and_hazards R283). The list of answers (LOG 3) and the count of steps
(LOG 5) are the model's. -/
def Obligations.PresetSelectIterationAppliesAndPulsesOnce : Prop :=
  ∀ s : State, Undisturbed s → BlockIdle s → s.loopPos = .top → s.commands = [] →
    s.presetChangeRequested = true → s.pulseRequested = true → s.mailboxMessagePending = false →
    s.testSequenceActive = false →
    (∀ (script : List DeviceAnswers) (rest : List BusAnswer), s.pendingPreset.toNat < s.cachedPresets →
      script.length = s.cfg.deviceCount → s.busAnswers = answerList script ++ rest →
      ∃ u, runs ((answerList script).length + 11) s u ∧ u.loopPos = .suspended ∧
        u.presetChangeRequested = false ∧ u.pulseRequested = false ∧ u.trigger = false ∧
        u.trace = (pulseTrace s.cfg).reverse ++ .response (responseWord .ok 0#24) ::
          ((walkTrace s.cfg (arenaCell s s.pendingPreset.toNat) 0 s.cfg.deviceMap script).reverse ++
            .accept (.apply (BitVec.setWidth 16 s.pendingPreset)) :: s.trace)) ∧
    (s.cachedPresets ≤ s.pendingPreset.toNat →
      ∃ u, runs 11 s u ∧ u.loopPos = .suspended ∧
        u.presetChangeRequested = false ∧ u.pulseRequested = false ∧ u.trigger = false ∧ u.out = s.out ∧
        u.trace = (pulseTrace s.cfg).reverse ++
          .response (responseWord (if s.cachedPresets = 0 then .notReady else .indexOutOfRange) 0#24) ::
            .accept (.apply (BitVec.setWidth 16 s.pendingPreset)) :: s.trace)

/-- 44_control_loop R216: the edge handler records the sampled value and sets its flags, raises the pulse flag only if
EDGE_RAISES_PULSE, and changes nothing else but the line it samples and a suspended loop. -/
def Obligations.EdgeRecordsTheRequest : Prop :=
  ∀ (s : State) (v : Byte) (rest : List Input), s.cfg.wf = true → s.context = .loop → s.inputs = .edge v :: rest →
    ∃ w : Byte, w.toNat = v.toNat % 2 ^ s.cfg.presetInputBits ∧
      step s = .next { s with
        inputs := rest
        presetInput := w
        pendingPreset := w
        presetChangeRequested := true
        pulseRequested := s.pulseRequested || s.cfg.edgeRaisesPulse
        loopPos := wakePos s.loopPos
        trace := .barrier :: .lineRead s.cfg.presetInputLine w :: s.trace }

/-- 70_reset_and_hazards R288: an edge that falls between the read of `pending_preset` and the clear is lost: the new
value stands in `pending_preset`, the flag is 0, and the APPLY is that of the old value. First the edge just before the
clear; then the edge inside the walk, before any bus call of any device, whatever the collaborators answer to the rest
of the walk: at WRITE of a device its `selectBus` has answered ok, so the first answer and the first event of the
device are past. The list of answers (LOG 3) and the count of steps (LOG 5) are the model's. -/
def Obligations.EdgeBeforeTheClearIsLost : Prop :=
  (∀ (s : State) (v : Byte) (rest : List Input), s.cfg.wf = true → s.context = .loop → BlockIdle s →
    s.loopPos = .presetClear → s.inputs = .edge v :: .machine :: rest →
    ∃ u, runs 2 s u ∧ u.pendingPreset = sampledValue s.cfg v ∧ u.presetChangeRequested = false ∧
      u.loopPos = .pulseTest ∧ u.inputs = rest) ∧
  ∀ (s : State) (v : Byte) (script : List DeviceAnswers) (rest : List BusAnswer) (past : Nat),
    s.cfg.wf = true → s.context = .loop → s.loopPos = .presetClear → s.precompute = .idle → s.inputs = [.edge v] →
    script ≠ [] → s.devIdx + script.length = s.cfg.deviceCount →
    ((s.seqState = .select ∧ past = 0) ∨
      (s.seqState = .write ∧ past = 1 ∧ script.head?.map DeviceAnswers.select = some true)) →
    s.busAnswers = (answerList script).drop past ++ rest →
    ∃ u, runs (((answerList script).drop past).length + 2) s u ∧ u.pendingPreset = sampledValue s.cfg v ∧
      u.presetChangeRequested = false ∧ u.loopPos = .pulseTest ∧ u.seqPreset = s.seqPreset ∧
      u.trace = .response (responseWord .ok 0#24) ::
        (((walkTrace s.cfg (arenaCell s s.seqPreset.toNat) s.devIdx (s.cfg.deviceMap.drop s.devIdx) script).drop
          past).reverse ++
          .barrier :: .lineRead s.cfg.presetInputLine (sampledValue s.cfg v) :: s.trace)

/-- 43_command_channel R191, 70_reset_and_hazards R288: a valid message that arrives between a dispatch and the clear
of its flag is copied over PB and then lost: the flag is 0 although PB holds it. -/
def Obligations.MessageBeforeTheClearIsLost : Prop :=
  ∀ (s : State) (rest : List Input), s.cfg.wf = true → s.context = .loop → BlockIdle s → s.loopPos = .mailClear →
    s.inputs = .notify :: .machine :: rest →
    mailField s .magic = s.cfg.magic → mailField s .status = 1#32 → (mailField s .len).toNat ≤ 512 →
    ∃ u, runs 2 s u ∧ u.pb.cmd = mailField s .cmd ∧ u.mailboxMessagePending = false ∧ u.loopPos = .endTest

/-- 60_exceptions R257: an edge and a notification, raised together, lead to the same state in both orders, but for the
order of their events in the trace: for a valid message of legal length and for an invalid one, which is probed. -/
def Obligations.InterruptOrderDoesNotMatter : Prop :=
  ∀ (s : State) (v : Byte) (rest : List Input), s.cfg.wf = true → s.context = .loop →
    (mailField s .magic = s.cfg.magic → mailField s .status = 1#32 → (mailField s .len).toNat ≤ 512) →
    ∃ u u', runs 2 { s with inputs := .edge v :: .notify :: rest } u ∧
      runs 2 { s with inputs := .notify :: .edge v :: rest } u' ∧ u' = { u with trace := u'.trace }

/-- 60_exceptions R259, R263, 70_reset_and_hazards R291: no interrupt handler writes a device, a cell, the cache, an
output line, the sequencer's position or the stage of a PRECOMPUTE, and none clears a flag; so one that falls
between two steps of an APPLY or of a PRECOMPUTE does not disturb it. -/
def Obligations.HandlersTouchNoDeviceAndNoCache : Prop :=
  ∀ (s t : State) (e : Input) (rest : List Input), s.inputs = e :: rest → (e = .notify ∨ ∃ v, e = .edge v) →
    step s = .next t →
    t.matrix = s.matrix ∧ t.arena = s.arena ∧ t.cachedPresets = s.cachedPresets ∧
    t.cachedDevices = s.cachedDevices ∧ t.out = s.out ∧ t.busy = s.busy ∧ t.seqState = s.seqState ∧
    t.devIdx = s.devIdx ∧ t.seqPreset = s.seqPreset ∧ t.precompute = s.precompute ∧
    t.lastStatus = s.lastStatus ∧ t.trigger = s.trigger ∧
    t.strobe = s.strobe ∧ t.scanCount = s.scanCount ∧ t.scanTarget = s.scanTarget ∧
    (s.presetChangeRequested = true → t.presetChangeRequested = true) ∧
    (s.pulseRequested = true → t.pulseRequested = true) ∧
    (s.mailboxMessagePending = true → t.mailboxMessagePending = true) ∧
    t.testSequenceActive = s.testSequenceActive ∧ t.context = .loop

/-! ### Rules of the whole machine -/

/-- 10_state R16, R31: the configuration, the mapping among it, is a constant: no step changes it. -/
def Obligations.ConfigurationIsConstant : Prop := ∀ s t : State, step s = .next t → t.cfg = s.cfg

/-- 10_state R10: M is written by LOADCFG (of a caller or of a bulk update) and by nothing else. -/
def Obligations.OnlyLoadcfgWritesTheMatrix : Prop :=
  ∀ s t : State, step s = .next t → t.matrix ≠ s.matrix → ∃ p c x u, nextAction s = .run (.loadcfg p c x) u

/-- 10_state R12, R13, R14: the arena and its bounds are written by the steps of a running PRECOMPUTE and by nothing
else. -/
def Obligations.OnlyPrecomputeWritesTheCache : Prop :=
  ∀ s t : State, step s = .next t →
    t.arena ≠ s.arena ∨ t.cachedPresets ≠ s.cachedPresets ∨ t.cachedDevices ≠ s.cachedDevices →
    OwnTurn s ∧ s.seqState = .idle ∧ s.precompute ≠ .idle

/-- 42_sequencer R151, R153, 60_exceptions R263: an output register changes only in the WRITE position of an APPLY's
walk, on the machine's own turn. -/
def Obligations.OutputsChangeOnlyInAWrite : Prop :=
  ∀ s t : State, step s = .next t → t.out ≠ s.out → s.seqState = .write ∧ OwnTurn s

/-- 10_state R17, 93 U21, 20_memory R53: a mapping that is not well-formed and a misaligned MAILBOX_BASE are refused.
The refusals are the treatment the spec names. -/
def Obligations.IllFormedConfigurationIsRefused : Prop :=
  ∀ s : State,
    (s.cfg.mappingOk = false → step s = .refused .illFormedMapping) ∧
    (s.cfg.mappingOk = true → s.cfg.mailboxBase % 4 ≠ 0 → step s = .refused .misalignedMailbox)

/-- 10_state R32: after reset the cache is empty, the block idle with status OK, the matrix zero, the flags and counters
0, the mailbox status EMPTY, the output lines low, the selected bus UNKNOWN, under every configuration. The zero of the
matrix is LOG 7's choice; that the block is idle holds of the model's own field `precompute` too (LOG 32). -/
def Obligations.ResetValues : Prop :=
  ∀ cfg : Config,
    (State.resetWith cfg).cfg = cfg ∧
    (State.resetWith cfg).cachedPresets = 0 ∧ (State.resetWith cfg).cachedDevices = 0 ∧
    (∀ p c, matrixCell cfg (State.resetWith cfg).matrix p c = { tuning := 0#8, matching := 0#8, detune := false }) ∧
    (State.resetWith cfg).busy = false ∧ (State.resetWith cfg).lastStatus = .ok ∧
    (State.resetWith cfg).seqState = .idle ∧ (State.resetWith cfg).devIdx = 0 ∧
    (State.resetWith cfg).seqPreset = 0#16 ∧ (State.resetWith cfg).precompute = .idle ∧
    (State.resetWith cfg).presetChangeRequested = false ∧ (State.resetWith cfg).pulseRequested = false ∧
    (State.resetWith cfg).mailboxMessagePending = false ∧ (State.resetWith cfg).testSequenceActive = false ∧
    (State.resetWith cfg).pendingPreset = 0#8 ∧ (State.resetWith cfg).scanCount = 0#8 ∧
    (State.resetWith cfg).scanTarget = 0#8 ∧ mailField (State.resetWith cfg) .status = 0#32 ∧
    (State.resetWith cfg).trigger = false ∧ (State.resetWith cfg).strobe = false ∧
    (State.resetWith cfg).selectedBus = none ∧ (State.resetWith cfg).context = .loop ∧
    (State.resetWith cfg).loopPos = .top

/-- 70_reset_and_hazards R281: under every well-formed configuration the first iteration after reset does nothing and
suspends. -/
def Obligations.FirstIterationSuspends : Prop :=
  ∀ cfg : Config, cfg.wf = true →
    runs 5 (State.resetWith cfg) { State.resetWith cfg with loopPos := .suspended }

/-- The invariant holds at reset under every well-formed configuration. -/
def Obligations.ResetSatisfiesTheInvariant : Prop := ∀ cfg : Config, cfg.wf = true → Inv (State.resetWith cfg)

/-- Every step keeps the invariant: the canonical form and the extent of every store (20_memory R40), the bounds of the
cache (10_state R13, R14), `busy` exactly during a walk or a PRECOMPUTE (R18), the position of the walk inside its
ranges (R20), the target of the sequence (R24), the length in PB (R26), the output lines high exactly where items 2 and
3 drive them (44_control_loop R212, R213). -/
def Obligations.EveryStepKeepsTheInvariant : Prop := ∀ s t : State, Inv s → step s = .next t → Inv t
end

