-- ==== Sys2Proof/Laws/Encoding.lean ====
section
/-! SUPPORT. The fields of a packed command word, and a command word from its fields (30_encoding R82). -/

namespace Sys2Proof

variable {op : BitVec 4} {a : BitVec 16} {b : Byte} {c : BitVec 24} {cw : CommandWord}

theorem not_decide_lt (i k : Nat) : (!decide (i < k)) = decide (k ≤ i) := by
  rw [Bool.eq_iff_iff]
  simp

/-- A packed word, bit by bit. -/
theorem getLsbD_packCommand {i : Nat} :
    (packCommand op a b c).getLsbD i =
      (decide (i < 64) && decide (60 ≤ i) && op.getLsbD (i - 60) ||
        decide (i < 64) && decide (32 ≤ i) && a.getLsbD (i - 32) ||
        decide (i < 64) && decide (24 ≤ i) && b.getLsbD (i - 24) || decide (i < 64) && c.getLsbD i) := by
  simp only [packCommand, BitVec.getLsbD_or, BitVec.getLsbD_shiftLeft, BitVec.getLsbD_setWidth]
  by_cases h : i < 64
  · have h1 : i - 60 < 64 := by omega
    have h2 : i - 32 < 64 := by omega
    have h3 : i - 24 < 64 := by omega
    simp [h, h1, h2, h3, not_decide_lt]
  · simp [h]

theorem opField_packCommand : opField (packCommand op a b c) = op := by
  apply BitVec.eq_of_getLsbD_eq
  intro i hi
  simp only [opField, BitVec.getLsbD_extractLsb', getLsbD_packCommand]
  have h1 : a.getLsbD (60 + i - 32) = false := BitVec.getLsbD_of_ge _ _ (by omega)
  have h2 : b.getLsbD (60 + i - 24) = false := BitVec.getLsbD_of_ge _ _ (by omega)
  have h3 : c.getLsbD (60 + i) = false := BitVec.getLsbD_of_ge _ _ (by omega)
  simp [hi, h1, h2, h3, show 60 + i < 64 by omega]

theorem rsvField_packCommand : rsvField (packCommand op a b c) = 0#12 := by
  apply BitVec.eq_of_getLsbD_eq
  intro i hi
  simp only [rsvField, BitVec.getLsbD_extractLsb', getLsbD_packCommand]
  have h1 : a.getLsbD (48 + i - 32) = false := BitVec.getLsbD_of_ge _ _ (by omega)
  have h2 : b.getLsbD (48 + i - 24) = false := BitVec.getLsbD_of_ge _ _ (by omega)
  have h3 : c.getLsbD (48 + i) = false := BitVec.getLsbD_of_ge _ _ (by omega)
  simp [h1, h2, h3, show ¬ 60 ≤ 48 + i by omega]

theorem fieldA_packCommand : fieldA (packCommand op a b c) = a := by
  apply BitVec.eq_of_getLsbD_eq
  intro i hi
  simp only [fieldA, BitVec.getLsbD_extractLsb', getLsbD_packCommand]
  have h2 : b.getLsbD (32 + i - 24) = false := BitVec.getLsbD_of_ge _ _ (by omega)
  have h3 : c.getLsbD (32 + i) = false := BitVec.getLsbD_of_ge _ _ (by omega)
  simp [hi, h2, h3, show ¬ 60 ≤ 32 + i by omega, show 32 + i < 64 by omega]

theorem fieldB_packCommand : fieldB (packCommand op a b c) = b := by
  apply BitVec.eq_of_getLsbD_eq
  intro i hi
  simp only [fieldB, BitVec.getLsbD_extractLsb', getLsbD_packCommand]
  simp [hi, show ¬ 60 ≤ 24 + i by omega, show ¬ 32 ≤ 24 + i by omega, show 24 + i < 64 by omega]

theorem fieldC_packCommand : fieldC (packCommand op a b c) = c := by
  apply BitVec.eq_of_getLsbD_eq
  intro i hi
  simp only [fieldC, BitVec.getLsbD_extractLsb', getLsbD_packCommand]
  simp [hi, show ¬ 60 ≤ i by omega, show ¬ 32 ≤ i by omega, show ¬ 24 ≤ i by omega, show i < 64 by omega]

/-- A word whose reserved bits are zero is its fields packed again. -/
theorem packCommand_fields (h : rsvField cw = 0#12) :
    packCommand (opField cw) (fieldA cw) (fieldB cw) (fieldC cw) = cw := by
  apply BitVec.eq_of_getLsbD_eq
  intro i hi
  have hr : ∀ j, j < 12 → cw.getLsbD (48 + j) = false := by
    intro j hj
    have := congrArg (fun x => x.getLsbD j) h
    simpa [rsvField, BitVec.getLsbD_extractLsb', hj] using this
  simp only [getLsbD_packCommand, opField, fieldA, fieldB, fieldC, BitVec.getLsbD_extractLsb']
  by_cases h24 : i < 24
  · simp [h24, show ¬ 60 ≤ i by omega, show ¬ 32 ≤ i by omega, show ¬ 24 ≤ i by omega, show i < 64 by omega]
  · by_cases h32 : i < 32
    · simp [h24, show ¬ 60 ≤ i by omega, show ¬ 32 ≤ i by omega, show 24 ≤ i by omega, hi, show i - 24 < 8 by omega,
        show 24 + (i - 24) = i by omega]
    · by_cases h48 : i < 48
      · simp [h24, show ¬ 60 ≤ i by omega, show 32 ≤ i by omega, hi, show i - 32 < 16 by omega,
          show ¬ i - 24 < 8 by omega, show 32 + (i - 32) = i by omega]
      · by_cases h60 : i < 60
        · have := hr (i - 48) (by omega)
          rw [show 48 + (i - 48) = i by omega] at this
          simp [h24, show ¬ 60 ≤ i by omega, show ¬ i - 32 < 16 by omega, show ¬ i - 24 < 8 by omega, this]
        · simp [h24, show 60 ≤ i by omega, hi, show i - 60 < 4 by omega, show ¬ i - 32 < 16 by omega,
            show ¬ i - 24 < 8 by omega, show 60 + (i - 60) = i by omega]

/-- `cfg24`, bit by bit (30_encoding R75). -/
theorem getLsbD_cfg24ToBits {x : Cfg24} {i : Nat} :
    (cfg24ToBits x).getLsbD i = (decide (i < 24) &&
      (decide (16 ≤ i) && x.detuneFlag.getLsbD (i - 16) || decide (8 ≤ i) && x.matching.getLsbD (i - 8) ||
        x.tuning.getLsbD i)) := by
  simp only [cfg24ToBits, BitVec.getLsbD_or, BitVec.getLsbD_shiftLeft, BitVec.getLsbD_setWidth]
  by_cases h : i < 24
  · simp [h, show i - 16 < 24 by omega, show i - 8 < 24 by omega, not_decide_lt]
  · simp [h]

theorem cfg24OfBits_cfg24ToBits {x : Cfg24} : cfg24OfBits (cfg24ToBits x) = x := by
  obtain ⟨t, m, d⟩ := x
  simp only [cfg24OfBits, Cfg24.mk.injEq]
  refine ⟨?_, ?_, ?_⟩ <;>
  · apply BitVec.eq_of_getLsbD_eq
    intro i hi
    simp only [BitVec.getLsbD_extractLsb', getLsbD_cfg24ToBits]
    interval_cases i <;> simp

theorem cfg24ToBits_cfg24OfBits {c : BitVec 24} : cfg24ToBits (cfg24OfBits c) = c := by
  apply BitVec.eq_of_getLsbD_eq
  intro i hi
  simp only [getLsbD_cfg24ToBits, cfg24OfBits, BitVec.getLsbD_extractLsb']
  interval_cases i <;> simp

end Sys2Proof
end

