-- ==== Sys2Proof/Laws/State.lean ====
section
/-! SUPPORT. One lemma for each field and each named update of the state, so that no proof unfolds an update. -/

namespace Sys2Proof.Machine

@[simp] theorem raise_eq (st : Status) (s : State) : raise st s = respond st 0#24 s := rfl

/-! ### observe -/

@[simp] theorem observe_matrix (o : Obs) (s : State) : (observe o s).matrix = s.matrix := rfl
@[simp] theorem observe_arena (o : Obs) (s : State) : (observe o s).arena = s.arena := rfl
@[simp] theorem observe_cachedPresets (o : Obs) (s : State) : (observe o s).cachedPresets = s.cachedPresets := rfl
@[simp] theorem observe_cachedDevices (o : Obs) (s : State) : (observe o s).cachedDevices = s.cachedDevices := rfl
@[simp] theorem observe_busy (o : Obs) (s : State) : (observe o s).busy = s.busy := rfl
@[simp] theorem observe_lastStatus (o : Obs) (s : State) : (observe o s).lastStatus = s.lastStatus := rfl
@[simp] theorem observe_seqState (o : Obs) (s : State) : (observe o s).seqState = s.seqState := rfl
@[simp] theorem observe_devIdx (o : Obs) (s : State) : (observe o s).devIdx = s.devIdx := rfl
@[simp] theorem observe_seqPreset (o : Obs) (s : State) : (observe o s).seqPreset = s.seqPreset := rfl
@[simp] theorem observe_precompute (o : Obs) (s : State) : (observe o s).precompute = s.precompute := rfl
@[simp] theorem observe_response (o : Obs) (s : State) : (observe o s).response = s.response := rfl
@[simp] theorem observe_commands (o : Obs) (s : State) : (observe o s).commands = s.commands := rfl
@[simp] theorem observe_presetChangeRequested (o : Obs) (s : State) :
    (observe o s).presetChangeRequested = s.presetChangeRequested := rfl
@[simp] theorem observe_pulseRequested (o : Obs) (s : State) : (observe o s).pulseRequested = s.pulseRequested := rfl
@[simp] theorem observe_mailboxMessagePending (o : Obs) (s : State) :
    (observe o s).mailboxMessagePending = s.mailboxMessagePending := rfl
@[simp] theorem observe_testSequenceActive (o : Obs) (s : State) :
    (observe o s).testSequenceActive = s.testSequenceActive := rfl
@[simp] theorem observe_pendingPreset (o : Obs) (s : State) : (observe o s).pendingPreset = s.pendingPreset := rfl
@[simp] theorem observe_scanCount (o : Obs) (s : State) : (observe o s).scanCount = s.scanCount := rfl
@[simp] theorem observe_scanTarget (o : Obs) (s : State) : (observe o s).scanTarget = s.scanTarget := rfl
@[simp] theorem observe_mailbox (o : Obs) (s : State) : (observe o s).mailbox = s.mailbox := rfl
@[simp] theorem observe_pb (o : Obs) (s : State) : (observe o s).pb = s.pb := rfl
@[simp] theorem observe_trigger (o : Obs) (s : State) : (observe o s).trigger = s.trigger := rfl
@[simp] theorem observe_strobe (o : Obs) (s : State) : (observe o s).strobe = s.strobe := rfl
@[simp] theorem observe_presetInput (o : Obs) (s : State) : (observe o s).presetInput = s.presetInput := rfl
@[simp] theorem observe_selectedBus (o : Obs) (s : State) : (observe o s).selectedBus = s.selectedBus := rfl
@[simp] theorem observe_out (o : Obs) (s : State) : (observe o s).out = s.out := rfl
@[simp] theorem observe_context (o : Obs) (s : State) : (observe o s).context = s.context := rfl
@[simp] theorem observe_loopPos (o : Obs) (s : State) : (observe o s).loopPos = s.loopPos := rfl
@[simp] theorem observe_cfg (o : Obs) (s : State) : (observe o s).cfg = s.cfg := rfl
@[simp] theorem observe_inputs (o : Obs) (s : State) : (observe o s).inputs = s.inputs := rfl
@[simp] theorem observe_busAnswers (o : Obs) (s : State) : (observe o s).busAnswers = s.busAnswers := rfl
@[simp] theorem observe_muxReads (o : Obs) (s : State) : (observe o s).muxReads = s.muxReads := rfl
@[simp] theorem observe_allocAnswers (o : Obs) (s : State) : (observe o s).allocAnswers = s.allocAnswers := rfl
@[simp] theorem observe_draws (o : Obs) (s : State) : (observe o s).draws = s.draws := rfl
@[simp] theorem observe_trace (o : Obs) (s : State) : (observe o s).trace = o :: s.trace := rfl

/-! ### accept -/

@[simp] theorem accept_matrix (i : Instr) (s : State) : (accept i s).matrix = s.matrix := rfl
@[simp] theorem accept_arena (i : Instr) (s : State) : (accept i s).arena = s.arena := rfl
@[simp] theorem accept_cachedPresets (i : Instr) (s : State) : (accept i s).cachedPresets = s.cachedPresets := rfl
@[simp] theorem accept_cachedDevices (i : Instr) (s : State) : (accept i s).cachedDevices = s.cachedDevices := rfl
@[simp] theorem accept_busy (i : Instr) (s : State) : (accept i s).busy = true := rfl
@[simp] theorem accept_lastStatus (i : Instr) (s : State) : (accept i s).lastStatus = s.lastStatus := rfl
@[simp] theorem accept_seqState (i : Instr) (s : State) : (accept i s).seqState = s.seqState := rfl
@[simp] theorem accept_devIdx (i : Instr) (s : State) : (accept i s).devIdx = s.devIdx := rfl
@[simp] theorem accept_seqPreset (i : Instr) (s : State) : (accept i s).seqPreset = s.seqPreset := rfl
@[simp] theorem accept_precompute (i : Instr) (s : State) : (accept i s).precompute = s.precompute := rfl
@[simp] theorem accept_response (i : Instr) (s : State) : (accept i s).response = s.response := rfl
@[simp] theorem accept_commands (i : Instr) (s : State) : (accept i s).commands = s.commands := rfl
@[simp] theorem accept_presetChangeRequested (i : Instr) (s : State) :
    (accept i s).presetChangeRequested = s.presetChangeRequested := rfl
@[simp] theorem accept_pulseRequested (i : Instr) (s : State) : (accept i s).pulseRequested = s.pulseRequested := rfl
@[simp] theorem accept_mailboxMessagePending (i : Instr) (s : State) :
    (accept i s).mailboxMessagePending = s.mailboxMessagePending := rfl
@[simp] theorem accept_testSequenceActive (i : Instr) (s : State) :
    (accept i s).testSequenceActive = s.testSequenceActive := rfl
@[simp] theorem accept_pendingPreset (i : Instr) (s : State) : (accept i s).pendingPreset = s.pendingPreset := rfl
@[simp] theorem accept_scanCount (i : Instr) (s : State) : (accept i s).scanCount = s.scanCount := rfl
@[simp] theorem accept_scanTarget (i : Instr) (s : State) : (accept i s).scanTarget = s.scanTarget := rfl
@[simp] theorem accept_mailbox (i : Instr) (s : State) : (accept i s).mailbox = s.mailbox := rfl
@[simp] theorem accept_pb (i : Instr) (s : State) : (accept i s).pb = s.pb := rfl
@[simp] theorem accept_trigger (i : Instr) (s : State) : (accept i s).trigger = s.trigger := rfl
@[simp] theorem accept_strobe (i : Instr) (s : State) : (accept i s).strobe = s.strobe := rfl
@[simp] theorem accept_presetInput (i : Instr) (s : State) : (accept i s).presetInput = s.presetInput := rfl
@[simp] theorem accept_selectedBus (i : Instr) (s : State) : (accept i s).selectedBus = s.selectedBus := rfl
@[simp] theorem accept_out (i : Instr) (s : State) : (accept i s).out = s.out := rfl
@[simp] theorem accept_context (i : Instr) (s : State) : (accept i s).context = s.context := rfl
@[simp] theorem accept_loopPos (i : Instr) (s : State) : (accept i s).loopPos = s.loopPos := rfl
@[simp] theorem accept_cfg (i : Instr) (s : State) : (accept i s).cfg = s.cfg := rfl
@[simp] theorem accept_inputs (i : Instr) (s : State) : (accept i s).inputs = s.inputs := rfl
@[simp] theorem accept_busAnswers (i : Instr) (s : State) : (accept i s).busAnswers = s.busAnswers := rfl
@[simp] theorem accept_muxReads (i : Instr) (s : State) : (accept i s).muxReads = s.muxReads := rfl
@[simp] theorem accept_allocAnswers (i : Instr) (s : State) : (accept i s).allocAnswers = s.allocAnswers := rfl
@[simp] theorem accept_draws (i : Instr) (s : State) : (accept i s).draws = s.draws := rfl
@[simp] theorem accept_trace (i : Instr) (s : State) : (accept i s).trace = .accept i :: s.trace := rfl

/-! ### respond -/

@[simp] theorem respond_matrix (st : Status) (p : Payload) (s : State) : (respond st p s).matrix = s.matrix := rfl
@[simp] theorem respond_arena (st : Status) (p : Payload) (s : State) : (respond st p s).arena = s.arena := rfl
@[simp] theorem respond_cachedPresets (st : Status) (p : Payload) (s : State) :
    (respond st p s).cachedPresets = s.cachedPresets := rfl
@[simp] theorem respond_cachedDevices (st : Status) (p : Payload) (s : State) :
    (respond st p s).cachedDevices = s.cachedDevices := rfl
@[simp] theorem respond_busy (st : Status) (p : Payload) (s : State) : (respond st p s).busy = false := rfl
@[simp] theorem respond_lastStatus (st : Status) (p : Payload) (s : State) : (respond st p s).lastStatus = st := rfl
@[simp] theorem respond_seqState (st : Status) (p : Payload) (s : State) :
    (respond st p s).seqState = s.seqState := rfl
@[simp] theorem respond_devIdx (st : Status) (p : Payload) (s : State) : (respond st p s).devIdx = s.devIdx := rfl
@[simp] theorem respond_seqPreset (st : Status) (p : Payload) (s : State) :
    (respond st p s).seqPreset = s.seqPreset := rfl
@[simp] theorem respond_precompute (st : Status) (p : Payload) (s : State) :
    (respond st p s).precompute = s.precompute := rfl
@[simp] theorem respond_response (st : Status) (p : Payload) (s : State) :
    (respond st p s).response = responseWord st p := rfl
@[simp] theorem respond_commands (st : Status) (p : Payload) (s : State) :
    (respond st p s).commands = s.commands := rfl
@[simp] theorem respond_presetChangeRequested (st : Status) (p : Payload) (s : State) :
    (respond st p s).presetChangeRequested = s.presetChangeRequested := rfl
@[simp] theorem respond_pulseRequested (st : Status) (p : Payload) (s : State) :
    (respond st p s).pulseRequested = s.pulseRequested := rfl
@[simp] theorem respond_mailboxMessagePending (st : Status) (p : Payload) (s : State) :
    (respond st p s).mailboxMessagePending = s.mailboxMessagePending := rfl
@[simp] theorem respond_testSequenceActive (st : Status) (p : Payload) (s : State) :
    (respond st p s).testSequenceActive = s.testSequenceActive := rfl
@[simp] theorem respond_pendingPreset (st : Status) (p : Payload) (s : State) :
    (respond st p s).pendingPreset = s.pendingPreset := rfl
@[simp] theorem respond_scanCount (st : Status) (p : Payload) (s : State) :
    (respond st p s).scanCount = s.scanCount := rfl
@[simp] theorem respond_scanTarget (st : Status) (p : Payload) (s : State) :
    (respond st p s).scanTarget = s.scanTarget := rfl
@[simp] theorem respond_mailbox (st : Status) (p : Payload) (s : State) : (respond st p s).mailbox = s.mailbox := rfl
@[simp] theorem respond_pb (st : Status) (p : Payload) (s : State) : (respond st p s).pb = s.pb := rfl
@[simp] theorem respond_trigger (st : Status) (p : Payload) (s : State) : (respond st p s).trigger = s.trigger := rfl
@[simp] theorem respond_strobe (st : Status) (p : Payload) (s : State) : (respond st p s).strobe = s.strobe := rfl
@[simp] theorem respond_presetInput (st : Status) (p : Payload) (s : State) :
    (respond st p s).presetInput = s.presetInput := rfl
@[simp] theorem respond_selectedBus (st : Status) (p : Payload) (s : State) :
    (respond st p s).selectedBus = s.selectedBus := rfl
@[simp] theorem respond_out (st : Status) (p : Payload) (s : State) : (respond st p s).out = s.out := rfl
@[simp] theorem respond_context (st : Status) (p : Payload) (s : State) : (respond st p s).context = s.context := rfl
@[simp] theorem respond_loopPos (st : Status) (p : Payload) (s : State) : (respond st p s).loopPos = s.loopPos := rfl
@[simp] theorem respond_cfg (st : Status) (p : Payload) (s : State) : (respond st p s).cfg = s.cfg := rfl
@[simp] theorem respond_inputs (st : Status) (p : Payload) (s : State) : (respond st p s).inputs = s.inputs := rfl
@[simp] theorem respond_busAnswers (st : Status) (p : Payload) (s : State) :
    (respond st p s).busAnswers = s.busAnswers := rfl
@[simp] theorem respond_muxReads (st : Status) (p : Payload) (s : State) :
    (respond st p s).muxReads = s.muxReads := rfl
@[simp] theorem respond_allocAnswers (st : Status) (p : Payload) (s : State) :
    (respond st p s).allocAnswers = s.allocAnswers := rfl
@[simp] theorem respond_draws (st : Status) (p : Payload) (s : State) : (respond st p s).draws = s.draws := rfl
@[simp] theorem respond_trace (st : Status) (p : Payload) (s : State) :
    (respond st p s).trace = .response (responseWord st p) :: s.trace := rfl

/-! ### takeInterrupt -/

@[simp] theorem takeInterrupt_matrix (s : State) : (takeInterrupt s).matrix = s.matrix := rfl
@[simp] theorem takeInterrupt_arena (s : State) : (takeInterrupt s).arena = s.arena := rfl
@[simp] theorem takeInterrupt_cachedPresets (s : State) : (takeInterrupt s).cachedPresets = s.cachedPresets := rfl
@[simp] theorem takeInterrupt_cachedDevices (s : State) : (takeInterrupt s).cachedDevices = s.cachedDevices := rfl
@[simp] theorem takeInterrupt_busy (s : State) : (takeInterrupt s).busy = s.busy := rfl
@[simp] theorem takeInterrupt_lastStatus (s : State) : (takeInterrupt s).lastStatus = s.lastStatus := rfl
@[simp] theorem takeInterrupt_seqState (s : State) : (takeInterrupt s).seqState = s.seqState := rfl
@[simp] theorem takeInterrupt_devIdx (s : State) : (takeInterrupt s).devIdx = s.devIdx := rfl
@[simp] theorem takeInterrupt_seqPreset (s : State) : (takeInterrupt s).seqPreset = s.seqPreset := rfl
@[simp] theorem takeInterrupt_precompute (s : State) : (takeInterrupt s).precompute = s.precompute := rfl
@[simp] theorem takeInterrupt_response (s : State) : (takeInterrupt s).response = s.response := rfl
@[simp] theorem takeInterrupt_commands (s : State) : (takeInterrupt s).commands = s.commands := rfl
@[simp] theorem takeInterrupt_presetChangeRequested (s : State) :
    (takeInterrupt s).presetChangeRequested = s.presetChangeRequested := rfl
@[simp] theorem takeInterrupt_pulseRequested (s : State) : (takeInterrupt s).pulseRequested = s.pulseRequested := rfl
@[simp] theorem takeInterrupt_mailboxMessagePending (s : State) :
    (takeInterrupt s).mailboxMessagePending = s.mailboxMessagePending := rfl
@[simp] theorem takeInterrupt_testSequenceActive (s : State) :
    (takeInterrupt s).testSequenceActive = s.testSequenceActive := rfl
@[simp] theorem takeInterrupt_pendingPreset (s : State) : (takeInterrupt s).pendingPreset = s.pendingPreset := rfl
@[simp] theorem takeInterrupt_scanCount (s : State) : (takeInterrupt s).scanCount = s.scanCount := rfl
@[simp] theorem takeInterrupt_scanTarget (s : State) : (takeInterrupt s).scanTarget = s.scanTarget := rfl
@[simp] theorem takeInterrupt_mailbox (s : State) : (takeInterrupt s).mailbox = s.mailbox := rfl
@[simp] theorem takeInterrupt_pb (s : State) : (takeInterrupt s).pb = s.pb := rfl
@[simp] theorem takeInterrupt_trigger (s : State) : (takeInterrupt s).trigger = s.trigger := rfl
@[simp] theorem takeInterrupt_strobe (s : State) : (takeInterrupt s).strobe = s.strobe := rfl
@[simp] theorem takeInterrupt_presetInput (s : State) : (takeInterrupt s).presetInput = s.presetInput := rfl
@[simp] theorem takeInterrupt_selectedBus (s : State) : (takeInterrupt s).selectedBus = s.selectedBus := rfl
@[simp] theorem takeInterrupt_out (s : State) : (takeInterrupt s).out = s.out := rfl
@[simp] theorem takeInterrupt_context (s : State) : (takeInterrupt s).context = .interrupt := rfl
@[simp] theorem takeInterrupt_loopPos (s : State) : (takeInterrupt s).loopPos = s.loopPos := rfl
@[simp] theorem takeInterrupt_cfg (s : State) : (takeInterrupt s).cfg = s.cfg := rfl
@[simp] theorem takeInterrupt_inputs (s : State) : (takeInterrupt s).inputs = s.inputs := rfl
@[simp] theorem takeInterrupt_busAnswers (s : State) : (takeInterrupt s).busAnswers = s.busAnswers := rfl
@[simp] theorem takeInterrupt_muxReads (s : State) : (takeInterrupt s).muxReads = s.muxReads := rfl
@[simp] theorem takeInterrupt_allocAnswers (s : State) : (takeInterrupt s).allocAnswers = s.allocAnswers := rfl
@[simp] theorem takeInterrupt_draws (s : State) : (takeInterrupt s).draws = s.draws := rfl
@[simp] theorem takeInterrupt_trace (s : State) : (takeInterrupt s).trace = s.trace := rfl

/-! ### returnFromInterrupt -/

@[simp] theorem returnFromInterrupt_matrix (s : State) : (returnFromInterrupt s).matrix = s.matrix := rfl
@[simp] theorem returnFromInterrupt_arena (s : State) : (returnFromInterrupt s).arena = s.arena := rfl
@[simp] theorem returnFromInterrupt_cachedPresets (s : State) :
    (returnFromInterrupt s).cachedPresets = s.cachedPresets := rfl
@[simp] theorem returnFromInterrupt_cachedDevices (s : State) :
    (returnFromInterrupt s).cachedDevices = s.cachedDevices := rfl
@[simp] theorem returnFromInterrupt_busy (s : State) : (returnFromInterrupt s).busy = s.busy := rfl
@[simp] theorem returnFromInterrupt_lastStatus (s : State) : (returnFromInterrupt s).lastStatus = s.lastStatus := rfl
@[simp] theorem returnFromInterrupt_seqState (s : State) : (returnFromInterrupt s).seqState = s.seqState := rfl
@[simp] theorem returnFromInterrupt_devIdx (s : State) : (returnFromInterrupt s).devIdx = s.devIdx := rfl
@[simp] theorem returnFromInterrupt_seqPreset (s : State) : (returnFromInterrupt s).seqPreset = s.seqPreset := rfl
@[simp] theorem returnFromInterrupt_precompute (s : State) : (returnFromInterrupt s).precompute = s.precompute := rfl
@[simp] theorem returnFromInterrupt_response (s : State) : (returnFromInterrupt s).response = s.response := rfl
@[simp] theorem returnFromInterrupt_commands (s : State) : (returnFromInterrupt s).commands = s.commands := rfl
@[simp] theorem returnFromInterrupt_presetChangeRequested (s : State) :
    (returnFromInterrupt s).presetChangeRequested = s.presetChangeRequested := rfl
@[simp] theorem returnFromInterrupt_pulseRequested (s : State) :
    (returnFromInterrupt s).pulseRequested = s.pulseRequested := rfl
@[simp] theorem returnFromInterrupt_mailboxMessagePending (s : State) :
    (returnFromInterrupt s).mailboxMessagePending = s.mailboxMessagePending := rfl
@[simp] theorem returnFromInterrupt_testSequenceActive (s : State) :
    (returnFromInterrupt s).testSequenceActive = s.testSequenceActive := rfl
@[simp] theorem returnFromInterrupt_pendingPreset (s : State) :
    (returnFromInterrupt s).pendingPreset = s.pendingPreset := rfl
@[simp] theorem returnFromInterrupt_scanCount (s : State) : (returnFromInterrupt s).scanCount = s.scanCount := rfl
@[simp] theorem returnFromInterrupt_scanTarget (s : State) : (returnFromInterrupt s).scanTarget = s.scanTarget := rfl
@[simp] theorem returnFromInterrupt_mailbox (s : State) : (returnFromInterrupt s).mailbox = s.mailbox := rfl
@[simp] theorem returnFromInterrupt_pb (s : State) : (returnFromInterrupt s).pb = s.pb := rfl
@[simp] theorem returnFromInterrupt_trigger (s : State) : (returnFromInterrupt s).trigger = s.trigger := rfl
@[simp] theorem returnFromInterrupt_strobe (s : State) : (returnFromInterrupt s).strobe = s.strobe := rfl
@[simp] theorem returnFromInterrupt_presetInput (s : State) :
    (returnFromInterrupt s).presetInput = s.presetInput := rfl
@[simp] theorem returnFromInterrupt_selectedBus (s : State) :
    (returnFromInterrupt s).selectedBus = s.selectedBus := rfl
@[simp] theorem returnFromInterrupt_out (s : State) : (returnFromInterrupt s).out = s.out := rfl
@[simp] theorem returnFromInterrupt_context (s : State) : (returnFromInterrupt s).context = .loop := rfl
@[simp] theorem returnFromInterrupt_loopPos (s : State) : (returnFromInterrupt s).loopPos = wakePos s.loopPos := rfl
@[simp] theorem returnFromInterrupt_cfg (s : State) : (returnFromInterrupt s).cfg = s.cfg := rfl
@[simp] theorem returnFromInterrupt_inputs (s : State) : (returnFromInterrupt s).inputs = s.inputs := rfl
@[simp] theorem returnFromInterrupt_busAnswers (s : State) : (returnFromInterrupt s).busAnswers = s.busAnswers := rfl
@[simp] theorem returnFromInterrupt_muxReads (s : State) : (returnFromInterrupt s).muxReads = s.muxReads := rfl
@[simp] theorem returnFromInterrupt_allocAnswers (s : State) :
    (returnFromInterrupt s).allocAnswers = s.allocAnswers := rfl
@[simp] theorem returnFromInterrupt_draws (s : State) : (returnFromInterrupt s).draws = s.draws := rfl
@[simp] theorem returnFromInterrupt_trace (s : State) : (returnFromInterrupt s).trace = .barrier :: s.trace := rfl

/-! ### writeCell -/

@[simp] theorem writeCell_matrix (p c : Nat) (x : Cell) (s : State) :
    (writeCell p c x s).matrix = storeWrite zeroCell (matrixKey s.cfg p c) x s.matrix := rfl
@[simp] theorem writeCell_arena (p c : Nat) (x : Cell) (s : State) : (writeCell p c x s).arena = s.arena := rfl
@[simp] theorem writeCell_cachedPresets (p c : Nat) (x : Cell) (s : State) :
    (writeCell p c x s).cachedPresets = s.cachedPresets := rfl
@[simp] theorem writeCell_cachedDevices (p c : Nat) (x : Cell) (s : State) :
    (writeCell p c x s).cachedDevices = s.cachedDevices := rfl
@[simp] theorem writeCell_busy (p c : Nat) (x : Cell) (s : State) : (writeCell p c x s).busy = s.busy := rfl
@[simp] theorem writeCell_lastStatus (p c : Nat) (x : Cell) (s : State) :
    (writeCell p c x s).lastStatus = s.lastStatus := rfl
@[simp] theorem writeCell_seqState (p c : Nat) (x : Cell) (s : State) :
    (writeCell p c x s).seqState = s.seqState := rfl
@[simp] theorem writeCell_devIdx (p c : Nat) (x : Cell) (s : State) : (writeCell p c x s).devIdx = s.devIdx := rfl
@[simp] theorem writeCell_seqPreset (p c : Nat) (x : Cell) (s : State) :
    (writeCell p c x s).seqPreset = s.seqPreset := rfl
@[simp] theorem writeCell_precompute (p c : Nat) (x : Cell) (s : State) :
    (writeCell p c x s).precompute = s.precompute := rfl
@[simp] theorem writeCell_response (p c : Nat) (x : Cell) (s : State) :
    (writeCell p c x s).response = s.response := rfl
@[simp] theorem writeCell_commands (p c : Nat) (x : Cell) (s : State) :
    (writeCell p c x s).commands = s.commands := rfl
@[simp] theorem writeCell_presetChangeRequested (p c : Nat) (x : Cell) (s : State) :
    (writeCell p c x s).presetChangeRequested = s.presetChangeRequested := rfl
@[simp] theorem writeCell_pulseRequested (p c : Nat) (x : Cell) (s : State) :
    (writeCell p c x s).pulseRequested = s.pulseRequested := rfl
@[simp] theorem writeCell_mailboxMessagePending (p c : Nat) (x : Cell) (s : State) :
    (writeCell p c x s).mailboxMessagePending = s.mailboxMessagePending := rfl
@[simp] theorem writeCell_testSequenceActive (p c : Nat) (x : Cell) (s : State) :
    (writeCell p c x s).testSequenceActive = s.testSequenceActive := rfl
@[simp] theorem writeCell_pendingPreset (p c : Nat) (x : Cell) (s : State) :
    (writeCell p c x s).pendingPreset = s.pendingPreset := rfl
@[simp] theorem writeCell_scanCount (p c : Nat) (x : Cell) (s : State) :
    (writeCell p c x s).scanCount = s.scanCount := rfl
@[simp] theorem writeCell_scanTarget (p c : Nat) (x : Cell) (s : State) :
    (writeCell p c x s).scanTarget = s.scanTarget := rfl
@[simp] theorem writeCell_mailbox (p c : Nat) (x : Cell) (s : State) : (writeCell p c x s).mailbox = s.mailbox := rfl
@[simp] theorem writeCell_pb (p c : Nat) (x : Cell) (s : State) : (writeCell p c x s).pb = s.pb := rfl
@[simp] theorem writeCell_trigger (p c : Nat) (x : Cell) (s : State) : (writeCell p c x s).trigger = s.trigger := rfl
@[simp] theorem writeCell_strobe (p c : Nat) (x : Cell) (s : State) : (writeCell p c x s).strobe = s.strobe := rfl
@[simp] theorem writeCell_presetInput (p c : Nat) (x : Cell) (s : State) :
    (writeCell p c x s).presetInput = s.presetInput := rfl
@[simp] theorem writeCell_selectedBus (p c : Nat) (x : Cell) (s : State) :
    (writeCell p c x s).selectedBus = s.selectedBus := rfl
@[simp] theorem writeCell_out (p c : Nat) (x : Cell) (s : State) : (writeCell p c x s).out = s.out := rfl
@[simp] theorem writeCell_context (p c : Nat) (x : Cell) (s : State) : (writeCell p c x s).context = s.context := rfl
@[simp] theorem writeCell_loopPos (p c : Nat) (x : Cell) (s : State) : (writeCell p c x s).loopPos = s.loopPos := rfl
@[simp] theorem writeCell_cfg (p c : Nat) (x : Cell) (s : State) : (writeCell p c x s).cfg = s.cfg := rfl
@[simp] theorem writeCell_inputs (p c : Nat) (x : Cell) (s : State) : (writeCell p c x s).inputs = s.inputs := rfl
@[simp] theorem writeCell_busAnswers (p c : Nat) (x : Cell) (s : State) :
    (writeCell p c x s).busAnswers = s.busAnswers := rfl
@[simp] theorem writeCell_muxReads (p c : Nat) (x : Cell) (s : State) :
    (writeCell p c x s).muxReads = s.muxReads := rfl
@[simp] theorem writeCell_allocAnswers (p c : Nat) (x : Cell) (s : State) :
    (writeCell p c x s).allocAnswers = s.allocAnswers := rfl
@[simp] theorem writeCell_draws (p c : Nat) (x : Cell) (s : State) : (writeCell p c x s).draws = s.draws := rfl
@[simp] theorem writeCell_trace (p c : Nat) (x : Cell) (s : State) : (writeCell p c x s).trace = s.trace := rfl

/-! ### setOut -/

@[simp] theorem setOut_matrix (d : Nat) (p : Payload) (s : State) : (setOut d p s).matrix = s.matrix := rfl
@[simp] theorem setOut_arena (d : Nat) (p : Payload) (s : State) : (setOut d p s).arena = s.arena := rfl
@[simp] theorem setOut_cachedPresets (d : Nat) (p : Payload) (s : State) :
    (setOut d p s).cachedPresets = s.cachedPresets := rfl
@[simp] theorem setOut_cachedDevices (d : Nat) (p : Payload) (s : State) :
    (setOut d p s).cachedDevices = s.cachedDevices := rfl
@[simp] theorem setOut_busy (d : Nat) (p : Payload) (s : State) : (setOut d p s).busy = s.busy := rfl
@[simp] theorem setOut_lastStatus (d : Nat) (p : Payload) (s : State) :
    (setOut d p s).lastStatus = s.lastStatus := rfl
@[simp] theorem setOut_seqState (d : Nat) (p : Payload) (s : State) : (setOut d p s).seqState = s.seqState := rfl
@[simp] theorem setOut_devIdx (d : Nat) (p : Payload) (s : State) : (setOut d p s).devIdx = s.devIdx := rfl
@[simp] theorem setOut_seqPreset (d : Nat) (p : Payload) (s : State) : (setOut d p s).seqPreset = s.seqPreset := rfl
@[simp] theorem setOut_precompute (d : Nat) (p : Payload) (s : State) :
    (setOut d p s).precompute = s.precompute := rfl
@[simp] theorem setOut_response (d : Nat) (p : Payload) (s : State) : (setOut d p s).response = s.response := rfl
@[simp] theorem setOut_commands (d : Nat) (p : Payload) (s : State) : (setOut d p s).commands = s.commands := rfl
@[simp] theorem setOut_presetChangeRequested (d : Nat) (p : Payload) (s : State) :
    (setOut d p s).presetChangeRequested = s.presetChangeRequested := rfl
@[simp] theorem setOut_pulseRequested (d : Nat) (p : Payload) (s : State) :
    (setOut d p s).pulseRequested = s.pulseRequested := rfl
@[simp] theorem setOut_mailboxMessagePending (d : Nat) (p : Payload) (s : State) :
    (setOut d p s).mailboxMessagePending = s.mailboxMessagePending := rfl
@[simp] theorem setOut_testSequenceActive (d : Nat) (p : Payload) (s : State) :
    (setOut d p s).testSequenceActive = s.testSequenceActive := rfl
@[simp] theorem setOut_pendingPreset (d : Nat) (p : Payload) (s : State) :
    (setOut d p s).pendingPreset = s.pendingPreset := rfl
@[simp] theorem setOut_scanCount (d : Nat) (p : Payload) (s : State) : (setOut d p s).scanCount = s.scanCount := rfl
@[simp] theorem setOut_scanTarget (d : Nat) (p : Payload) (s : State) :
    (setOut d p s).scanTarget = s.scanTarget := rfl
@[simp] theorem setOut_mailbox (d : Nat) (p : Payload) (s : State) : (setOut d p s).mailbox = s.mailbox := rfl
@[simp] theorem setOut_pb (d : Nat) (p : Payload) (s : State) : (setOut d p s).pb = s.pb := rfl
@[simp] theorem setOut_trigger (d : Nat) (p : Payload) (s : State) : (setOut d p s).trigger = s.trigger := rfl
@[simp] theorem setOut_strobe (d : Nat) (p : Payload) (s : State) : (setOut d p s).strobe = s.strobe := rfl
@[simp] theorem setOut_presetInput (d : Nat) (p : Payload) (s : State) :
    (setOut d p s).presetInput = s.presetInput := rfl
@[simp] theorem setOut_selectedBus (d : Nat) (p : Payload) (s : State) :
    (setOut d p s).selectedBus = s.selectedBus := rfl
@[simp] theorem setOut_out (d : Nat) (p : Payload) (s : State) : (setOut d p s).out = storeWrite 0#24 d p s.out := rfl
@[simp] theorem setOut_context (d : Nat) (p : Payload) (s : State) : (setOut d p s).context = s.context := rfl
@[simp] theorem setOut_loopPos (d : Nat) (p : Payload) (s : State) : (setOut d p s).loopPos = s.loopPos := rfl
@[simp] theorem setOut_cfg (d : Nat) (p : Payload) (s : State) : (setOut d p s).cfg = s.cfg := rfl
@[simp] theorem setOut_inputs (d : Nat) (p : Payload) (s : State) : (setOut d p s).inputs = s.inputs := rfl
@[simp] theorem setOut_busAnswers (d : Nat) (p : Payload) (s : State) :
    (setOut d p s).busAnswers = s.busAnswers := rfl
@[simp] theorem setOut_muxReads (d : Nat) (p : Payload) (s : State) : (setOut d p s).muxReads = s.muxReads := rfl
@[simp] theorem setOut_allocAnswers (d : Nat) (p : Payload) (s : State) :
    (setOut d p s).allocAnswers = s.allocAnswers := rfl
@[simp] theorem setOut_draws (d : Nat) (p : Payload) (s : State) : (setOut d p s).draws = s.draws := rfl
@[simp] theorem setOut_trace (d : Nat) (p : Payload) (s : State) : (setOut d p s).trace = s.trace := rfl

/-! ### emptyCache -/

@[simp] theorem emptyCache_matrix (s : State) : (emptyCache s).matrix = s.matrix := rfl
@[simp] theorem emptyCache_arena (s : State) : (emptyCache s).arena = s.arena := rfl
@[simp] theorem emptyCache_cachedPresets (s : State) : (emptyCache s).cachedPresets = 0 := rfl
@[simp] theorem emptyCache_cachedDevices (s : State) : (emptyCache s).cachedDevices = 0 := rfl
@[simp] theorem emptyCache_busy (s : State) : (emptyCache s).busy = s.busy := rfl
@[simp] theorem emptyCache_lastStatus (s : State) : (emptyCache s).lastStatus = s.lastStatus := rfl
@[simp] theorem emptyCache_seqState (s : State) : (emptyCache s).seqState = s.seqState := rfl
@[simp] theorem emptyCache_devIdx (s : State) : (emptyCache s).devIdx = s.devIdx := rfl
@[simp] theorem emptyCache_seqPreset (s : State) : (emptyCache s).seqPreset = s.seqPreset := rfl
@[simp] theorem emptyCache_precompute (s : State) : (emptyCache s).precompute = s.precompute := rfl
@[simp] theorem emptyCache_response (s : State) : (emptyCache s).response = s.response := rfl
@[simp] theorem emptyCache_commands (s : State) : (emptyCache s).commands = s.commands := rfl
@[simp] theorem emptyCache_presetChangeRequested (s : State) :
    (emptyCache s).presetChangeRequested = s.presetChangeRequested := rfl
@[simp] theorem emptyCache_pulseRequested (s : State) : (emptyCache s).pulseRequested = s.pulseRequested := rfl
@[simp] theorem emptyCache_mailboxMessagePending (s : State) :
    (emptyCache s).mailboxMessagePending = s.mailboxMessagePending := rfl
@[simp] theorem emptyCache_testSequenceActive (s : State) :
    (emptyCache s).testSequenceActive = s.testSequenceActive := rfl
@[simp] theorem emptyCache_pendingPreset (s : State) : (emptyCache s).pendingPreset = s.pendingPreset := rfl
@[simp] theorem emptyCache_scanCount (s : State) : (emptyCache s).scanCount = s.scanCount := rfl
@[simp] theorem emptyCache_scanTarget (s : State) : (emptyCache s).scanTarget = s.scanTarget := rfl
@[simp] theorem emptyCache_mailbox (s : State) : (emptyCache s).mailbox = s.mailbox := rfl
@[simp] theorem emptyCache_pb (s : State) : (emptyCache s).pb = s.pb := rfl
@[simp] theorem emptyCache_trigger (s : State) : (emptyCache s).trigger = s.trigger := rfl
@[simp] theorem emptyCache_strobe (s : State) : (emptyCache s).strobe = s.strobe := rfl
@[simp] theorem emptyCache_presetInput (s : State) : (emptyCache s).presetInput = s.presetInput := rfl
@[simp] theorem emptyCache_selectedBus (s : State) : (emptyCache s).selectedBus = s.selectedBus := rfl
@[simp] theorem emptyCache_out (s : State) : (emptyCache s).out = s.out := rfl
@[simp] theorem emptyCache_context (s : State) : (emptyCache s).context = s.context := rfl
@[simp] theorem emptyCache_loopPos (s : State) : (emptyCache s).loopPos = s.loopPos := rfl
@[simp] theorem emptyCache_cfg (s : State) : (emptyCache s).cfg = s.cfg := rfl
@[simp] theorem emptyCache_inputs (s : State) : (emptyCache s).inputs = s.inputs := rfl
@[simp] theorem emptyCache_busAnswers (s : State) : (emptyCache s).busAnswers = s.busAnswers := rfl
@[simp] theorem emptyCache_muxReads (s : State) : (emptyCache s).muxReads = s.muxReads := rfl
@[simp] theorem emptyCache_allocAnswers (s : State) : (emptyCache s).allocAnswers = s.allocAnswers := rfl
@[simp] theorem emptyCache_draws (s : State) : (emptyCache s).draws = s.draws := rfl
@[simp] theorem emptyCache_trace (s : State) : (emptyCache s).trace = s.trace := rfl

/-! ### rebuildCache -/

@[simp] theorem rebuildCache_matrix (n : Nat) (s : State) : (rebuildCache n s).matrix = s.matrix := rfl
@[simp] theorem rebuildCache_cachedPresets (n : Nat) (s : State) : (rebuildCache n s).cachedPresets = n := rfl
@[simp] theorem rebuildCache_cachedDevices (n : Nat) (s : State) :
    (rebuildCache n s).cachedDevices = s.cfg.deviceCount := rfl
@[simp] theorem rebuildCache_busy (n : Nat) (s : State) : (rebuildCache n s).busy = s.busy := rfl
@[simp] theorem rebuildCache_lastStatus (n : Nat) (s : State) : (rebuildCache n s).lastStatus = s.lastStatus := rfl
@[simp] theorem rebuildCache_seqState (n : Nat) (s : State) : (rebuildCache n s).seqState = s.seqState := rfl
@[simp] theorem rebuildCache_devIdx (n : Nat) (s : State) : (rebuildCache n s).devIdx = s.devIdx := rfl
@[simp] theorem rebuildCache_seqPreset (n : Nat) (s : State) : (rebuildCache n s).seqPreset = s.seqPreset := rfl
@[simp] theorem rebuildCache_precompute (n : Nat) (s : State) : (rebuildCache n s).precompute = s.precompute := rfl
@[simp] theorem rebuildCache_response (n : Nat) (s : State) : (rebuildCache n s).response = s.response := rfl
@[simp] theorem rebuildCache_commands (n : Nat) (s : State) : (rebuildCache n s).commands = s.commands := rfl
@[simp] theorem rebuildCache_presetChangeRequested (n : Nat) (s : State) :
    (rebuildCache n s).presetChangeRequested = s.presetChangeRequested := rfl
@[simp] theorem rebuildCache_pulseRequested (n : Nat) (s : State) :
    (rebuildCache n s).pulseRequested = s.pulseRequested := rfl
@[simp] theorem rebuildCache_mailboxMessagePending (n : Nat) (s : State) :
    (rebuildCache n s).mailboxMessagePending = s.mailboxMessagePending := rfl
@[simp] theorem rebuildCache_testSequenceActive (n : Nat) (s : State) :
    (rebuildCache n s).testSequenceActive = s.testSequenceActive := rfl
@[simp] theorem rebuildCache_pendingPreset (n : Nat) (s : State) :
    (rebuildCache n s).pendingPreset = s.pendingPreset := rfl
@[simp] theorem rebuildCache_scanCount (n : Nat) (s : State) : (rebuildCache n s).scanCount = s.scanCount := rfl
@[simp] theorem rebuildCache_scanTarget (n : Nat) (s : State) : (rebuildCache n s).scanTarget = s.scanTarget := rfl
@[simp] theorem rebuildCache_mailbox (n : Nat) (s : State) : (rebuildCache n s).mailbox = s.mailbox := rfl
@[simp] theorem rebuildCache_pb (n : Nat) (s : State) : (rebuildCache n s).pb = s.pb := rfl
@[simp] theorem rebuildCache_trigger (n : Nat) (s : State) : (rebuildCache n s).trigger = s.trigger := rfl
@[simp] theorem rebuildCache_strobe (n : Nat) (s : State) : (rebuildCache n s).strobe = s.strobe := rfl
@[simp] theorem rebuildCache_presetInput (n : Nat) (s : State) : (rebuildCache n s).presetInput = s.presetInput := rfl
@[simp] theorem rebuildCache_selectedBus (n : Nat) (s : State) : (rebuildCache n s).selectedBus = s.selectedBus := rfl
@[simp] theorem rebuildCache_out (n : Nat) (s : State) : (rebuildCache n s).out = s.out := rfl
@[simp] theorem rebuildCache_context (n : Nat) (s : State) : (rebuildCache n s).context = s.context := rfl
@[simp] theorem rebuildCache_loopPos (n : Nat) (s : State) : (rebuildCache n s).loopPos = s.loopPos := rfl
@[simp] theorem rebuildCache_cfg (n : Nat) (s : State) : (rebuildCache n s).cfg = s.cfg := rfl
@[simp] theorem rebuildCache_inputs (n : Nat) (s : State) : (rebuildCache n s).inputs = s.inputs := rfl
@[simp] theorem rebuildCache_busAnswers (n : Nat) (s : State) : (rebuildCache n s).busAnswers = s.busAnswers := rfl
@[simp] theorem rebuildCache_muxReads (n : Nat) (s : State) : (rebuildCache n s).muxReads = s.muxReads := rfl
@[simp] theorem rebuildCache_allocAnswers (n : Nat) (s : State) :
    (rebuildCache n s).allocAnswers = s.allocAnswers := rfl
@[simp] theorem rebuildCache_draws (n : Nat) (s : State) : (rebuildCache n s).draws = s.draws := rfl
@[simp] theorem rebuildCache_trace (n : Nat) (s : State) : (rebuildCache n s).trace = s.trace := rfl

/-! ### startWalk -/

@[simp] theorem startWalk_matrix (p : PresetIndex) (s : State) : (startWalk p s).matrix = s.matrix := rfl
@[simp] theorem startWalk_arena (p : PresetIndex) (s : State) : (startWalk p s).arena = s.arena := rfl
@[simp] theorem startWalk_cachedPresets (p : PresetIndex) (s : State) :
    (startWalk p s).cachedPresets = s.cachedPresets := rfl
@[simp] theorem startWalk_cachedDevices (p : PresetIndex) (s : State) :
    (startWalk p s).cachedDevices = s.cachedDevices := rfl
@[simp] theorem startWalk_busy (p : PresetIndex) (s : State) : (startWalk p s).busy = s.busy := rfl
@[simp] theorem startWalk_lastStatus (p : PresetIndex) (s : State) : (startWalk p s).lastStatus = s.lastStatus := rfl
@[simp] theorem startWalk_seqState (p : PresetIndex) (s : State) : (startWalk p s).seqState = .select := rfl
@[simp] theorem startWalk_devIdx (p : PresetIndex) (s : State) : (startWalk p s).devIdx = 0 := rfl
@[simp] theorem startWalk_seqPreset (p : PresetIndex) (s : State) : (startWalk p s).seqPreset = p := rfl
@[simp] theorem startWalk_precompute (p : PresetIndex) (s : State) : (startWalk p s).precompute = s.precompute := rfl
@[simp] theorem startWalk_response (p : PresetIndex) (s : State) : (startWalk p s).response = s.response := rfl
@[simp] theorem startWalk_commands (p : PresetIndex) (s : State) : (startWalk p s).commands = s.commands := rfl
@[simp] theorem startWalk_presetChangeRequested (p : PresetIndex) (s : State) :
    (startWalk p s).presetChangeRequested = s.presetChangeRequested := rfl
@[simp] theorem startWalk_pulseRequested (p : PresetIndex) (s : State) :
    (startWalk p s).pulseRequested = s.pulseRequested := rfl
@[simp] theorem startWalk_mailboxMessagePending (p : PresetIndex) (s : State) :
    (startWalk p s).mailboxMessagePending = s.mailboxMessagePending := rfl
@[simp] theorem startWalk_testSequenceActive (p : PresetIndex) (s : State) :
    (startWalk p s).testSequenceActive = s.testSequenceActive := rfl
@[simp] theorem startWalk_pendingPreset (p : PresetIndex) (s : State) :
    (startWalk p s).pendingPreset = s.pendingPreset := rfl
@[simp] theorem startWalk_scanCount (p : PresetIndex) (s : State) : (startWalk p s).scanCount = s.scanCount := rfl
@[simp] theorem startWalk_scanTarget (p : PresetIndex) (s : State) : (startWalk p s).scanTarget = s.scanTarget := rfl
@[simp] theorem startWalk_mailbox (p : PresetIndex) (s : State) : (startWalk p s).mailbox = s.mailbox := rfl
@[simp] theorem startWalk_pb (p : PresetIndex) (s : State) : (startWalk p s).pb = s.pb := rfl
@[simp] theorem startWalk_trigger (p : PresetIndex) (s : State) : (startWalk p s).trigger = s.trigger := rfl
@[simp] theorem startWalk_strobe (p : PresetIndex) (s : State) : (startWalk p s).strobe = s.strobe := rfl
@[simp] theorem startWalk_presetInput (p : PresetIndex) (s : State) :
    (startWalk p s).presetInput = s.presetInput := rfl
@[simp] theorem startWalk_selectedBus (p : PresetIndex) (s : State) :
    (startWalk p s).selectedBus = s.selectedBus := rfl
@[simp] theorem startWalk_out (p : PresetIndex) (s : State) : (startWalk p s).out = s.out := rfl
@[simp] theorem startWalk_context (p : PresetIndex) (s : State) : (startWalk p s).context = s.context := rfl
@[simp] theorem startWalk_loopPos (p : PresetIndex) (s : State) : (startWalk p s).loopPos = s.loopPos := rfl
@[simp] theorem startWalk_cfg (p : PresetIndex) (s : State) : (startWalk p s).cfg = s.cfg := rfl
@[simp] theorem startWalk_inputs (p : PresetIndex) (s : State) : (startWalk p s).inputs = s.inputs := rfl
@[simp] theorem startWalk_busAnswers (p : PresetIndex) (s : State) : (startWalk p s).busAnswers = s.busAnswers := rfl
@[simp] theorem startWalk_muxReads (p : PresetIndex) (s : State) : (startWalk p s).muxReads = s.muxReads := rfl
@[simp] theorem startWalk_allocAnswers (p : PresetIndex) (s : State) :
    (startWalk p s).allocAnswers = s.allocAnswers := rfl
@[simp] theorem startWalk_draws (p : PresetIndex) (s : State) : (startWalk p s).draws = s.draws := rfl
@[simp] theorem startWalk_trace (p : PresetIndex) (s : State) : (startWalk p s).trace = s.trace := rfl

/-! ### takeBusAnswer -/

@[simp] theorem takeBusAnswer_matrix (s : State) : (takeBusAnswer s).matrix = s.matrix := by
  unfold takeBusAnswer; split <;> rfl
@[simp] theorem takeBusAnswer_arena (s : State) : (takeBusAnswer s).arena = s.arena := by
  unfold takeBusAnswer; split <;> rfl
@[simp] theorem takeBusAnswer_cachedPresets (s : State) : (takeBusAnswer s).cachedPresets = s.cachedPresets := by
  unfold takeBusAnswer; split <;> rfl
@[simp] theorem takeBusAnswer_cachedDevices (s : State) : (takeBusAnswer s).cachedDevices = s.cachedDevices := by
  unfold takeBusAnswer; split <;> rfl
@[simp] theorem takeBusAnswer_busy (s : State) : (takeBusAnswer s).busy = s.busy := by
  unfold takeBusAnswer; split <;> rfl
@[simp] theorem takeBusAnswer_lastStatus (s : State) : (takeBusAnswer s).lastStatus = s.lastStatus := by
  unfold takeBusAnswer; split <;> rfl
@[simp] theorem takeBusAnswer_seqState (s : State) : (takeBusAnswer s).seqState = s.seqState := by
  unfold takeBusAnswer; split <;> rfl
@[simp] theorem takeBusAnswer_devIdx (s : State) : (takeBusAnswer s).devIdx = s.devIdx := by
  unfold takeBusAnswer; split <;> rfl
@[simp] theorem takeBusAnswer_seqPreset (s : State) : (takeBusAnswer s).seqPreset = s.seqPreset := by
  unfold takeBusAnswer; split <;> rfl
@[simp] theorem takeBusAnswer_precompute (s : State) : (takeBusAnswer s).precompute = s.precompute := by
  unfold takeBusAnswer; split <;> rfl
@[simp] theorem takeBusAnswer_response (s : State) : (takeBusAnswer s).response = s.response := by
  unfold takeBusAnswer; split <;> rfl
@[simp] theorem takeBusAnswer_commands (s : State) : (takeBusAnswer s).commands = s.commands := by
  unfold takeBusAnswer; split <;> rfl
@[simp] theorem takeBusAnswer_presetChangeRequested (s : State) : (takeBusAnswer s).presetChangeRequested = s.presetChangeRequested := by
  unfold takeBusAnswer; split <;> rfl
@[simp] theorem takeBusAnswer_pulseRequested (s : State) : (takeBusAnswer s).pulseRequested = s.pulseRequested := by
  unfold takeBusAnswer; split <;> rfl
@[simp] theorem takeBusAnswer_mailboxMessagePending (s : State) : (takeBusAnswer s).mailboxMessagePending = s.mailboxMessagePending := by
  unfold takeBusAnswer; split <;> rfl
@[simp] theorem takeBusAnswer_testSequenceActive (s : State) : (takeBusAnswer s).testSequenceActive = s.testSequenceActive := by
  unfold takeBusAnswer; split <;> rfl
@[simp] theorem takeBusAnswer_pendingPreset (s : State) : (takeBusAnswer s).pendingPreset = s.pendingPreset := by
  unfold takeBusAnswer; split <;> rfl
@[simp] theorem takeBusAnswer_scanCount (s : State) : (takeBusAnswer s).scanCount = s.scanCount := by
  unfold takeBusAnswer; split <;> rfl
@[simp] theorem takeBusAnswer_scanTarget (s : State) : (takeBusAnswer s).scanTarget = s.scanTarget := by
  unfold takeBusAnswer; split <;> rfl
@[simp] theorem takeBusAnswer_mailbox (s : State) : (takeBusAnswer s).mailbox = s.mailbox := by
  unfold takeBusAnswer; split <;> rfl
@[simp] theorem takeBusAnswer_pb (s : State) : (takeBusAnswer s).pb = s.pb := by
  unfold takeBusAnswer; split <;> rfl
@[simp] theorem takeBusAnswer_trigger (s : State) : (takeBusAnswer s).trigger = s.trigger := by
  unfold takeBusAnswer; split <;> rfl
@[simp] theorem takeBusAnswer_strobe (s : State) : (takeBusAnswer s).strobe = s.strobe := by
  unfold takeBusAnswer; split <;> rfl
@[simp] theorem takeBusAnswer_presetInput (s : State) : (takeBusAnswer s).presetInput = s.presetInput := by
  unfold takeBusAnswer; split <;> rfl
@[simp] theorem takeBusAnswer_selectedBus (s : State) : (takeBusAnswer s).selectedBus = s.selectedBus := by
  unfold takeBusAnswer; split <;> rfl
@[simp] theorem takeBusAnswer_out (s : State) : (takeBusAnswer s).out = s.out := by
  unfold takeBusAnswer; split <;> rfl
@[simp] theorem takeBusAnswer_context (s : State) : (takeBusAnswer s).context = s.context := by
  unfold takeBusAnswer; split <;> rfl
@[simp] theorem takeBusAnswer_loopPos (s : State) : (takeBusAnswer s).loopPos = s.loopPos := by
  unfold takeBusAnswer; split <;> rfl
@[simp] theorem takeBusAnswer_cfg (s : State) : (takeBusAnswer s).cfg = s.cfg := by
  unfold takeBusAnswer; split <;> rfl
@[simp] theorem takeBusAnswer_inputs (s : State) : (takeBusAnswer s).inputs = s.inputs := by
  unfold takeBusAnswer; split <;> rfl
@[simp] theorem takeBusAnswer_muxReads (s : State) : (takeBusAnswer s).muxReads = s.muxReads := by
  unfold takeBusAnswer; split <;> rfl
@[simp] theorem takeBusAnswer_allocAnswers (s : State) : (takeBusAnswer s).allocAnswers = s.allocAnswers := by
  unfold takeBusAnswer; split <;> rfl
@[simp] theorem takeBusAnswer_trace (s : State) : (takeBusAnswer s).trace = s.trace := by
  unfold takeBusAnswer; split <;> rfl

/-! ### takeAlloc -/

@[simp] theorem takeAlloc_matrix (s : State) : (takeAlloc s).matrix = s.matrix := by
  unfold takeAlloc; split <;> first | rfl | (split <;> rfl)
@[simp] theorem takeAlloc_arena (s : State) : (takeAlloc s).arena = s.arena := by
  unfold takeAlloc; split <;> first | rfl | (split <;> rfl)
@[simp] theorem takeAlloc_cachedPresets (s : State) : (takeAlloc s).cachedPresets = s.cachedPresets := by
  unfold takeAlloc; split <;> first | rfl | (split <;> rfl)
@[simp] theorem takeAlloc_cachedDevices (s : State) : (takeAlloc s).cachedDevices = s.cachedDevices := by
  unfold takeAlloc; split <;> first | rfl | (split <;> rfl)
@[simp] theorem takeAlloc_busy (s : State) : (takeAlloc s).busy = s.busy := by
  unfold takeAlloc; split <;> first | rfl | (split <;> rfl)
@[simp] theorem takeAlloc_lastStatus (s : State) : (takeAlloc s).lastStatus = s.lastStatus := by
  unfold takeAlloc; split <;> first | rfl | (split <;> rfl)
@[simp] theorem takeAlloc_seqState (s : State) : (takeAlloc s).seqState = s.seqState := by
  unfold takeAlloc; split <;> first | rfl | (split <;> rfl)
@[simp] theorem takeAlloc_devIdx (s : State) : (takeAlloc s).devIdx = s.devIdx := by
  unfold takeAlloc; split <;> first | rfl | (split <;> rfl)
@[simp] theorem takeAlloc_seqPreset (s : State) : (takeAlloc s).seqPreset = s.seqPreset := by
  unfold takeAlloc; split <;> first | rfl | (split <;> rfl)
@[simp] theorem takeAlloc_precompute (s : State) : (takeAlloc s).precompute = s.precompute := by
  unfold takeAlloc; split <;> first | rfl | (split <;> rfl)
@[simp] theorem takeAlloc_response (s : State) : (takeAlloc s).response = s.response := by
  unfold takeAlloc; split <;> first | rfl | (split <;> rfl)
@[simp] theorem takeAlloc_commands (s : State) : (takeAlloc s).commands = s.commands := by
  unfold takeAlloc; split <;> first | rfl | (split <;> rfl)
@[simp] theorem takeAlloc_presetChangeRequested (s : State) : (takeAlloc s).presetChangeRequested = s.presetChangeRequested := by
  unfold takeAlloc; split <;> first | rfl | (split <;> rfl)
@[simp] theorem takeAlloc_pulseRequested (s : State) : (takeAlloc s).pulseRequested = s.pulseRequested := by
  unfold takeAlloc; split <;> first | rfl | (split <;> rfl)
@[simp] theorem takeAlloc_mailboxMessagePending (s : State) : (takeAlloc s).mailboxMessagePending = s.mailboxMessagePending := by
  unfold takeAlloc; split <;> first | rfl | (split <;> rfl)
@[simp] theorem takeAlloc_testSequenceActive (s : State) : (takeAlloc s).testSequenceActive = s.testSequenceActive := by
  unfold takeAlloc; split <;> first | rfl | (split <;> rfl)
@[simp] theorem takeAlloc_pendingPreset (s : State) : (takeAlloc s).pendingPreset = s.pendingPreset := by
  unfold takeAlloc; split <;> first | rfl | (split <;> rfl)
@[simp] theorem takeAlloc_scanCount (s : State) : (takeAlloc s).scanCount = s.scanCount := by
  unfold takeAlloc; split <;> first | rfl | (split <;> rfl)
@[simp] theorem takeAlloc_scanTarget (s : State) : (takeAlloc s).scanTarget = s.scanTarget := by
  unfold takeAlloc; split <;> first | rfl | (split <;> rfl)
@[simp] theorem takeAlloc_mailbox (s : State) : (takeAlloc s).mailbox = s.mailbox := by
  unfold takeAlloc; split <;> first | rfl | (split <;> rfl)
@[simp] theorem takeAlloc_pb (s : State) : (takeAlloc s).pb = s.pb := by
  unfold takeAlloc; split <;> first | rfl | (split <;> rfl)
@[simp] theorem takeAlloc_trigger (s : State) : (takeAlloc s).trigger = s.trigger := by
  unfold takeAlloc; split <;> first | rfl | (split <;> rfl)
@[simp] theorem takeAlloc_strobe (s : State) : (takeAlloc s).strobe = s.strobe := by
  unfold takeAlloc; split <;> first | rfl | (split <;> rfl)
@[simp] theorem takeAlloc_presetInput (s : State) : (takeAlloc s).presetInput = s.presetInput := by
  unfold takeAlloc; split <;> first | rfl | (split <;> rfl)
@[simp] theorem takeAlloc_selectedBus (s : State) : (takeAlloc s).selectedBus = s.selectedBus := by
  unfold takeAlloc; split <;> first | rfl | (split <;> rfl)
@[simp] theorem takeAlloc_out (s : State) : (takeAlloc s).out = s.out := by
  unfold takeAlloc; split <;> first | rfl | (split <;> rfl)
@[simp] theorem takeAlloc_context (s : State) : (takeAlloc s).context = s.context := by
  unfold takeAlloc; split <;> first | rfl | (split <;> rfl)
@[simp] theorem takeAlloc_loopPos (s : State) : (takeAlloc s).loopPos = s.loopPos := by
  unfold takeAlloc; split <;> first | rfl | (split <;> rfl)
@[simp] theorem takeAlloc_cfg (s : State) : (takeAlloc s).cfg = s.cfg := by
  unfold takeAlloc; split <;> first | rfl | (split <;> rfl)
@[simp] theorem takeAlloc_inputs (s : State) : (takeAlloc s).inputs = s.inputs := by
  unfold takeAlloc; split <;> first | rfl | (split <;> rfl)
@[simp] theorem takeAlloc_busAnswers (s : State) : (takeAlloc s).busAnswers = s.busAnswers := by
  unfold takeAlloc; split <;> first | rfl | (split <;> rfl)
@[simp] theorem takeAlloc_muxReads (s : State) : (takeAlloc s).muxReads = s.muxReads := by
  unfold takeAlloc; split <;> first | rfl | (split <;> rfl)
@[simp] theorem takeAlloc_trace (s : State) : (takeAlloc s).trace = s.trace := by
  unfold takeAlloc; split <;> first | rfl | (split <;> rfl)

/-! ### takeMuxRead -/

@[simp] theorem takeMuxRead_matrix (s : State) : (takeMuxRead s).matrix = s.matrix := by
  unfold takeMuxRead; split <;> rfl
@[simp] theorem takeMuxRead_arena (s : State) : (takeMuxRead s).arena = s.arena := by
  unfold takeMuxRead; split <;> rfl
@[simp] theorem takeMuxRead_cachedPresets (s : State) : (takeMuxRead s).cachedPresets = s.cachedPresets := by
  unfold takeMuxRead; split <;> rfl
@[simp] theorem takeMuxRead_cachedDevices (s : State) : (takeMuxRead s).cachedDevices = s.cachedDevices := by
  unfold takeMuxRead; split <;> rfl
@[simp] theorem takeMuxRead_busy (s : State) : (takeMuxRead s).busy = s.busy := by
  unfold takeMuxRead; split <;> rfl
@[simp] theorem takeMuxRead_lastStatus (s : State) : (takeMuxRead s).lastStatus = s.lastStatus := by
  unfold takeMuxRead; split <;> rfl
@[simp] theorem takeMuxRead_seqState (s : State) : (takeMuxRead s).seqState = s.seqState := by
  unfold takeMuxRead; split <;> rfl
@[simp] theorem takeMuxRead_devIdx (s : State) : (takeMuxRead s).devIdx = s.devIdx := by
  unfold takeMuxRead; split <;> rfl
@[simp] theorem takeMuxRead_seqPreset (s : State) : (takeMuxRead s).seqPreset = s.seqPreset := by
  unfold takeMuxRead; split <;> rfl
@[simp] theorem takeMuxRead_precompute (s : State) : (takeMuxRead s).precompute = s.precompute := by
  unfold takeMuxRead; split <;> rfl
@[simp] theorem takeMuxRead_response (s : State) : (takeMuxRead s).response = s.response := by
  unfold takeMuxRead; split <;> rfl
@[simp] theorem takeMuxRead_commands (s : State) : (takeMuxRead s).commands = s.commands := by
  unfold takeMuxRead; split <;> rfl
@[simp] theorem takeMuxRead_presetChangeRequested (s : State) : (takeMuxRead s).presetChangeRequested = s.presetChangeRequested := by
  unfold takeMuxRead; split <;> rfl
@[simp] theorem takeMuxRead_pulseRequested (s : State) : (takeMuxRead s).pulseRequested = s.pulseRequested := by
  unfold takeMuxRead; split <;> rfl
@[simp] theorem takeMuxRead_mailboxMessagePending (s : State) : (takeMuxRead s).mailboxMessagePending = s.mailboxMessagePending := by
  unfold takeMuxRead; split <;> rfl
@[simp] theorem takeMuxRead_testSequenceActive (s : State) : (takeMuxRead s).testSequenceActive = s.testSequenceActive := by
  unfold takeMuxRead; split <;> rfl
@[simp] theorem takeMuxRead_pendingPreset (s : State) : (takeMuxRead s).pendingPreset = s.pendingPreset := by
  unfold takeMuxRead; split <;> rfl
@[simp] theorem takeMuxRead_scanCount (s : State) : (takeMuxRead s).scanCount = s.scanCount := by
  unfold takeMuxRead; split <;> rfl
@[simp] theorem takeMuxRead_scanTarget (s : State) : (takeMuxRead s).scanTarget = s.scanTarget := by
  unfold takeMuxRead; split <;> rfl
@[simp] theorem takeMuxRead_mailbox (s : State) : (takeMuxRead s).mailbox = s.mailbox := by
  unfold takeMuxRead; split <;> rfl
@[simp] theorem takeMuxRead_pb (s : State) : (takeMuxRead s).pb = s.pb := by
  unfold takeMuxRead; split <;> rfl
@[simp] theorem takeMuxRead_trigger (s : State) : (takeMuxRead s).trigger = s.trigger := by
  unfold takeMuxRead; split <;> rfl
@[simp] theorem takeMuxRead_strobe (s : State) : (takeMuxRead s).strobe = s.strobe := by
  unfold takeMuxRead; split <;> rfl
@[simp] theorem takeMuxRead_presetInput (s : State) : (takeMuxRead s).presetInput = s.presetInput := by
  unfold takeMuxRead; split <;> rfl
@[simp] theorem takeMuxRead_selectedBus (s : State) : (takeMuxRead s).selectedBus = s.selectedBus := by
  unfold takeMuxRead; split <;> rfl
@[simp] theorem takeMuxRead_out (s : State) : (takeMuxRead s).out = s.out := by
  unfold takeMuxRead; split <;> rfl
@[simp] theorem takeMuxRead_context (s : State) : (takeMuxRead s).context = s.context := by
  unfold takeMuxRead; split <;> rfl
@[simp] theorem takeMuxRead_loopPos (s : State) : (takeMuxRead s).loopPos = s.loopPos := by
  unfold takeMuxRead; split <;> rfl
@[simp] theorem takeMuxRead_cfg (s : State) : (takeMuxRead s).cfg = s.cfg := by
  unfold takeMuxRead; split <;> rfl
@[simp] theorem takeMuxRead_inputs (s : State) : (takeMuxRead s).inputs = s.inputs := by
  unfold takeMuxRead; split <;> rfl
@[simp] theorem takeMuxRead_busAnswers (s : State) : (takeMuxRead s).busAnswers = s.busAnswers := by
  unfold takeMuxRead; split <;> rfl
@[simp] theorem takeMuxRead_allocAnswers (s : State) : (takeMuxRead s).allocAnswers = s.allocAnswers := by
  unfold takeMuxRead; split <;> rfl
@[simp] theorem takeMuxRead_trace (s : State) : (takeMuxRead s).trace = s.trace := by
  unfold takeMuxRead; split <;> rfl

/-! ### countDraw -/

@[simp] theorem countDraw_matrix (s : State) : (countDraw s).matrix = s.matrix := rfl
@[simp] theorem countDraw_arena (s : State) : (countDraw s).arena = s.arena := rfl
@[simp] theorem countDraw_cachedPresets (s : State) : (countDraw s).cachedPresets = s.cachedPresets := rfl
@[simp] theorem countDraw_cachedDevices (s : State) : (countDraw s).cachedDevices = s.cachedDevices := rfl
@[simp] theorem countDraw_busy (s : State) : (countDraw s).busy = s.busy := rfl
@[simp] theorem countDraw_lastStatus (s : State) : (countDraw s).lastStatus = s.lastStatus := rfl
@[simp] theorem countDraw_seqState (s : State) : (countDraw s).seqState = s.seqState := rfl
@[simp] theorem countDraw_devIdx (s : State) : (countDraw s).devIdx = s.devIdx := rfl
@[simp] theorem countDraw_seqPreset (s : State) : (countDraw s).seqPreset = s.seqPreset := rfl
@[simp] theorem countDraw_precompute (s : State) : (countDraw s).precompute = s.precompute := rfl
@[simp] theorem countDraw_response (s : State) : (countDraw s).response = s.response := rfl
@[simp] theorem countDraw_commands (s : State) : (countDraw s).commands = s.commands := rfl
@[simp] theorem countDraw_presetChangeRequested (s : State) :
    (countDraw s).presetChangeRequested = s.presetChangeRequested := rfl
@[simp] theorem countDraw_pulseRequested (s : State) : (countDraw s).pulseRequested = s.pulseRequested := rfl
@[simp] theorem countDraw_mailboxMessagePending (s : State) :
    (countDraw s).mailboxMessagePending = s.mailboxMessagePending := rfl
@[simp] theorem countDraw_testSequenceActive (s : State) :
    (countDraw s).testSequenceActive = s.testSequenceActive := rfl
@[simp] theorem countDraw_pendingPreset (s : State) : (countDraw s).pendingPreset = s.pendingPreset := rfl
@[simp] theorem countDraw_scanCount (s : State) : (countDraw s).scanCount = s.scanCount := rfl
@[simp] theorem countDraw_scanTarget (s : State) : (countDraw s).scanTarget = s.scanTarget := rfl
@[simp] theorem countDraw_mailbox (s : State) : (countDraw s).mailbox = s.mailbox := rfl
@[simp] theorem countDraw_pb (s : State) : (countDraw s).pb = s.pb := rfl
@[simp] theorem countDraw_trigger (s : State) : (countDraw s).trigger = s.trigger := rfl
@[simp] theorem countDraw_strobe (s : State) : (countDraw s).strobe = s.strobe := rfl
@[simp] theorem countDraw_presetInput (s : State) : (countDraw s).presetInput = s.presetInput := rfl
@[simp] theorem countDraw_selectedBus (s : State) : (countDraw s).selectedBus = s.selectedBus := rfl
@[simp] theorem countDraw_out (s : State) : (countDraw s).out = s.out := rfl
@[simp] theorem countDraw_context (s : State) : (countDraw s).context = s.context := rfl
@[simp] theorem countDraw_loopPos (s : State) : (countDraw s).loopPos = s.loopPos := rfl
@[simp] theorem countDraw_cfg (s : State) : (countDraw s).cfg = s.cfg := rfl
@[simp] theorem countDraw_inputs (s : State) : (countDraw s).inputs = s.inputs := rfl
@[simp] theorem countDraw_busAnswers (s : State) : (countDraw s).busAnswers = s.busAnswers := rfl
@[simp] theorem countDraw_muxReads (s : State) : (countDraw s).muxReads = s.muxReads := rfl
@[simp] theorem countDraw_allocAnswers (s : State) : (countDraw s).allocAnswers = s.allocAnswers := rfl
@[simp] theorem countDraw_draws (s : State) : (countDraw s).draws = s.draws + 1 := rfl
@[simp] theorem countDraw_trace (s : State) : (countDraw s).trace = s.trace := rfl

/-! ### lineWrite -/

@[simp] theorem lineWrite_matrix (id : Nat) (v : Bool) (s : State) : (lineWrite id v s).matrix = s.matrix := rfl
@[simp] theorem lineWrite_arena (id : Nat) (v : Bool) (s : State) : (lineWrite id v s).arena = s.arena := rfl
@[simp] theorem lineWrite_cachedPresets (id : Nat) (v : Bool) (s : State) :
    (lineWrite id v s).cachedPresets = s.cachedPresets := rfl
@[simp] theorem lineWrite_cachedDevices (id : Nat) (v : Bool) (s : State) :
    (lineWrite id v s).cachedDevices = s.cachedDevices := rfl
@[simp] theorem lineWrite_busy (id : Nat) (v : Bool) (s : State) : (lineWrite id v s).busy = s.busy := rfl
@[simp] theorem lineWrite_lastStatus (id : Nat) (v : Bool) (s : State) :
    (lineWrite id v s).lastStatus = s.lastStatus := rfl
@[simp] theorem lineWrite_seqState (id : Nat) (v : Bool) (s : State) : (lineWrite id v s).seqState = s.seqState := rfl
@[simp] theorem lineWrite_devIdx (id : Nat) (v : Bool) (s : State) : (lineWrite id v s).devIdx = s.devIdx := rfl
@[simp] theorem lineWrite_seqPreset (id : Nat) (v : Bool) (s : State) :
    (lineWrite id v s).seqPreset = s.seqPreset := rfl
@[simp] theorem lineWrite_precompute (id : Nat) (v : Bool) (s : State) :
    (lineWrite id v s).precompute = s.precompute := rfl
@[simp] theorem lineWrite_response (id : Nat) (v : Bool) (s : State) : (lineWrite id v s).response = s.response := rfl
@[simp] theorem lineWrite_commands (id : Nat) (v : Bool) (s : State) : (lineWrite id v s).commands = s.commands := rfl
@[simp] theorem lineWrite_presetChangeRequested (id : Nat) (v : Bool) (s : State) :
    (lineWrite id v s).presetChangeRequested = s.presetChangeRequested := rfl
@[simp] theorem lineWrite_pulseRequested (id : Nat) (v : Bool) (s : State) :
    (lineWrite id v s).pulseRequested = s.pulseRequested := rfl
@[simp] theorem lineWrite_mailboxMessagePending (id : Nat) (v : Bool) (s : State) :
    (lineWrite id v s).mailboxMessagePending = s.mailboxMessagePending := rfl
@[simp] theorem lineWrite_testSequenceActive (id : Nat) (v : Bool) (s : State) :
    (lineWrite id v s).testSequenceActive = s.testSequenceActive := rfl
@[simp] theorem lineWrite_pendingPreset (id : Nat) (v : Bool) (s : State) :
    (lineWrite id v s).pendingPreset = s.pendingPreset := rfl
@[simp] theorem lineWrite_scanCount (id : Nat) (v : Bool) (s : State) :
    (lineWrite id v s).scanCount = s.scanCount := rfl
@[simp] theorem lineWrite_scanTarget (id : Nat) (v : Bool) (s : State) :
    (lineWrite id v s).scanTarget = s.scanTarget := rfl
@[simp] theorem lineWrite_mailbox (id : Nat) (v : Bool) (s : State) : (lineWrite id v s).mailbox = s.mailbox := rfl
@[simp] theorem lineWrite_pb (id : Nat) (v : Bool) (s : State) : (lineWrite id v s).pb = s.pb := rfl
@[simp] theorem lineWrite_trigger (id : Nat) (v : Bool) (s : State) :
    (lineWrite id v s).trigger = if id = s.cfg.triggerLine then v else s.trigger := rfl
@[simp] theorem lineWrite_strobe (id : Nat) (v : Bool) (s : State) :
    (lineWrite id v s).strobe = if id = s.cfg.strobeLine then v else s.strobe := rfl
@[simp] theorem lineWrite_presetInput (id : Nat) (v : Bool) (s : State) :
    (lineWrite id v s).presetInput = s.presetInput := rfl
@[simp] theorem lineWrite_selectedBus (id : Nat) (v : Bool) (s : State) :
    (lineWrite id v s).selectedBus = s.selectedBus := rfl
@[simp] theorem lineWrite_out (id : Nat) (v : Bool) (s : State) : (lineWrite id v s).out = s.out := rfl
@[simp] theorem lineWrite_context (id : Nat) (v : Bool) (s : State) : (lineWrite id v s).context = s.context := rfl
@[simp] theorem lineWrite_loopPos (id : Nat) (v : Bool) (s : State) : (lineWrite id v s).loopPos = s.loopPos := rfl
@[simp] theorem lineWrite_cfg (id : Nat) (v : Bool) (s : State) : (lineWrite id v s).cfg = s.cfg := rfl
@[simp] theorem lineWrite_inputs (id : Nat) (v : Bool) (s : State) : (lineWrite id v s).inputs = s.inputs := rfl
@[simp] theorem lineWrite_busAnswers (id : Nat) (v : Bool) (s : State) :
    (lineWrite id v s).busAnswers = s.busAnswers := rfl
@[simp] theorem lineWrite_muxReads (id : Nat) (v : Bool) (s : State) : (lineWrite id v s).muxReads = s.muxReads := rfl
@[simp] theorem lineWrite_allocAnswers (id : Nat) (v : Bool) (s : State) :
    (lineWrite id v s).allocAnswers = s.allocAnswers := rfl
@[simp] theorem lineWrite_draws (id : Nat) (v : Bool) (s : State) : (lineWrite id v s).draws = s.draws := rfl
@[simp] theorem lineWrite_trace (id : Nat) (v : Bool) (s : State) :
    (lineWrite id v s).trace = .lineWrite id v :: s.trace := rfl

/-! ### putMailField -/

@[simp] theorem putMailField_matrix (f : MailField) (v : Word32) (s : State) :
    (putMailField f v s).matrix = s.matrix := rfl
@[simp] theorem putMailField_arena (f : MailField) (v : Word32) (s : State) :
    (putMailField f v s).arena = s.arena := rfl
@[simp] theorem putMailField_cachedPresets (f : MailField) (v : Word32) (s : State) :
    (putMailField f v s).cachedPresets = s.cachedPresets := rfl
@[simp] theorem putMailField_cachedDevices (f : MailField) (v : Word32) (s : State) :
    (putMailField f v s).cachedDevices = s.cachedDevices := rfl
@[simp] theorem putMailField_busy (f : MailField) (v : Word32) (s : State) : (putMailField f v s).busy = s.busy := rfl
@[simp] theorem putMailField_lastStatus (f : MailField) (v : Word32) (s : State) :
    (putMailField f v s).lastStatus = s.lastStatus := rfl
@[simp] theorem putMailField_seqState (f : MailField) (v : Word32) (s : State) :
    (putMailField f v s).seqState = s.seqState := rfl
@[simp] theorem putMailField_devIdx (f : MailField) (v : Word32) (s : State) :
    (putMailField f v s).devIdx = s.devIdx := rfl
@[simp] theorem putMailField_seqPreset (f : MailField) (v : Word32) (s : State) :
    (putMailField f v s).seqPreset = s.seqPreset := rfl
@[simp] theorem putMailField_precompute (f : MailField) (v : Word32) (s : State) :
    (putMailField f v s).precompute = s.precompute := rfl
@[simp] theorem putMailField_response (f : MailField) (v : Word32) (s : State) :
    (putMailField f v s).response = s.response := rfl
@[simp] theorem putMailField_commands (f : MailField) (v : Word32) (s : State) :
    (putMailField f v s).commands = s.commands := rfl
@[simp] theorem putMailField_presetChangeRequested (f : MailField) (v : Word32) (s : State) :
    (putMailField f v s).presetChangeRequested = s.presetChangeRequested := rfl
@[simp] theorem putMailField_pulseRequested (f : MailField) (v : Word32) (s : State) :
    (putMailField f v s).pulseRequested = s.pulseRequested := rfl
@[simp] theorem putMailField_mailboxMessagePending (f : MailField) (v : Word32) (s : State) :
    (putMailField f v s).mailboxMessagePending = s.mailboxMessagePending := rfl
@[simp] theorem putMailField_testSequenceActive (f : MailField) (v : Word32) (s : State) :
    (putMailField f v s).testSequenceActive = s.testSequenceActive := rfl
@[simp] theorem putMailField_pendingPreset (f : MailField) (v : Word32) (s : State) :
    (putMailField f v s).pendingPreset = s.pendingPreset := rfl
@[simp] theorem putMailField_scanCount (f : MailField) (v : Word32) (s : State) :
    (putMailField f v s).scanCount = s.scanCount := rfl
@[simp] theorem putMailField_scanTarget (f : MailField) (v : Word32) (s : State) :
    (putMailField f v s).scanTarget = s.scanTarget := rfl
@[simp] theorem putMailField_mailbox (f : MailField) (v : Word32) (s : State) :
    (putMailField f v s).mailbox = memPutWord s.cfg.mailboxByteOrder s.mailbox (mailboxAddr s.cfg (fieldOffset f)) v := rfl
@[simp] theorem putMailField_pb (f : MailField) (v : Word32) (s : State) : (putMailField f v s).pb = s.pb := rfl
@[simp] theorem putMailField_trigger (f : MailField) (v : Word32) (s : State) :
    (putMailField f v s).trigger = s.trigger := rfl
@[simp] theorem putMailField_strobe (f : MailField) (v : Word32) (s : State) :
    (putMailField f v s).strobe = s.strobe := rfl
@[simp] theorem putMailField_presetInput (f : MailField) (v : Word32) (s : State) :
    (putMailField f v s).presetInput = s.presetInput := rfl
@[simp] theorem putMailField_selectedBus (f : MailField) (v : Word32) (s : State) :
    (putMailField f v s).selectedBus = s.selectedBus := rfl
@[simp] theorem putMailField_out (f : MailField) (v : Word32) (s : State) : (putMailField f v s).out = s.out := rfl
@[simp] theorem putMailField_context (f : MailField) (v : Word32) (s : State) :
    (putMailField f v s).context = s.context := rfl
@[simp] theorem putMailField_loopPos (f : MailField) (v : Word32) (s : State) :
    (putMailField f v s).loopPos = s.loopPos := rfl
@[simp] theorem putMailField_cfg (f : MailField) (v : Word32) (s : State) : (putMailField f v s).cfg = s.cfg := rfl
@[simp] theorem putMailField_inputs (f : MailField) (v : Word32) (s : State) :
    (putMailField f v s).inputs = s.inputs := rfl
@[simp] theorem putMailField_busAnswers (f : MailField) (v : Word32) (s : State) :
    (putMailField f v s).busAnswers = s.busAnswers := rfl
@[simp] theorem putMailField_muxReads (f : MailField) (v : Word32) (s : State) :
    (putMailField f v s).muxReads = s.muxReads := rfl
@[simp] theorem putMailField_allocAnswers (f : MailField) (v : Word32) (s : State) :
    (putMailField f v s).allocAnswers = s.allocAnswers := rfl
@[simp] theorem putMailField_draws (f : MailField) (v : Word32) (s : State) :
    (putMailField f v s).draws = s.draws := rfl
@[simp] theorem putMailField_trace (f : MailField) (v : Word32) (s : State) :
    (putMailField f v s).trace = s.trace := rfl

/-! ### putMailPayload -/

@[simp] theorem putMailPayload_matrix (i : Nat) (b : Byte) (s : State) :
    (putMailPayload i b s).matrix = s.matrix := rfl
@[simp] theorem putMailPayload_arena (i : Nat) (b : Byte) (s : State) : (putMailPayload i b s).arena = s.arena := rfl
@[simp] theorem putMailPayload_cachedPresets (i : Nat) (b : Byte) (s : State) :
    (putMailPayload i b s).cachedPresets = s.cachedPresets := rfl
@[simp] theorem putMailPayload_cachedDevices (i : Nat) (b : Byte) (s : State) :
    (putMailPayload i b s).cachedDevices = s.cachedDevices := rfl
@[simp] theorem putMailPayload_busy (i : Nat) (b : Byte) (s : State) : (putMailPayload i b s).busy = s.busy := rfl
@[simp] theorem putMailPayload_lastStatus (i : Nat) (b : Byte) (s : State) :
    (putMailPayload i b s).lastStatus = s.lastStatus := rfl
@[simp] theorem putMailPayload_seqState (i : Nat) (b : Byte) (s : State) :
    (putMailPayload i b s).seqState = s.seqState := rfl
@[simp] theorem putMailPayload_devIdx (i : Nat) (b : Byte) (s : State) :
    (putMailPayload i b s).devIdx = s.devIdx := rfl
@[simp] theorem putMailPayload_seqPreset (i : Nat) (b : Byte) (s : State) :
    (putMailPayload i b s).seqPreset = s.seqPreset := rfl
@[simp] theorem putMailPayload_precompute (i : Nat) (b : Byte) (s : State) :
    (putMailPayload i b s).precompute = s.precompute := rfl
@[simp] theorem putMailPayload_response (i : Nat) (b : Byte) (s : State) :
    (putMailPayload i b s).response = s.response := rfl
@[simp] theorem putMailPayload_commands (i : Nat) (b : Byte) (s : State) :
    (putMailPayload i b s).commands = s.commands := rfl
@[simp] theorem putMailPayload_presetChangeRequested (i : Nat) (b : Byte) (s : State) :
    (putMailPayload i b s).presetChangeRequested = s.presetChangeRequested := rfl
@[simp] theorem putMailPayload_pulseRequested (i : Nat) (b : Byte) (s : State) :
    (putMailPayload i b s).pulseRequested = s.pulseRequested := rfl
@[simp] theorem putMailPayload_mailboxMessagePending (i : Nat) (b : Byte) (s : State) :
    (putMailPayload i b s).mailboxMessagePending = s.mailboxMessagePending := rfl
@[simp] theorem putMailPayload_testSequenceActive (i : Nat) (b : Byte) (s : State) :
    (putMailPayload i b s).testSequenceActive = s.testSequenceActive := rfl
@[simp] theorem putMailPayload_pendingPreset (i : Nat) (b : Byte) (s : State) :
    (putMailPayload i b s).pendingPreset = s.pendingPreset := rfl
@[simp] theorem putMailPayload_scanCount (i : Nat) (b : Byte) (s : State) :
    (putMailPayload i b s).scanCount = s.scanCount := rfl
@[simp] theorem putMailPayload_scanTarget (i : Nat) (b : Byte) (s : State) :
    (putMailPayload i b s).scanTarget = s.scanTarget := rfl
@[simp] theorem putMailPayload_mailbox (i : Nat) (b : Byte) (s : State) :
    (putMailPayload i b s).mailbox = s.mailbox.write (mailboxAddr s.cfg (mailboxHeaderBytes + i)) b := rfl
@[simp] theorem putMailPayload_pb (i : Nat) (b : Byte) (s : State) : (putMailPayload i b s).pb = s.pb := rfl
@[simp] theorem putMailPayload_trigger (i : Nat) (b : Byte) (s : State) :
    (putMailPayload i b s).trigger = s.trigger := rfl
@[simp] theorem putMailPayload_strobe (i : Nat) (b : Byte) (s : State) :
    (putMailPayload i b s).strobe = s.strobe := rfl
@[simp] theorem putMailPayload_presetInput (i : Nat) (b : Byte) (s : State) :
    (putMailPayload i b s).presetInput = s.presetInput := rfl
@[simp] theorem putMailPayload_selectedBus (i : Nat) (b : Byte) (s : State) :
    (putMailPayload i b s).selectedBus = s.selectedBus := rfl
@[simp] theorem putMailPayload_out (i : Nat) (b : Byte) (s : State) : (putMailPayload i b s).out = s.out := rfl
@[simp] theorem putMailPayload_context (i : Nat) (b : Byte) (s : State) :
    (putMailPayload i b s).context = s.context := rfl
@[simp] theorem putMailPayload_loopPos (i : Nat) (b : Byte) (s : State) :
    (putMailPayload i b s).loopPos = s.loopPos := rfl
@[simp] theorem putMailPayload_cfg (i : Nat) (b : Byte) (s : State) : (putMailPayload i b s).cfg = s.cfg := rfl
@[simp] theorem putMailPayload_inputs (i : Nat) (b : Byte) (s : State) :
    (putMailPayload i b s).inputs = s.inputs := rfl
@[simp] theorem putMailPayload_busAnswers (i : Nat) (b : Byte) (s : State) :
    (putMailPayload i b s).busAnswers = s.busAnswers := rfl
@[simp] theorem putMailPayload_muxReads (i : Nat) (b : Byte) (s : State) :
    (putMailPayload i b s).muxReads = s.muxReads := rfl
@[simp] theorem putMailPayload_allocAnswers (i : Nat) (b : Byte) (s : State) :
    (putMailPayload i b s).allocAnswers = s.allocAnswers := rfl
@[simp] theorem putMailPayload_draws (i : Nat) (b : Byte) (s : State) : (putMailPayload i b s).draws = s.draws := rfl
@[simp] theorem putMailPayload_trace (i : Nat) (b : Byte) (s : State) : (putMailPayload i b s).trace = s.trace := rfl

/-! ### copyMessage -/

@[simp] theorem copyMessage_matrix (s : State) : (copyMessage s).matrix = s.matrix := rfl
@[simp] theorem copyMessage_arena (s : State) : (copyMessage s).arena = s.arena := rfl
@[simp] theorem copyMessage_cachedPresets (s : State) : (copyMessage s).cachedPresets = s.cachedPresets := rfl
@[simp] theorem copyMessage_cachedDevices (s : State) : (copyMessage s).cachedDevices = s.cachedDevices := rfl
@[simp] theorem copyMessage_busy (s : State) : (copyMessage s).busy = s.busy := rfl
@[simp] theorem copyMessage_lastStatus (s : State) : (copyMessage s).lastStatus = s.lastStatus := rfl
@[simp] theorem copyMessage_seqState (s : State) : (copyMessage s).seqState = s.seqState := rfl
@[simp] theorem copyMessage_devIdx (s : State) : (copyMessage s).devIdx = s.devIdx := rfl
@[simp] theorem copyMessage_seqPreset (s : State) : (copyMessage s).seqPreset = s.seqPreset := rfl
@[simp] theorem copyMessage_precompute (s : State) : (copyMessage s).precompute = s.precompute := rfl
@[simp] theorem copyMessage_response (s : State) : (copyMessage s).response = s.response := rfl
@[simp] theorem copyMessage_commands (s : State) : (copyMessage s).commands = s.commands := rfl
@[simp] theorem copyMessage_presetChangeRequested (s : State) :
    (copyMessage s).presetChangeRequested = s.presetChangeRequested := rfl
@[simp] theorem copyMessage_pulseRequested (s : State) : (copyMessage s).pulseRequested = s.pulseRequested := rfl
@[simp] theorem copyMessage_mailboxMessagePending (s : State) :
    (copyMessage s).mailboxMessagePending = s.mailboxMessagePending := rfl
@[simp] theorem copyMessage_testSequenceActive (s : State) :
    (copyMessage s).testSequenceActive = s.testSequenceActive := rfl
@[simp] theorem copyMessage_pendingPreset (s : State) : (copyMessage s).pendingPreset = s.pendingPreset := rfl
@[simp] theorem copyMessage_scanCount (s : State) : (copyMessage s).scanCount = s.scanCount := rfl
@[simp] theorem copyMessage_scanTarget (s : State) : (copyMessage s).scanTarget = s.scanTarget := rfl
@[simp] theorem copyMessage_mailbox (s : State) : (copyMessage s).mailbox = s.mailbox := rfl
@[simp] theorem copyMessage_pb (s : State) :
    (copyMessage s).pb = { cmd := mailField s .cmd, len := mailField s .len, payload := copyPayload (mailField s .len).toNat s } := rfl
@[simp] theorem copyMessage_trigger (s : State) : (copyMessage s).trigger = s.trigger := rfl
@[simp] theorem copyMessage_strobe (s : State) : (copyMessage s).strobe = s.strobe := rfl
@[simp] theorem copyMessage_presetInput (s : State) : (copyMessage s).presetInput = s.presetInput := rfl
@[simp] theorem copyMessage_selectedBus (s : State) : (copyMessage s).selectedBus = s.selectedBus := rfl
@[simp] theorem copyMessage_out (s : State) : (copyMessage s).out = s.out := rfl
@[simp] theorem copyMessage_context (s : State) : (copyMessage s).context = s.context := rfl
@[simp] theorem copyMessage_loopPos (s : State) : (copyMessage s).loopPos = s.loopPos := rfl
@[simp] theorem copyMessage_cfg (s : State) : (copyMessage s).cfg = s.cfg := rfl
@[simp] theorem copyMessage_inputs (s : State) : (copyMessage s).inputs = s.inputs := rfl
@[simp] theorem copyMessage_busAnswers (s : State) : (copyMessage s).busAnswers = s.busAnswers := rfl
@[simp] theorem copyMessage_muxReads (s : State) : (copyMessage s).muxReads = s.muxReads := rfl
@[simp] theorem copyMessage_allocAnswers (s : State) : (copyMessage s).allocAnswers = s.allocAnswers := rfl
@[simp] theorem copyMessage_draws (s : State) : (copyMessage s).draws = s.draws := rfl

/-! ### setPresetInput -/

@[simp] theorem setPresetInput_matrix (v : Byte) (s : State) : (setPresetInput v s).matrix = s.matrix := rfl
@[simp] theorem setPresetInput_arena (v : Byte) (s : State) : (setPresetInput v s).arena = s.arena := rfl
@[simp] theorem setPresetInput_cachedPresets (v : Byte) (s : State) :
    (setPresetInput v s).cachedPresets = s.cachedPresets := rfl
@[simp] theorem setPresetInput_cachedDevices (v : Byte) (s : State) :
    (setPresetInput v s).cachedDevices = s.cachedDevices := rfl
@[simp] theorem setPresetInput_busy (v : Byte) (s : State) : (setPresetInput v s).busy = s.busy := rfl
@[simp] theorem setPresetInput_lastStatus (v : Byte) (s : State) :
    (setPresetInput v s).lastStatus = s.lastStatus := rfl
@[simp] theorem setPresetInput_seqState (v : Byte) (s : State) : (setPresetInput v s).seqState = s.seqState := rfl
@[simp] theorem setPresetInput_devIdx (v : Byte) (s : State) : (setPresetInput v s).devIdx = s.devIdx := rfl
@[simp] theorem setPresetInput_seqPreset (v : Byte) (s : State) : (setPresetInput v s).seqPreset = s.seqPreset := rfl
@[simp] theorem setPresetInput_precompute (v : Byte) (s : State) :
    (setPresetInput v s).precompute = s.precompute := rfl
@[simp] theorem setPresetInput_response (v : Byte) (s : State) : (setPresetInput v s).response = s.response := rfl
@[simp] theorem setPresetInput_commands (v : Byte) (s : State) : (setPresetInput v s).commands = s.commands := rfl
@[simp] theorem setPresetInput_presetChangeRequested (v : Byte) (s : State) :
    (setPresetInput v s).presetChangeRequested = s.presetChangeRequested := rfl
@[simp] theorem setPresetInput_pulseRequested (v : Byte) (s : State) :
    (setPresetInput v s).pulseRequested = s.pulseRequested := rfl
@[simp] theorem setPresetInput_mailboxMessagePending (v : Byte) (s : State) :
    (setPresetInput v s).mailboxMessagePending = s.mailboxMessagePending := rfl
@[simp] theorem setPresetInput_testSequenceActive (v : Byte) (s : State) :
    (setPresetInput v s).testSequenceActive = s.testSequenceActive := rfl
@[simp] theorem setPresetInput_pendingPreset (v : Byte) (s : State) :
    (setPresetInput v s).pendingPreset = s.pendingPreset := rfl
@[simp] theorem setPresetInput_scanCount (v : Byte) (s : State) : (setPresetInput v s).scanCount = s.scanCount := rfl
@[simp] theorem setPresetInput_scanTarget (v : Byte) (s : State) :
    (setPresetInput v s).scanTarget = s.scanTarget := rfl
@[simp] theorem setPresetInput_mailbox (v : Byte) (s : State) : (setPresetInput v s).mailbox = s.mailbox := rfl
@[simp] theorem setPresetInput_pb (v : Byte) (s : State) : (setPresetInput v s).pb = s.pb := rfl
@[simp] theorem setPresetInput_trigger (v : Byte) (s : State) : (setPresetInput v s).trigger = s.trigger := rfl
@[simp] theorem setPresetInput_strobe (v : Byte) (s : State) : (setPresetInput v s).strobe = s.strobe := rfl
@[simp] theorem setPresetInput_presetInput (v : Byte) (s : State) :
    (setPresetInput v s).presetInput = sampledValue s.cfg v := rfl
@[simp] theorem setPresetInput_selectedBus (v : Byte) (s : State) :
    (setPresetInput v s).selectedBus = s.selectedBus := rfl
@[simp] theorem setPresetInput_out (v : Byte) (s : State) : (setPresetInput v s).out = s.out := rfl
@[simp] theorem setPresetInput_context (v : Byte) (s : State) : (setPresetInput v s).context = s.context := rfl
@[simp] theorem setPresetInput_loopPos (v : Byte) (s : State) : (setPresetInput v s).loopPos = s.loopPos := rfl
@[simp] theorem setPresetInput_cfg (v : Byte) (s : State) : (setPresetInput v s).cfg = s.cfg := rfl
@[simp] theorem setPresetInput_inputs (v : Byte) (s : State) : (setPresetInput v s).inputs = s.inputs := rfl
@[simp] theorem setPresetInput_busAnswers (v : Byte) (s : State) :
    (setPresetInput v s).busAnswers = s.busAnswers := rfl
@[simp] theorem setPresetInput_muxReads (v : Byte) (s : State) : (setPresetInput v s).muxReads = s.muxReads := rfl
@[simp] theorem setPresetInput_allocAnswers (v : Byte) (s : State) :
    (setPresetInput v s).allocAnswers = s.allocAnswers := rfl
@[simp] theorem setPresetInput_draws (v : Byte) (s : State) : (setPresetInput v s).draws = s.draws := rfl
@[simp] theorem setPresetInput_trace (v : Byte) (s : State) : (setPresetInput v s).trace = s.trace := rfl

/-! ### requestPreset -/

@[simp] theorem requestPreset_matrix (v : Byte) (s : State) : (requestPreset v s).matrix = s.matrix := rfl
@[simp] theorem requestPreset_arena (v : Byte) (s : State) : (requestPreset v s).arena = s.arena := rfl
@[simp] theorem requestPreset_cachedPresets (v : Byte) (s : State) :
    (requestPreset v s).cachedPresets = s.cachedPresets := rfl
@[simp] theorem requestPreset_cachedDevices (v : Byte) (s : State) :
    (requestPreset v s).cachedDevices = s.cachedDevices := rfl
@[simp] theorem requestPreset_busy (v : Byte) (s : State) : (requestPreset v s).busy = s.busy := rfl
@[simp] theorem requestPreset_lastStatus (v : Byte) (s : State) : (requestPreset v s).lastStatus = s.lastStatus := rfl
@[simp] theorem requestPreset_seqState (v : Byte) (s : State) : (requestPreset v s).seqState = s.seqState := rfl
@[simp] theorem requestPreset_devIdx (v : Byte) (s : State) : (requestPreset v s).devIdx = s.devIdx := rfl
@[simp] theorem requestPreset_seqPreset (v : Byte) (s : State) : (requestPreset v s).seqPreset = s.seqPreset := rfl
@[simp] theorem requestPreset_precompute (v : Byte) (s : State) : (requestPreset v s).precompute = s.precompute := rfl
@[simp] theorem requestPreset_response (v : Byte) (s : State) : (requestPreset v s).response = s.response := rfl
@[simp] theorem requestPreset_commands (v : Byte) (s : State) : (requestPreset v s).commands = s.commands := rfl
@[simp] theorem requestPreset_presetChangeRequested (v : Byte) (s : State) :
    (requestPreset v s).presetChangeRequested = true := rfl
@[simp] theorem requestPreset_pulseRequested (v : Byte) (s : State) :
    (requestPreset v s).pulseRequested = s.pulseRequested := rfl
@[simp] theorem requestPreset_mailboxMessagePending (v : Byte) (s : State) :
    (requestPreset v s).mailboxMessagePending = s.mailboxMessagePending := rfl
@[simp] theorem requestPreset_testSequenceActive (v : Byte) (s : State) :
    (requestPreset v s).testSequenceActive = s.testSequenceActive := rfl
@[simp] theorem requestPreset_pendingPreset (v : Byte) (s : State) : (requestPreset v s).pendingPreset = v := rfl
@[simp] theorem requestPreset_scanCount (v : Byte) (s : State) : (requestPreset v s).scanCount = s.scanCount := rfl
@[simp] theorem requestPreset_scanTarget (v : Byte) (s : State) : (requestPreset v s).scanTarget = s.scanTarget := rfl
@[simp] theorem requestPreset_mailbox (v : Byte) (s : State) : (requestPreset v s).mailbox = s.mailbox := rfl
@[simp] theorem requestPreset_pb (v : Byte) (s : State) : (requestPreset v s).pb = s.pb := rfl
@[simp] theorem requestPreset_trigger (v : Byte) (s : State) : (requestPreset v s).trigger = s.trigger := rfl
@[simp] theorem requestPreset_strobe (v : Byte) (s : State) : (requestPreset v s).strobe = s.strobe := rfl
@[simp] theorem requestPreset_presetInput (v : Byte) (s : State) :
    (requestPreset v s).presetInput = s.presetInput := rfl
@[simp] theorem requestPreset_selectedBus (v : Byte) (s : State) :
    (requestPreset v s).selectedBus = s.selectedBus := rfl
@[simp] theorem requestPreset_out (v : Byte) (s : State) : (requestPreset v s).out = s.out := rfl
@[simp] theorem requestPreset_context (v : Byte) (s : State) : (requestPreset v s).context = s.context := rfl
@[simp] theorem requestPreset_loopPos (v : Byte) (s : State) : (requestPreset v s).loopPos = s.loopPos := rfl
@[simp] theorem requestPreset_cfg (v : Byte) (s : State) : (requestPreset v s).cfg = s.cfg := rfl
@[simp] theorem requestPreset_inputs (v : Byte) (s : State) : (requestPreset v s).inputs = s.inputs := rfl
@[simp] theorem requestPreset_busAnswers (v : Byte) (s : State) : (requestPreset v s).busAnswers = s.busAnswers := rfl
@[simp] theorem requestPreset_muxReads (v : Byte) (s : State) : (requestPreset v s).muxReads = s.muxReads := rfl
@[simp] theorem requestPreset_allocAnswers (v : Byte) (s : State) :
    (requestPreset v s).allocAnswers = s.allocAnswers := rfl
@[simp] theorem requestPreset_draws (v : Byte) (s : State) : (requestPreset v s).draws = s.draws := rfl
@[simp] theorem requestPreset_trace (v : Byte) (s : State) : (requestPreset v s).trace = s.trace := rfl

/-! ### requestPulse -/

@[simp] theorem requestPulse_matrix (b : Bool) (s : State) : (requestPulse b s).matrix = s.matrix := rfl
@[simp] theorem requestPulse_arena (b : Bool) (s : State) : (requestPulse b s).arena = s.arena := rfl
@[simp] theorem requestPulse_cachedPresets (b : Bool) (s : State) :
    (requestPulse b s).cachedPresets = s.cachedPresets := rfl
@[simp] theorem requestPulse_cachedDevices (b : Bool) (s : State) :
    (requestPulse b s).cachedDevices = s.cachedDevices := rfl
@[simp] theorem requestPulse_busy (b : Bool) (s : State) : (requestPulse b s).busy = s.busy := rfl
@[simp] theorem requestPulse_lastStatus (b : Bool) (s : State) : (requestPulse b s).lastStatus = s.lastStatus := rfl
@[simp] theorem requestPulse_seqState (b : Bool) (s : State) : (requestPulse b s).seqState = s.seqState := rfl
@[simp] theorem requestPulse_devIdx (b : Bool) (s : State) : (requestPulse b s).devIdx = s.devIdx := rfl
@[simp] theorem requestPulse_seqPreset (b : Bool) (s : State) : (requestPulse b s).seqPreset = s.seqPreset := rfl
@[simp] theorem requestPulse_precompute (b : Bool) (s : State) : (requestPulse b s).precompute = s.precompute := rfl
@[simp] theorem requestPulse_response (b : Bool) (s : State) : (requestPulse b s).response = s.response := rfl
@[simp] theorem requestPulse_commands (b : Bool) (s : State) : (requestPulse b s).commands = s.commands := rfl
@[simp] theorem requestPulse_presetChangeRequested (b : Bool) (s : State) :
    (requestPulse b s).presetChangeRequested = s.presetChangeRequested := rfl
@[simp] theorem requestPulse_pulseRequested (b : Bool) (s : State) :
    (requestPulse b s).pulseRequested = (s.pulseRequested || b) := rfl
@[simp] theorem requestPulse_mailboxMessagePending (b : Bool) (s : State) :
    (requestPulse b s).mailboxMessagePending = s.mailboxMessagePending := rfl
@[simp] theorem requestPulse_testSequenceActive (b : Bool) (s : State) :
    (requestPulse b s).testSequenceActive = s.testSequenceActive := rfl
@[simp] theorem requestPulse_pendingPreset (b : Bool) (s : State) :
    (requestPulse b s).pendingPreset = s.pendingPreset := rfl
@[simp] theorem requestPulse_scanCount (b : Bool) (s : State) : (requestPulse b s).scanCount = s.scanCount := rfl
@[simp] theorem requestPulse_scanTarget (b : Bool) (s : State) : (requestPulse b s).scanTarget = s.scanTarget := rfl
@[simp] theorem requestPulse_mailbox (b : Bool) (s : State) : (requestPulse b s).mailbox = s.mailbox := rfl
@[simp] theorem requestPulse_pb (b : Bool) (s : State) : (requestPulse b s).pb = s.pb := rfl
@[simp] theorem requestPulse_trigger (b : Bool) (s : State) : (requestPulse b s).trigger = s.trigger := rfl
@[simp] theorem requestPulse_strobe (b : Bool) (s : State) : (requestPulse b s).strobe = s.strobe := rfl
@[simp] theorem requestPulse_presetInput (b : Bool) (s : State) :
    (requestPulse b s).presetInput = s.presetInput := rfl
@[simp] theorem requestPulse_selectedBus (b : Bool) (s : State) :
    (requestPulse b s).selectedBus = s.selectedBus := rfl
@[simp] theorem requestPulse_out (b : Bool) (s : State) : (requestPulse b s).out = s.out := rfl
@[simp] theorem requestPulse_context (b : Bool) (s : State) : (requestPulse b s).context = s.context := rfl
@[simp] theorem requestPulse_loopPos (b : Bool) (s : State) : (requestPulse b s).loopPos = s.loopPos := rfl
@[simp] theorem requestPulse_cfg (b : Bool) (s : State) : (requestPulse b s).cfg = s.cfg := rfl
@[simp] theorem requestPulse_inputs (b : Bool) (s : State) : (requestPulse b s).inputs = s.inputs := rfl
@[simp] theorem requestPulse_busAnswers (b : Bool) (s : State) : (requestPulse b s).busAnswers = s.busAnswers := rfl
@[simp] theorem requestPulse_muxReads (b : Bool) (s : State) : (requestPulse b s).muxReads = s.muxReads := rfl
@[simp] theorem requestPulse_allocAnswers (b : Bool) (s : State) :
    (requestPulse b s).allocAnswers = s.allocAnswers := rfl
@[simp] theorem requestPulse_draws (b : Bool) (s : State) : (requestPulse b s).draws = s.draws := rfl
@[simp] theorem requestPulse_trace (b : Bool) (s : State) : (requestPulse b s).trace = s.trace := rfl

/-! ### setMailPending -/

@[simp] theorem setMailPending_matrix (s : State) : (setMailPending s).matrix = s.matrix := rfl
@[simp] theorem setMailPending_arena (s : State) : (setMailPending s).arena = s.arena := rfl
@[simp] theorem setMailPending_cachedPresets (s : State) : (setMailPending s).cachedPresets = s.cachedPresets := rfl
@[simp] theorem setMailPending_cachedDevices (s : State) : (setMailPending s).cachedDevices = s.cachedDevices := rfl
@[simp] theorem setMailPending_busy (s : State) : (setMailPending s).busy = s.busy := rfl
@[simp] theorem setMailPending_lastStatus (s : State) : (setMailPending s).lastStatus = s.lastStatus := rfl
@[simp] theorem setMailPending_seqState (s : State) : (setMailPending s).seqState = s.seqState := rfl
@[simp] theorem setMailPending_devIdx (s : State) : (setMailPending s).devIdx = s.devIdx := rfl
@[simp] theorem setMailPending_seqPreset (s : State) : (setMailPending s).seqPreset = s.seqPreset := rfl
@[simp] theorem setMailPending_precompute (s : State) : (setMailPending s).precompute = s.precompute := rfl
@[simp] theorem setMailPending_response (s : State) : (setMailPending s).response = s.response := rfl
@[simp] theorem setMailPending_commands (s : State) : (setMailPending s).commands = s.commands := rfl
@[simp] theorem setMailPending_presetChangeRequested (s : State) :
    (setMailPending s).presetChangeRequested = s.presetChangeRequested := rfl
@[simp] theorem setMailPending_pulseRequested (s : State) :
    (setMailPending s).pulseRequested = s.pulseRequested := rfl
@[simp] theorem setMailPending_mailboxMessagePending (s : State) :
    (setMailPending s).mailboxMessagePending = true := rfl
@[simp] theorem setMailPending_testSequenceActive (s : State) :
    (setMailPending s).testSequenceActive = s.testSequenceActive := rfl
@[simp] theorem setMailPending_pendingPreset (s : State) : (setMailPending s).pendingPreset = s.pendingPreset := rfl
@[simp] theorem setMailPending_scanCount (s : State) : (setMailPending s).scanCount = s.scanCount := rfl
@[simp] theorem setMailPending_scanTarget (s : State) : (setMailPending s).scanTarget = s.scanTarget := rfl
@[simp] theorem setMailPending_mailbox (s : State) : (setMailPending s).mailbox = s.mailbox := rfl
@[simp] theorem setMailPending_pb (s : State) : (setMailPending s).pb = s.pb := rfl
@[simp] theorem setMailPending_trigger (s : State) : (setMailPending s).trigger = s.trigger := rfl
@[simp] theorem setMailPending_strobe (s : State) : (setMailPending s).strobe = s.strobe := rfl
@[simp] theorem setMailPending_presetInput (s : State) : (setMailPending s).presetInput = s.presetInput := rfl
@[simp] theorem setMailPending_selectedBus (s : State) : (setMailPending s).selectedBus = s.selectedBus := rfl
@[simp] theorem setMailPending_out (s : State) : (setMailPending s).out = s.out := rfl
@[simp] theorem setMailPending_context (s : State) : (setMailPending s).context = s.context := rfl
@[simp] theorem setMailPending_loopPos (s : State) : (setMailPending s).loopPos = s.loopPos := rfl
@[simp] theorem setMailPending_cfg (s : State) : (setMailPending s).cfg = s.cfg := rfl
@[simp] theorem setMailPending_inputs (s : State) : (setMailPending s).inputs = s.inputs := rfl
@[simp] theorem setMailPending_busAnswers (s : State) : (setMailPending s).busAnswers = s.busAnswers := rfl
@[simp] theorem setMailPending_muxReads (s : State) : (setMailPending s).muxReads = s.muxReads := rfl
@[simp] theorem setMailPending_allocAnswers (s : State) : (setMailPending s).allocAnswers = s.allocAnswers := rfl
@[simp] theorem setMailPending_draws (s : State) : (setMailPending s).draws = s.draws := rfl
@[simp] theorem setMailPending_trace (s : State) : (setMailPending s).trace = s.trace := rfl

/-! ### clearPresetChange -/

@[simp] theorem clearPresetChange_matrix (s : State) : (clearPresetChange s).matrix = s.matrix := rfl
@[simp] theorem clearPresetChange_arena (s : State) : (clearPresetChange s).arena = s.arena := rfl
@[simp] theorem clearPresetChange_cachedPresets (s : State) :
    (clearPresetChange s).cachedPresets = s.cachedPresets := rfl
@[simp] theorem clearPresetChange_cachedDevices (s : State) :
    (clearPresetChange s).cachedDevices = s.cachedDevices := rfl
@[simp] theorem clearPresetChange_busy (s : State) : (clearPresetChange s).busy = s.busy := rfl
@[simp] theorem clearPresetChange_lastStatus (s : State) : (clearPresetChange s).lastStatus = s.lastStatus := rfl
@[simp] theorem clearPresetChange_seqState (s : State) : (clearPresetChange s).seqState = s.seqState := rfl
@[simp] theorem clearPresetChange_devIdx (s : State) : (clearPresetChange s).devIdx = s.devIdx := rfl
@[simp] theorem clearPresetChange_seqPreset (s : State) : (clearPresetChange s).seqPreset = s.seqPreset := rfl
@[simp] theorem clearPresetChange_precompute (s : State) : (clearPresetChange s).precompute = s.precompute := rfl
@[simp] theorem clearPresetChange_response (s : State) : (clearPresetChange s).response = s.response := rfl
@[simp] theorem clearPresetChange_commands (s : State) : (clearPresetChange s).commands = s.commands := rfl
@[simp] theorem clearPresetChange_presetChangeRequested (s : State) :
    (clearPresetChange s).presetChangeRequested = false := rfl
@[simp] theorem clearPresetChange_pulseRequested (s : State) :
    (clearPresetChange s).pulseRequested = s.pulseRequested := rfl
@[simp] theorem clearPresetChange_mailboxMessagePending (s : State) :
    (clearPresetChange s).mailboxMessagePending = s.mailboxMessagePending := rfl
@[simp] theorem clearPresetChange_testSequenceActive (s : State) :
    (clearPresetChange s).testSequenceActive = s.testSequenceActive := rfl
@[simp] theorem clearPresetChange_pendingPreset (s : State) :
    (clearPresetChange s).pendingPreset = s.pendingPreset := rfl
@[simp] theorem clearPresetChange_scanCount (s : State) : (clearPresetChange s).scanCount = s.scanCount := rfl
@[simp] theorem clearPresetChange_scanTarget (s : State) : (clearPresetChange s).scanTarget = s.scanTarget := rfl
@[simp] theorem clearPresetChange_mailbox (s : State) : (clearPresetChange s).mailbox = s.mailbox := rfl
@[simp] theorem clearPresetChange_pb (s : State) : (clearPresetChange s).pb = s.pb := rfl
@[simp] theorem clearPresetChange_trigger (s : State) : (clearPresetChange s).trigger = s.trigger := rfl
@[simp] theorem clearPresetChange_strobe (s : State) : (clearPresetChange s).strobe = s.strobe := rfl
@[simp] theorem clearPresetChange_presetInput (s : State) : (clearPresetChange s).presetInput = s.presetInput := rfl
@[simp] theorem clearPresetChange_selectedBus (s : State) : (clearPresetChange s).selectedBus = s.selectedBus := rfl
@[simp] theorem clearPresetChange_out (s : State) : (clearPresetChange s).out = s.out := rfl
@[simp] theorem clearPresetChange_context (s : State) : (clearPresetChange s).context = s.context := rfl
@[simp] theorem clearPresetChange_loopPos (s : State) : (clearPresetChange s).loopPos = s.loopPos := rfl
@[simp] theorem clearPresetChange_cfg (s : State) : (clearPresetChange s).cfg = s.cfg := rfl
@[simp] theorem clearPresetChange_inputs (s : State) : (clearPresetChange s).inputs = s.inputs := rfl
@[simp] theorem clearPresetChange_busAnswers (s : State) : (clearPresetChange s).busAnswers = s.busAnswers := rfl
@[simp] theorem clearPresetChange_muxReads (s : State) : (clearPresetChange s).muxReads = s.muxReads := rfl
@[simp] theorem clearPresetChange_allocAnswers (s : State) :
    (clearPresetChange s).allocAnswers = s.allocAnswers := rfl
@[simp] theorem clearPresetChange_draws (s : State) : (clearPresetChange s).draws = s.draws := rfl
@[simp] theorem clearPresetChange_trace (s : State) : (clearPresetChange s).trace = s.trace := rfl

/-! ### clearPulse -/

@[simp] theorem clearPulse_matrix (s : State) : (clearPulse s).matrix = s.matrix := rfl
@[simp] theorem clearPulse_arena (s : State) : (clearPulse s).arena = s.arena := rfl
@[simp] theorem clearPulse_cachedPresets (s : State) : (clearPulse s).cachedPresets = s.cachedPresets := rfl
@[simp] theorem clearPulse_cachedDevices (s : State) : (clearPulse s).cachedDevices = s.cachedDevices := rfl
@[simp] theorem clearPulse_busy (s : State) : (clearPulse s).busy = s.busy := rfl
@[simp] theorem clearPulse_lastStatus (s : State) : (clearPulse s).lastStatus = s.lastStatus := rfl
@[simp] theorem clearPulse_seqState (s : State) : (clearPulse s).seqState = s.seqState := rfl
@[simp] theorem clearPulse_devIdx (s : State) : (clearPulse s).devIdx = s.devIdx := rfl
@[simp] theorem clearPulse_seqPreset (s : State) : (clearPulse s).seqPreset = s.seqPreset := rfl
@[simp] theorem clearPulse_precompute (s : State) : (clearPulse s).precompute = s.precompute := rfl
@[simp] theorem clearPulse_response (s : State) : (clearPulse s).response = s.response := rfl
@[simp] theorem clearPulse_commands (s : State) : (clearPulse s).commands = s.commands := rfl
@[simp] theorem clearPulse_presetChangeRequested (s : State) :
    (clearPulse s).presetChangeRequested = s.presetChangeRequested := rfl
@[simp] theorem clearPulse_pulseRequested (s : State) : (clearPulse s).pulseRequested = false := rfl
@[simp] theorem clearPulse_mailboxMessagePending (s : State) :
    (clearPulse s).mailboxMessagePending = s.mailboxMessagePending := rfl
@[simp] theorem clearPulse_testSequenceActive (s : State) :
    (clearPulse s).testSequenceActive = s.testSequenceActive := rfl
@[simp] theorem clearPulse_pendingPreset (s : State) : (clearPulse s).pendingPreset = s.pendingPreset := rfl
@[simp] theorem clearPulse_scanCount (s : State) : (clearPulse s).scanCount = s.scanCount := rfl
@[simp] theorem clearPulse_scanTarget (s : State) : (clearPulse s).scanTarget = s.scanTarget := rfl
@[simp] theorem clearPulse_mailbox (s : State) : (clearPulse s).mailbox = s.mailbox := rfl
@[simp] theorem clearPulse_pb (s : State) : (clearPulse s).pb = s.pb := rfl
@[simp] theorem clearPulse_trigger (s : State) : (clearPulse s).trigger = s.trigger := rfl
@[simp] theorem clearPulse_strobe (s : State) : (clearPulse s).strobe = s.strobe := rfl
@[simp] theorem clearPulse_presetInput (s : State) : (clearPulse s).presetInput = s.presetInput := rfl
@[simp] theorem clearPulse_selectedBus (s : State) : (clearPulse s).selectedBus = s.selectedBus := rfl
@[simp] theorem clearPulse_out (s : State) : (clearPulse s).out = s.out := rfl
@[simp] theorem clearPulse_context (s : State) : (clearPulse s).context = s.context := rfl
@[simp] theorem clearPulse_loopPos (s : State) : (clearPulse s).loopPos = s.loopPos := rfl
@[simp] theorem clearPulse_cfg (s : State) : (clearPulse s).cfg = s.cfg := rfl
@[simp] theorem clearPulse_inputs (s : State) : (clearPulse s).inputs = s.inputs := rfl
@[simp] theorem clearPulse_busAnswers (s : State) : (clearPulse s).busAnswers = s.busAnswers := rfl
@[simp] theorem clearPulse_muxReads (s : State) : (clearPulse s).muxReads = s.muxReads := rfl
@[simp] theorem clearPulse_allocAnswers (s : State) : (clearPulse s).allocAnswers = s.allocAnswers := rfl
@[simp] theorem clearPulse_draws (s : State) : (clearPulse s).draws = s.draws := rfl
@[simp] theorem clearPulse_trace (s : State) : (clearPulse s).trace = s.trace := rfl

/-! ### clearMailPending -/

@[simp] theorem clearMailPending_matrix (s : State) : (clearMailPending s).matrix = s.matrix := rfl
@[simp] theorem clearMailPending_arena (s : State) : (clearMailPending s).arena = s.arena := rfl
@[simp] theorem clearMailPending_cachedPresets (s : State) :
    (clearMailPending s).cachedPresets = s.cachedPresets := rfl
@[simp] theorem clearMailPending_cachedDevices (s : State) :
    (clearMailPending s).cachedDevices = s.cachedDevices := rfl
@[simp] theorem clearMailPending_busy (s : State) : (clearMailPending s).busy = s.busy := rfl
@[simp] theorem clearMailPending_lastStatus (s : State) : (clearMailPending s).lastStatus = s.lastStatus := rfl
@[simp] theorem clearMailPending_seqState (s : State) : (clearMailPending s).seqState = s.seqState := rfl
@[simp] theorem clearMailPending_devIdx (s : State) : (clearMailPending s).devIdx = s.devIdx := rfl
@[simp] theorem clearMailPending_seqPreset (s : State) : (clearMailPending s).seqPreset = s.seqPreset := rfl
@[simp] theorem clearMailPending_precompute (s : State) : (clearMailPending s).precompute = s.precompute := rfl
@[simp] theorem clearMailPending_response (s : State) : (clearMailPending s).response = s.response := rfl
@[simp] theorem clearMailPending_commands (s : State) : (clearMailPending s).commands = s.commands := rfl
@[simp] theorem clearMailPending_presetChangeRequested (s : State) :
    (clearMailPending s).presetChangeRequested = s.presetChangeRequested := rfl
@[simp] theorem clearMailPending_pulseRequested (s : State) :
    (clearMailPending s).pulseRequested = s.pulseRequested := rfl
@[simp] theorem clearMailPending_mailboxMessagePending (s : State) :
    (clearMailPending s).mailboxMessagePending = false := rfl
@[simp] theorem clearMailPending_testSequenceActive (s : State) :
    (clearMailPending s).testSequenceActive = s.testSequenceActive := rfl
@[simp] theorem clearMailPending_pendingPreset (s : State) :
    (clearMailPending s).pendingPreset = s.pendingPreset := rfl
@[simp] theorem clearMailPending_scanCount (s : State) : (clearMailPending s).scanCount = s.scanCount := rfl
@[simp] theorem clearMailPending_scanTarget (s : State) : (clearMailPending s).scanTarget = s.scanTarget := rfl
@[simp] theorem clearMailPending_mailbox (s : State) : (clearMailPending s).mailbox = s.mailbox := rfl
@[simp] theorem clearMailPending_pb (s : State) : (clearMailPending s).pb = s.pb := rfl
@[simp] theorem clearMailPending_trigger (s : State) : (clearMailPending s).trigger = s.trigger := rfl
@[simp] theorem clearMailPending_strobe (s : State) : (clearMailPending s).strobe = s.strobe := rfl
@[simp] theorem clearMailPending_presetInput (s : State) : (clearMailPending s).presetInput = s.presetInput := rfl
@[simp] theorem clearMailPending_selectedBus (s : State) : (clearMailPending s).selectedBus = s.selectedBus := rfl
@[simp] theorem clearMailPending_out (s : State) : (clearMailPending s).out = s.out := rfl
@[simp] theorem clearMailPending_context (s : State) : (clearMailPending s).context = s.context := rfl
@[simp] theorem clearMailPending_loopPos (s : State) : (clearMailPending s).loopPos = s.loopPos := rfl
@[simp] theorem clearMailPending_cfg (s : State) : (clearMailPending s).cfg = s.cfg := rfl
@[simp] theorem clearMailPending_inputs (s : State) : (clearMailPending s).inputs = s.inputs := rfl
@[simp] theorem clearMailPending_busAnswers (s : State) : (clearMailPending s).busAnswers = s.busAnswers := rfl
@[simp] theorem clearMailPending_muxReads (s : State) : (clearMailPending s).muxReads = s.muxReads := rfl
@[simp] theorem clearMailPending_allocAnswers (s : State) : (clearMailPending s).allocAnswers = s.allocAnswers := rfl
@[simp] theorem clearMailPending_draws (s : State) : (clearMailPending s).draws = s.draws := rfl
@[simp] theorem clearMailPending_trace (s : State) : (clearMailPending s).trace = s.trace := rfl

/-! ### startSequence -/

@[simp] theorem startSequence_matrix (s : State) : (startSequence s).matrix = s.matrix := by
  unfold startSequence; split <;> rfl
@[simp] theorem startSequence_arena (s : State) : (startSequence s).arena = s.arena := by
  unfold startSequence; split <;> rfl
@[simp] theorem startSequence_cachedPresets (s : State) : (startSequence s).cachedPresets = s.cachedPresets := by
  unfold startSequence; split <;> rfl
@[simp] theorem startSequence_cachedDevices (s : State) : (startSequence s).cachedDevices = s.cachedDevices := by
  unfold startSequence; split <;> rfl
@[simp] theorem startSequence_busy (s : State) : (startSequence s).busy = s.busy := by
  unfold startSequence; split <;> rfl
@[simp] theorem startSequence_lastStatus (s : State) : (startSequence s).lastStatus = s.lastStatus := by
  unfold startSequence; split <;> rfl
@[simp] theorem startSequence_seqState (s : State) : (startSequence s).seqState = s.seqState := by
  unfold startSequence; split <;> rfl
@[simp] theorem startSequence_devIdx (s : State) : (startSequence s).devIdx = s.devIdx := by
  unfold startSequence; split <;> rfl
@[simp] theorem startSequence_seqPreset (s : State) : (startSequence s).seqPreset = s.seqPreset := by
  unfold startSequence; split <;> rfl
@[simp] theorem startSequence_precompute (s : State) : (startSequence s).precompute = s.precompute := by
  unfold startSequence; split <;> rfl
@[simp] theorem startSequence_response (s : State) : (startSequence s).response = s.response := by
  unfold startSequence; split <;> rfl
@[simp] theorem startSequence_commands (s : State) : (startSequence s).commands = s.commands := by
  unfold startSequence; split <;> rfl
@[simp] theorem startSequence_presetChangeRequested (s : State) : (startSequence s).presetChangeRequested = s.presetChangeRequested := by
  unfold startSequence; split <;> rfl
@[simp] theorem startSequence_pulseRequested (s : State) : (startSequence s).pulseRequested = s.pulseRequested := by
  unfold startSequence; split <;> rfl
@[simp] theorem startSequence_mailboxMessagePending (s : State) : (startSequence s).mailboxMessagePending = s.mailboxMessagePending := by
  unfold startSequence; split <;> rfl
@[simp] theorem startSequence_testSequenceActive (s : State) : (startSequence s).testSequenceActive = true := by
  unfold startSequence; split <;> simp_all
@[simp] theorem startSequence_pendingPreset (s : State) : (startSequence s).pendingPreset = s.pendingPreset := by
  unfold startSequence; split <;> rfl
@[simp] theorem startSequence_mailbox (s : State) : (startSequence s).mailbox = s.mailbox := by
  unfold startSequence; split <;> rfl
@[simp] theorem startSequence_pb (s : State) : (startSequence s).pb = s.pb := by
  unfold startSequence; split <;> rfl
@[simp] theorem startSequence_trigger (s : State) : (startSequence s).trigger = s.trigger := by
  unfold startSequence; split <;> rfl
@[simp] theorem startSequence_strobe (s : State) : (startSequence s).strobe = s.strobe := by
  unfold startSequence; split <;> rfl
@[simp] theorem startSequence_presetInput (s : State) : (startSequence s).presetInput = s.presetInput := by
  unfold startSequence; split <;> rfl
@[simp] theorem startSequence_selectedBus (s : State) : (startSequence s).selectedBus = s.selectedBus := by
  unfold startSequence; split <;> rfl
@[simp] theorem startSequence_out (s : State) : (startSequence s).out = s.out := by
  unfold startSequence; split <;> rfl
@[simp] theorem startSequence_context (s : State) : (startSequence s).context = s.context := by
  unfold startSequence; split <;> rfl
@[simp] theorem startSequence_loopPos (s : State) : (startSequence s).loopPos = s.loopPos := by
  unfold startSequence; split <;> rfl
@[simp] theorem startSequence_cfg (s : State) : (startSequence s).cfg = s.cfg := by
  unfold startSequence; split <;> rfl
@[simp] theorem startSequence_inputs (s : State) : (startSequence s).inputs = s.inputs := by
  unfold startSequence; split <;> rfl
@[simp] theorem startSequence_busAnswers (s : State) : (startSequence s).busAnswers = s.busAnswers := by
  unfold startSequence; split <;> rfl
@[simp] theorem startSequence_muxReads (s : State) : (startSequence s).muxReads = s.muxReads := by
  unfold startSequence; split <;> rfl
@[simp] theorem startSequence_allocAnswers (s : State) : (startSequence s).allocAnswers = s.allocAnswers := by
  unfold startSequence; split <;> rfl
@[simp] theorem startSequence_draws (s : State) : (startSequence s).draws = s.draws := by
  unfold startSequence; split <;> rfl
@[simp] theorem startSequence_trace (s : State) : (startSequence s).trace = s.trace := by
  unfold startSequence; split <;> rfl

/-! ### countScan -/

@[simp] theorem countScan_matrix (s : State) : (countScan s).matrix = s.matrix := by
  unfold countScan; split <;> rfl
@[simp] theorem countScan_arena (s : State) : (countScan s).arena = s.arena := by
  unfold countScan; split <;> rfl
@[simp] theorem countScan_cachedPresets (s : State) : (countScan s).cachedPresets = s.cachedPresets := by
  unfold countScan; split <;> rfl
@[simp] theorem countScan_cachedDevices (s : State) : (countScan s).cachedDevices = s.cachedDevices := by
  unfold countScan; split <;> rfl
@[simp] theorem countScan_busy (s : State) : (countScan s).busy = s.busy := by
  unfold countScan; split <;> rfl
@[simp] theorem countScan_lastStatus (s : State) : (countScan s).lastStatus = s.lastStatus := by
  unfold countScan; split <;> rfl
@[simp] theorem countScan_seqState (s : State) : (countScan s).seqState = s.seqState := by
  unfold countScan; split <;> rfl
@[simp] theorem countScan_devIdx (s : State) : (countScan s).devIdx = s.devIdx := by
  unfold countScan; split <;> rfl
@[simp] theorem countScan_seqPreset (s : State) : (countScan s).seqPreset = s.seqPreset := by
  unfold countScan; split <;> rfl
@[simp] theorem countScan_precompute (s : State) : (countScan s).precompute = s.precompute := by
  unfold countScan; split <;> rfl
@[simp] theorem countScan_response (s : State) : (countScan s).response = s.response := by
  unfold countScan; split <;> rfl
@[simp] theorem countScan_commands (s : State) : (countScan s).commands = s.commands := by
  unfold countScan; split <;> rfl
@[simp] theorem countScan_presetChangeRequested (s : State) : (countScan s).presetChangeRequested = s.presetChangeRequested := by
  unfold countScan; split <;> rfl
@[simp] theorem countScan_pulseRequested (s : State) : (countScan s).pulseRequested = s.pulseRequested := by
  unfold countScan; split <;> rfl
@[simp] theorem countScan_mailboxMessagePending (s : State) : (countScan s).mailboxMessagePending = s.mailboxMessagePending := by
  unfold countScan; split <;> rfl
@[simp] theorem countScan_pendingPreset (s : State) : (countScan s).pendingPreset = s.pendingPreset := by
  unfold countScan; split <;> rfl
@[simp] theorem countScan_scanCount (s : State) : (countScan s).scanCount = s.scanCount + 1#8 := by
  unfold countScan; split <;> rfl
@[simp] theorem countScan_mailbox (s : State) : (countScan s).mailbox = s.mailbox := by
  unfold countScan; split <;> rfl
@[simp] theorem countScan_pb (s : State) : (countScan s).pb = s.pb := by
  unfold countScan; split <;> rfl
@[simp] theorem countScan_trigger (s : State) : (countScan s).trigger = s.trigger := by
  unfold countScan; split <;> rfl
@[simp] theorem countScan_strobe (s : State) : (countScan s).strobe = s.strobe := by
  unfold countScan; split <;> rfl
@[simp] theorem countScan_presetInput (s : State) : (countScan s).presetInput = s.presetInput := by
  unfold countScan; split <;> rfl
@[simp] theorem countScan_selectedBus (s : State) : (countScan s).selectedBus = s.selectedBus := by
  unfold countScan; split <;> rfl
@[simp] theorem countScan_out (s : State) : (countScan s).out = s.out := by
  unfold countScan; split <;> rfl
@[simp] theorem countScan_context (s : State) : (countScan s).context = s.context := by
  unfold countScan; split <;> rfl
@[simp] theorem countScan_loopPos (s : State) : (countScan s).loopPos = s.loopPos := by
  unfold countScan; split <;> rfl
@[simp] theorem countScan_cfg (s : State) : (countScan s).cfg = s.cfg := by
  unfold countScan; split <;> rfl
@[simp] theorem countScan_inputs (s : State) : (countScan s).inputs = s.inputs := by
  unfold countScan; split <;> rfl
@[simp] theorem countScan_busAnswers (s : State) : (countScan s).busAnswers = s.busAnswers := by
  unfold countScan; split <;> rfl
@[simp] theorem countScan_muxReads (s : State) : (countScan s).muxReads = s.muxReads := by
  unfold countScan; split <;> rfl
@[simp] theorem countScan_allocAnswers (s : State) : (countScan s).allocAnswers = s.allocAnswers := by
  unfold countScan; split <;> rfl
@[simp] theorem countScan_draws (s : State) : (countScan s).draws = s.draws := by
  unfold countScan; split <;> rfl
@[simp] theorem countScan_trace (s : State) : (countScan s).trace = s.trace := by
  unfold countScan; split <;> rfl

/-! ### setBus -/

@[simp] theorem setBus_matrix (b : Option Nat) (s : State) : (setBus b s).matrix = s.matrix := rfl
@[simp] theorem setBus_arena (b : Option Nat) (s : State) : (setBus b s).arena = s.arena := rfl
@[simp] theorem setBus_cachedPresets (b : Option Nat) (s : State) :
    (setBus b s).cachedPresets = s.cachedPresets := rfl
@[simp] theorem setBus_cachedDevices (b : Option Nat) (s : State) :
    (setBus b s).cachedDevices = s.cachedDevices := rfl
@[simp] theorem setBus_busy (b : Option Nat) (s : State) : (setBus b s).busy = s.busy := rfl
@[simp] theorem setBus_lastStatus (b : Option Nat) (s : State) : (setBus b s).lastStatus = s.lastStatus := rfl
@[simp] theorem setBus_seqState (b : Option Nat) (s : State) : (setBus b s).seqState = s.seqState := rfl
@[simp] theorem setBus_devIdx (b : Option Nat) (s : State) : (setBus b s).devIdx = s.devIdx := rfl
@[simp] theorem setBus_seqPreset (b : Option Nat) (s : State) : (setBus b s).seqPreset = s.seqPreset := rfl
@[simp] theorem setBus_precompute (b : Option Nat) (s : State) : (setBus b s).precompute = s.precompute := rfl
@[simp] theorem setBus_response (b : Option Nat) (s : State) : (setBus b s).response = s.response := rfl
@[simp] theorem setBus_commands (b : Option Nat) (s : State) : (setBus b s).commands = s.commands := rfl
@[simp] theorem setBus_presetChangeRequested (b : Option Nat) (s : State) :
    (setBus b s).presetChangeRequested = s.presetChangeRequested := rfl
@[simp] theorem setBus_pulseRequested (b : Option Nat) (s : State) :
    (setBus b s).pulseRequested = s.pulseRequested := rfl
@[simp] theorem setBus_mailboxMessagePending (b : Option Nat) (s : State) :
    (setBus b s).mailboxMessagePending = s.mailboxMessagePending := rfl
@[simp] theorem setBus_testSequenceActive (b : Option Nat) (s : State) :
    (setBus b s).testSequenceActive = s.testSequenceActive := rfl
@[simp] theorem setBus_pendingPreset (b : Option Nat) (s : State) :
    (setBus b s).pendingPreset = s.pendingPreset := rfl
@[simp] theorem setBus_scanCount (b : Option Nat) (s : State) : (setBus b s).scanCount = s.scanCount := rfl
@[simp] theorem setBus_scanTarget (b : Option Nat) (s : State) : (setBus b s).scanTarget = s.scanTarget := rfl
@[simp] theorem setBus_mailbox (b : Option Nat) (s : State) : (setBus b s).mailbox = s.mailbox := rfl
@[simp] theorem setBus_pb (b : Option Nat) (s : State) : (setBus b s).pb = s.pb := rfl
@[simp] theorem setBus_trigger (b : Option Nat) (s : State) : (setBus b s).trigger = s.trigger := rfl
@[simp] theorem setBus_strobe (b : Option Nat) (s : State) : (setBus b s).strobe = s.strobe := rfl
@[simp] theorem setBus_presetInput (b : Option Nat) (s : State) : (setBus b s).presetInput = s.presetInput := rfl
@[simp] theorem setBus_selectedBus (b : Option Nat) (s : State) : (setBus b s).selectedBus = b := rfl
@[simp] theorem setBus_out (b : Option Nat) (s : State) : (setBus b s).out = s.out := rfl
@[simp] theorem setBus_context (b : Option Nat) (s : State) : (setBus b s).context = s.context := rfl
@[simp] theorem setBus_loopPos (b : Option Nat) (s : State) : (setBus b s).loopPos = s.loopPos := rfl
@[simp] theorem setBus_cfg (b : Option Nat) (s : State) : (setBus b s).cfg = s.cfg := rfl
@[simp] theorem setBus_inputs (b : Option Nat) (s : State) : (setBus b s).inputs = s.inputs := rfl
@[simp] theorem setBus_busAnswers (b : Option Nat) (s : State) : (setBus b s).busAnswers = s.busAnswers := rfl
@[simp] theorem setBus_muxReads (b : Option Nat) (s : State) : (setBus b s).muxReads = s.muxReads := rfl
@[simp] theorem setBus_allocAnswers (b : Option Nat) (s : State) : (setBus b s).allocAnswers = s.allocAnswers := rfl
@[simp] theorem setBus_draws (b : Option Nat) (s : State) : (setBus b s).draws = s.draws := rfl
@[simp] theorem setBus_trace (b : Option Nat) (s : State) : (setBus b s).trace = s.trace := rfl

/-! ### setPrecompute -/

@[simp] theorem setPrecompute_matrix (q : PrecomputeStage) (s : State) : (setPrecompute q s).matrix = s.matrix := rfl
@[simp] theorem setPrecompute_arena (q : PrecomputeStage) (s : State) : (setPrecompute q s).arena = s.arena := rfl
@[simp] theorem setPrecompute_cachedPresets (q : PrecomputeStage) (s : State) :
    (setPrecompute q s).cachedPresets = s.cachedPresets := rfl
@[simp] theorem setPrecompute_cachedDevices (q : PrecomputeStage) (s : State) :
    (setPrecompute q s).cachedDevices = s.cachedDevices := rfl
@[simp] theorem setPrecompute_busy (q : PrecomputeStage) (s : State) : (setPrecompute q s).busy = s.busy := rfl
@[simp] theorem setPrecompute_lastStatus (q : PrecomputeStage) (s : State) :
    (setPrecompute q s).lastStatus = s.lastStatus := rfl
@[simp] theorem setPrecompute_seqState (q : PrecomputeStage) (s : State) :
    (setPrecompute q s).seqState = s.seqState := rfl
@[simp] theorem setPrecompute_devIdx (q : PrecomputeStage) (s : State) : (setPrecompute q s).devIdx = s.devIdx := rfl
@[simp] theorem setPrecompute_seqPreset (q : PrecomputeStage) (s : State) :
    (setPrecompute q s).seqPreset = s.seqPreset := rfl
@[simp] theorem setPrecompute_precompute (q : PrecomputeStage) (s : State) : (setPrecompute q s).precompute = q := rfl
@[simp] theorem setPrecompute_response (q : PrecomputeStage) (s : State) :
    (setPrecompute q s).response = s.response := rfl
@[simp] theorem setPrecompute_commands (q : PrecomputeStage) (s : State) :
    (setPrecompute q s).commands = s.commands := rfl
@[simp] theorem setPrecompute_presetChangeRequested (q : PrecomputeStage) (s : State) :
    (setPrecompute q s).presetChangeRequested = s.presetChangeRequested := rfl
@[simp] theorem setPrecompute_pulseRequested (q : PrecomputeStage) (s : State) :
    (setPrecompute q s).pulseRequested = s.pulseRequested := rfl
@[simp] theorem setPrecompute_mailboxMessagePending (q : PrecomputeStage) (s : State) :
    (setPrecompute q s).mailboxMessagePending = s.mailboxMessagePending := rfl
@[simp] theorem setPrecompute_testSequenceActive (q : PrecomputeStage) (s : State) :
    (setPrecompute q s).testSequenceActive = s.testSequenceActive := rfl
@[simp] theorem setPrecompute_pendingPreset (q : PrecomputeStage) (s : State) :
    (setPrecompute q s).pendingPreset = s.pendingPreset := rfl
@[simp] theorem setPrecompute_scanCount (q : PrecomputeStage) (s : State) :
    (setPrecompute q s).scanCount = s.scanCount := rfl
@[simp] theorem setPrecompute_scanTarget (q : PrecomputeStage) (s : State) :
    (setPrecompute q s).scanTarget = s.scanTarget := rfl
@[simp] theorem setPrecompute_mailbox (q : PrecomputeStage) (s : State) :
    (setPrecompute q s).mailbox = s.mailbox := rfl
@[simp] theorem setPrecompute_pb (q : PrecomputeStage) (s : State) : (setPrecompute q s).pb = s.pb := rfl
@[simp] theorem setPrecompute_trigger (q : PrecomputeStage) (s : State) :
    (setPrecompute q s).trigger = s.trigger := rfl
@[simp] theorem setPrecompute_strobe (q : PrecomputeStage) (s : State) : (setPrecompute q s).strobe = s.strobe := rfl
@[simp] theorem setPrecompute_presetInput (q : PrecomputeStage) (s : State) :
    (setPrecompute q s).presetInput = s.presetInput := rfl
@[simp] theorem setPrecompute_selectedBus (q : PrecomputeStage) (s : State) :
    (setPrecompute q s).selectedBus = s.selectedBus := rfl
@[simp] theorem setPrecompute_out (q : PrecomputeStage) (s : State) : (setPrecompute q s).out = s.out := rfl
@[simp] theorem setPrecompute_context (q : PrecomputeStage) (s : State) :
    (setPrecompute q s).context = s.context := rfl
@[simp] theorem setPrecompute_loopPos (q : PrecomputeStage) (s : State) :
    (setPrecompute q s).loopPos = s.loopPos := rfl
@[simp] theorem setPrecompute_cfg (q : PrecomputeStage) (s : State) : (setPrecompute q s).cfg = s.cfg := rfl
@[simp] theorem setPrecompute_inputs (q : PrecomputeStage) (s : State) : (setPrecompute q s).inputs = s.inputs := rfl
@[simp] theorem setPrecompute_busAnswers (q : PrecomputeStage) (s : State) :
    (setPrecompute q s).busAnswers = s.busAnswers := rfl
@[simp] theorem setPrecompute_muxReads (q : PrecomputeStage) (s : State) :
    (setPrecompute q s).muxReads = s.muxReads := rfl
@[simp] theorem setPrecompute_allocAnswers (q : PrecomputeStage) (s : State) :
    (setPrecompute q s).allocAnswers = s.allocAnswers := rfl
@[simp] theorem setPrecompute_draws (q : PrecomputeStage) (s : State) : (setPrecompute q s).draws = s.draws := rfl
@[simp] theorem setPrecompute_trace (q : PrecomputeStage) (s : State) : (setPrecompute q s).trace = s.trace := rfl

/-! ### setSeq -/

@[simp] theorem setSeq_matrix (q : SeqState) (s : State) : (setSeq q s).matrix = s.matrix := rfl
@[simp] theorem setSeq_arena (q : SeqState) (s : State) : (setSeq q s).arena = s.arena := rfl
@[simp] theorem setSeq_cachedPresets (q : SeqState) (s : State) : (setSeq q s).cachedPresets = s.cachedPresets := rfl
@[simp] theorem setSeq_cachedDevices (q : SeqState) (s : State) : (setSeq q s).cachedDevices = s.cachedDevices := rfl
@[simp] theorem setSeq_busy (q : SeqState) (s : State) : (setSeq q s).busy = s.busy := rfl
@[simp] theorem setSeq_lastStatus (q : SeqState) (s : State) : (setSeq q s).lastStatus = s.lastStatus := rfl
@[simp] theorem setSeq_seqState (q : SeqState) (s : State) : (setSeq q s).seqState = q := rfl
@[simp] theorem setSeq_devIdx (q : SeqState) (s : State) : (setSeq q s).devIdx = s.devIdx := rfl
@[simp] theorem setSeq_seqPreset (q : SeqState) (s : State) : (setSeq q s).seqPreset = s.seqPreset := rfl
@[simp] theorem setSeq_precompute (q : SeqState) (s : State) : (setSeq q s).precompute = s.precompute := rfl
@[simp] theorem setSeq_response (q : SeqState) (s : State) : (setSeq q s).response = s.response := rfl
@[simp] theorem setSeq_commands (q : SeqState) (s : State) : (setSeq q s).commands = s.commands := rfl
@[simp] theorem setSeq_presetChangeRequested (q : SeqState) (s : State) :
    (setSeq q s).presetChangeRequested = s.presetChangeRequested := rfl
@[simp] theorem setSeq_pulseRequested (q : SeqState) (s : State) :
    (setSeq q s).pulseRequested = s.pulseRequested := rfl
@[simp] theorem setSeq_mailboxMessagePending (q : SeqState) (s : State) :
    (setSeq q s).mailboxMessagePending = s.mailboxMessagePending := rfl
@[simp] theorem setSeq_testSequenceActive (q : SeqState) (s : State) :
    (setSeq q s).testSequenceActive = s.testSequenceActive := rfl
@[simp] theorem setSeq_pendingPreset (q : SeqState) (s : State) : (setSeq q s).pendingPreset = s.pendingPreset := rfl
@[simp] theorem setSeq_scanCount (q : SeqState) (s : State) : (setSeq q s).scanCount = s.scanCount := rfl
@[simp] theorem setSeq_scanTarget (q : SeqState) (s : State) : (setSeq q s).scanTarget = s.scanTarget := rfl
@[simp] theorem setSeq_mailbox (q : SeqState) (s : State) : (setSeq q s).mailbox = s.mailbox := rfl
@[simp] theorem setSeq_pb (q : SeqState) (s : State) : (setSeq q s).pb = s.pb := rfl
@[simp] theorem setSeq_trigger (q : SeqState) (s : State) : (setSeq q s).trigger = s.trigger := rfl
@[simp] theorem setSeq_strobe (q : SeqState) (s : State) : (setSeq q s).strobe = s.strobe := rfl
@[simp] theorem setSeq_presetInput (q : SeqState) (s : State) : (setSeq q s).presetInput = s.presetInput := rfl
@[simp] theorem setSeq_selectedBus (q : SeqState) (s : State) : (setSeq q s).selectedBus = s.selectedBus := rfl
@[simp] theorem setSeq_out (q : SeqState) (s : State) : (setSeq q s).out = s.out := rfl
@[simp] theorem setSeq_context (q : SeqState) (s : State) : (setSeq q s).context = s.context := rfl
@[simp] theorem setSeq_loopPos (q : SeqState) (s : State) : (setSeq q s).loopPos = s.loopPos := rfl
@[simp] theorem setSeq_cfg (q : SeqState) (s : State) : (setSeq q s).cfg = s.cfg := rfl
@[simp] theorem setSeq_inputs (q : SeqState) (s : State) : (setSeq q s).inputs = s.inputs := rfl
@[simp] theorem setSeq_busAnswers (q : SeqState) (s : State) : (setSeq q s).busAnswers = s.busAnswers := rfl
@[simp] theorem setSeq_muxReads (q : SeqState) (s : State) : (setSeq q s).muxReads = s.muxReads := rfl
@[simp] theorem setSeq_allocAnswers (q : SeqState) (s : State) : (setSeq q s).allocAnswers = s.allocAnswers := rfl
@[simp] theorem setSeq_draws (q : SeqState) (s : State) : (setSeq q s).draws = s.draws := rfl
@[simp] theorem setSeq_trace (q : SeqState) (s : State) : (setSeq q s).trace = s.trace := rfl

/-! ### advanceDevice -/

@[simp] theorem advanceDevice_matrix (s : State) : (advanceDevice s).matrix = s.matrix := rfl
@[simp] theorem advanceDevice_arena (s : State) : (advanceDevice s).arena = s.arena := rfl
@[simp] theorem advanceDevice_cachedPresets (s : State) : (advanceDevice s).cachedPresets = s.cachedPresets := rfl
@[simp] theorem advanceDevice_cachedDevices (s : State) : (advanceDevice s).cachedDevices = s.cachedDevices := rfl
@[simp] theorem advanceDevice_busy (s : State) : (advanceDevice s).busy = s.busy := rfl
@[simp] theorem advanceDevice_lastStatus (s : State) : (advanceDevice s).lastStatus = s.lastStatus := rfl
@[simp] theorem advanceDevice_seqState (s : State) : (advanceDevice s).seqState = s.seqState := rfl
@[simp] theorem advanceDevice_devIdx (s : State) : (advanceDevice s).devIdx = s.devIdx + 1 := rfl
@[simp] theorem advanceDevice_seqPreset (s : State) : (advanceDevice s).seqPreset = s.seqPreset := rfl
@[simp] theorem advanceDevice_precompute (s : State) : (advanceDevice s).precompute = s.precompute := rfl
@[simp] theorem advanceDevice_response (s : State) : (advanceDevice s).response = s.response := rfl
@[simp] theorem advanceDevice_commands (s : State) : (advanceDevice s).commands = s.commands := rfl
@[simp] theorem advanceDevice_presetChangeRequested (s : State) :
    (advanceDevice s).presetChangeRequested = s.presetChangeRequested := rfl
@[simp] theorem advanceDevice_pulseRequested (s : State) : (advanceDevice s).pulseRequested = s.pulseRequested := rfl
@[simp] theorem advanceDevice_mailboxMessagePending (s : State) :
    (advanceDevice s).mailboxMessagePending = s.mailboxMessagePending := rfl
@[simp] theorem advanceDevice_testSequenceActive (s : State) :
    (advanceDevice s).testSequenceActive = s.testSequenceActive := rfl
@[simp] theorem advanceDevice_pendingPreset (s : State) : (advanceDevice s).pendingPreset = s.pendingPreset := rfl
@[simp] theorem advanceDevice_scanCount (s : State) : (advanceDevice s).scanCount = s.scanCount := rfl
@[simp] theorem advanceDevice_scanTarget (s : State) : (advanceDevice s).scanTarget = s.scanTarget := rfl
@[simp] theorem advanceDevice_mailbox (s : State) : (advanceDevice s).mailbox = s.mailbox := rfl
@[simp] theorem advanceDevice_pb (s : State) : (advanceDevice s).pb = s.pb := rfl
@[simp] theorem advanceDevice_trigger (s : State) : (advanceDevice s).trigger = s.trigger := rfl
@[simp] theorem advanceDevice_strobe (s : State) : (advanceDevice s).strobe = s.strobe := rfl
@[simp] theorem advanceDevice_presetInput (s : State) : (advanceDevice s).presetInput = s.presetInput := rfl
@[simp] theorem advanceDevice_selectedBus (s : State) : (advanceDevice s).selectedBus = s.selectedBus := rfl
@[simp] theorem advanceDevice_out (s : State) : (advanceDevice s).out = s.out := rfl
@[simp] theorem advanceDevice_context (s : State) : (advanceDevice s).context = s.context := rfl
@[simp] theorem advanceDevice_loopPos (s : State) : (advanceDevice s).loopPos = s.loopPos := rfl
@[simp] theorem advanceDevice_cfg (s : State) : (advanceDevice s).cfg = s.cfg := rfl
@[simp] theorem advanceDevice_inputs (s : State) : (advanceDevice s).inputs = s.inputs := rfl
@[simp] theorem advanceDevice_busAnswers (s : State) : (advanceDevice s).busAnswers = s.busAnswers := rfl
@[simp] theorem advanceDevice_muxReads (s : State) : (advanceDevice s).muxReads = s.muxReads := rfl
@[simp] theorem advanceDevice_allocAnswers (s : State) : (advanceDevice s).allocAnswers = s.allocAnswers := rfl
@[simp] theorem advanceDevice_draws (s : State) : (advanceDevice s).draws = s.draws := rfl
@[simp] theorem advanceDevice_trace (s : State) : (advanceDevice s).trace = s.trace := rfl

/-! ### setInputs -/

@[simp] theorem setInputs_matrix (l : List Input) (s : State) : (setInputs l s).matrix = s.matrix := rfl
@[simp] theorem setInputs_arena (l : List Input) (s : State) : (setInputs l s).arena = s.arena := rfl
@[simp] theorem setInputs_cachedPresets (l : List Input) (s : State) :
    (setInputs l s).cachedPresets = s.cachedPresets := rfl
@[simp] theorem setInputs_cachedDevices (l : List Input) (s : State) :
    (setInputs l s).cachedDevices = s.cachedDevices := rfl
@[simp] theorem setInputs_busy (l : List Input) (s : State) : (setInputs l s).busy = s.busy := rfl
@[simp] theorem setInputs_lastStatus (l : List Input) (s : State) : (setInputs l s).lastStatus = s.lastStatus := rfl
@[simp] theorem setInputs_seqState (l : List Input) (s : State) : (setInputs l s).seqState = s.seqState := rfl
@[simp] theorem setInputs_devIdx (l : List Input) (s : State) : (setInputs l s).devIdx = s.devIdx := rfl
@[simp] theorem setInputs_seqPreset (l : List Input) (s : State) : (setInputs l s).seqPreset = s.seqPreset := rfl
@[simp] theorem setInputs_precompute (l : List Input) (s : State) : (setInputs l s).precompute = s.precompute := rfl
@[simp] theorem setInputs_response (l : List Input) (s : State) : (setInputs l s).response = s.response := rfl
@[simp] theorem setInputs_commands (l : List Input) (s : State) : (setInputs l s).commands = s.commands := rfl
@[simp] theorem setInputs_presetChangeRequested (l : List Input) (s : State) :
    (setInputs l s).presetChangeRequested = s.presetChangeRequested := rfl
@[simp] theorem setInputs_pulseRequested (l : List Input) (s : State) :
    (setInputs l s).pulseRequested = s.pulseRequested := rfl
@[simp] theorem setInputs_mailboxMessagePending (l : List Input) (s : State) :
    (setInputs l s).mailboxMessagePending = s.mailboxMessagePending := rfl
@[simp] theorem setInputs_testSequenceActive (l : List Input) (s : State) :
    (setInputs l s).testSequenceActive = s.testSequenceActive := rfl
@[simp] theorem setInputs_pendingPreset (l : List Input) (s : State) :
    (setInputs l s).pendingPreset = s.pendingPreset := rfl
@[simp] theorem setInputs_scanCount (l : List Input) (s : State) : (setInputs l s).scanCount = s.scanCount := rfl
@[simp] theorem setInputs_scanTarget (l : List Input) (s : State) : (setInputs l s).scanTarget = s.scanTarget := rfl
@[simp] theorem setInputs_mailbox (l : List Input) (s : State) : (setInputs l s).mailbox = s.mailbox := rfl
@[simp] theorem setInputs_pb (l : List Input) (s : State) : (setInputs l s).pb = s.pb := rfl
@[simp] theorem setInputs_trigger (l : List Input) (s : State) : (setInputs l s).trigger = s.trigger := rfl
@[simp] theorem setInputs_strobe (l : List Input) (s : State) : (setInputs l s).strobe = s.strobe := rfl
@[simp] theorem setInputs_presetInput (l : List Input) (s : State) :
    (setInputs l s).presetInput = s.presetInput := rfl
@[simp] theorem setInputs_selectedBus (l : List Input) (s : State) :
    (setInputs l s).selectedBus = s.selectedBus := rfl
@[simp] theorem setInputs_out (l : List Input) (s : State) : (setInputs l s).out = s.out := rfl
@[simp] theorem setInputs_context (l : List Input) (s : State) : (setInputs l s).context = s.context := rfl
@[simp] theorem setInputs_loopPos (l : List Input) (s : State) : (setInputs l s).loopPos = s.loopPos := rfl
@[simp] theorem setInputs_cfg (l : List Input) (s : State) : (setInputs l s).cfg = s.cfg := rfl
@[simp] theorem setInputs_inputs (l : List Input) (s : State) : (setInputs l s).inputs = l := rfl
@[simp] theorem setInputs_busAnswers (l : List Input) (s : State) : (setInputs l s).busAnswers = s.busAnswers := rfl
@[simp] theorem setInputs_muxReads (l : List Input) (s : State) : (setInputs l s).muxReads = s.muxReads := rfl
@[simp] theorem setInputs_allocAnswers (l : List Input) (s : State) :
    (setInputs l s).allocAnswers = s.allocAnswers := rfl
@[simp] theorem setInputs_draws (l : List Input) (s : State) : (setInputs l s).draws = s.draws := rfl
@[simp] theorem setInputs_trace (l : List Input) (s : State) : (setInputs l s).trace = s.trace := rfl

/-! ### setCommands -/

@[simp] theorem setCommands_matrix (l : List CommandWord) (s : State) : (setCommands l s).matrix = s.matrix := rfl
@[simp] theorem setCommands_arena (l : List CommandWord) (s : State) : (setCommands l s).arena = s.arena := rfl
@[simp] theorem setCommands_cachedPresets (l : List CommandWord) (s : State) :
    (setCommands l s).cachedPresets = s.cachedPresets := rfl
@[simp] theorem setCommands_cachedDevices (l : List CommandWord) (s : State) :
    (setCommands l s).cachedDevices = s.cachedDevices := rfl
@[simp] theorem setCommands_busy (l : List CommandWord) (s : State) : (setCommands l s).busy = s.busy := rfl
@[simp] theorem setCommands_lastStatus (l : List CommandWord) (s : State) :
    (setCommands l s).lastStatus = s.lastStatus := rfl
@[simp] theorem setCommands_seqState (l : List CommandWord) (s : State) :
    (setCommands l s).seqState = s.seqState := rfl
@[simp] theorem setCommands_devIdx (l : List CommandWord) (s : State) : (setCommands l s).devIdx = s.devIdx := rfl
@[simp] theorem setCommands_seqPreset (l : List CommandWord) (s : State) :
    (setCommands l s).seqPreset = s.seqPreset := rfl
@[simp] theorem setCommands_precompute (l : List CommandWord) (s : State) :
    (setCommands l s).precompute = s.precompute := rfl
@[simp] theorem setCommands_response (l : List CommandWord) (s : State) :
    (setCommands l s).response = s.response := rfl
@[simp] theorem setCommands_commands (l : List CommandWord) (s : State) : (setCommands l s).commands = l := rfl
@[simp] theorem setCommands_presetChangeRequested (l : List CommandWord) (s : State) :
    (setCommands l s).presetChangeRequested = s.presetChangeRequested := rfl
@[simp] theorem setCommands_pulseRequested (l : List CommandWord) (s : State) :
    (setCommands l s).pulseRequested = s.pulseRequested := rfl
@[simp] theorem setCommands_mailboxMessagePending (l : List CommandWord) (s : State) :
    (setCommands l s).mailboxMessagePending = s.mailboxMessagePending := rfl
@[simp] theorem setCommands_testSequenceActive (l : List CommandWord) (s : State) :
    (setCommands l s).testSequenceActive = s.testSequenceActive := rfl
@[simp] theorem setCommands_pendingPreset (l : List CommandWord) (s : State) :
    (setCommands l s).pendingPreset = s.pendingPreset := rfl
@[simp] theorem setCommands_scanCount (l : List CommandWord) (s : State) :
    (setCommands l s).scanCount = s.scanCount := rfl
@[simp] theorem setCommands_scanTarget (l : List CommandWord) (s : State) :
    (setCommands l s).scanTarget = s.scanTarget := rfl
@[simp] theorem setCommands_mailbox (l : List CommandWord) (s : State) : (setCommands l s).mailbox = s.mailbox := rfl
@[simp] theorem setCommands_pb (l : List CommandWord) (s : State) : (setCommands l s).pb = s.pb := rfl
@[simp] theorem setCommands_trigger (l : List CommandWord) (s : State) : (setCommands l s).trigger = s.trigger := rfl
@[simp] theorem setCommands_strobe (l : List CommandWord) (s : State) : (setCommands l s).strobe = s.strobe := rfl
@[simp] theorem setCommands_presetInput (l : List CommandWord) (s : State) :
    (setCommands l s).presetInput = s.presetInput := rfl
@[simp] theorem setCommands_selectedBus (l : List CommandWord) (s : State) :
    (setCommands l s).selectedBus = s.selectedBus := rfl
@[simp] theorem setCommands_out (l : List CommandWord) (s : State) : (setCommands l s).out = s.out := rfl
@[simp] theorem setCommands_context (l : List CommandWord) (s : State) : (setCommands l s).context = s.context := rfl
@[simp] theorem setCommands_loopPos (l : List CommandWord) (s : State) : (setCommands l s).loopPos = s.loopPos := rfl
@[simp] theorem setCommands_cfg (l : List CommandWord) (s : State) : (setCommands l s).cfg = s.cfg := rfl
@[simp] theorem setCommands_inputs (l : List CommandWord) (s : State) : (setCommands l s).inputs = s.inputs := rfl
@[simp] theorem setCommands_busAnswers (l : List CommandWord) (s : State) :
    (setCommands l s).busAnswers = s.busAnswers := rfl
@[simp] theorem setCommands_muxReads (l : List CommandWord) (s : State) :
    (setCommands l s).muxReads = s.muxReads := rfl
@[simp] theorem setCommands_allocAnswers (l : List CommandWord) (s : State) :
    (setCommands l s).allocAnswers = s.allocAnswers := rfl
@[simp] theorem setCommands_draws (l : List CommandWord) (s : State) : (setCommands l s).draws = s.draws := rfl
@[simp] theorem setCommands_trace (l : List CommandWord) (s : State) : (setCommands l s).trace = s.trace := rfl

/-! ### goto -/

@[simp] theorem goto_matrix (p : LoopPos) (s : State) : (goto p s).matrix = s.matrix := rfl
@[simp] theorem goto_arena (p : LoopPos) (s : State) : (goto p s).arena = s.arena := rfl
@[simp] theorem goto_cachedPresets (p : LoopPos) (s : State) : (goto p s).cachedPresets = s.cachedPresets := rfl
@[simp] theorem goto_cachedDevices (p : LoopPos) (s : State) : (goto p s).cachedDevices = s.cachedDevices := rfl
@[simp] theorem goto_busy (p : LoopPos) (s : State) : (goto p s).busy = s.busy := rfl
@[simp] theorem goto_lastStatus (p : LoopPos) (s : State) : (goto p s).lastStatus = s.lastStatus := rfl
@[simp] theorem goto_seqState (p : LoopPos) (s : State) : (goto p s).seqState = s.seqState := rfl
@[simp] theorem goto_devIdx (p : LoopPos) (s : State) : (goto p s).devIdx = s.devIdx := rfl
@[simp] theorem goto_seqPreset (p : LoopPos) (s : State) : (goto p s).seqPreset = s.seqPreset := rfl
@[simp] theorem goto_precompute (p : LoopPos) (s : State) : (goto p s).precompute = s.precompute := rfl
@[simp] theorem goto_response (p : LoopPos) (s : State) : (goto p s).response = s.response := rfl
@[simp] theorem goto_commands (p : LoopPos) (s : State) : (goto p s).commands = s.commands := rfl
@[simp] theorem goto_presetChangeRequested (p : LoopPos) (s : State) :
    (goto p s).presetChangeRequested = s.presetChangeRequested := rfl
@[simp] theorem goto_pulseRequested (p : LoopPos) (s : State) : (goto p s).pulseRequested = s.pulseRequested := rfl
@[simp] theorem goto_mailboxMessagePending (p : LoopPos) (s : State) :
    (goto p s).mailboxMessagePending = s.mailboxMessagePending := rfl
@[simp] theorem goto_testSequenceActive (p : LoopPos) (s : State) :
    (goto p s).testSequenceActive = s.testSequenceActive := rfl
@[simp] theorem goto_pendingPreset (p : LoopPos) (s : State) : (goto p s).pendingPreset = s.pendingPreset := rfl
@[simp] theorem goto_scanCount (p : LoopPos) (s : State) : (goto p s).scanCount = s.scanCount := rfl
@[simp] theorem goto_scanTarget (p : LoopPos) (s : State) : (goto p s).scanTarget = s.scanTarget := rfl
@[simp] theorem goto_mailbox (p : LoopPos) (s : State) : (goto p s).mailbox = s.mailbox := rfl
@[simp] theorem goto_pb (p : LoopPos) (s : State) : (goto p s).pb = s.pb := rfl
@[simp] theorem goto_trigger (p : LoopPos) (s : State) : (goto p s).trigger = s.trigger := rfl
@[simp] theorem goto_strobe (p : LoopPos) (s : State) : (goto p s).strobe = s.strobe := rfl
@[simp] theorem goto_presetInput (p : LoopPos) (s : State) : (goto p s).presetInput = s.presetInput := rfl
@[simp] theorem goto_selectedBus (p : LoopPos) (s : State) : (goto p s).selectedBus = s.selectedBus := rfl
@[simp] theorem goto_out (p : LoopPos) (s : State) : (goto p s).out = s.out := rfl
@[simp] theorem goto_context (p : LoopPos) (s : State) : (goto p s).context = s.context := rfl
@[simp] theorem goto_loopPos (p : LoopPos) (s : State) : (goto p s).loopPos = p := rfl
@[simp] theorem goto_cfg (p : LoopPos) (s : State) : (goto p s).cfg = s.cfg := rfl
@[simp] theorem goto_inputs (p : LoopPos) (s : State) : (goto p s).inputs = s.inputs := rfl
@[simp] theorem goto_busAnswers (p : LoopPos) (s : State) : (goto p s).busAnswers = s.busAnswers := rfl
@[simp] theorem goto_muxReads (p : LoopPos) (s : State) : (goto p s).muxReads = s.muxReads := rfl
@[simp] theorem goto_allocAnswers (p : LoopPos) (s : State) : (goto p s).allocAnswers = s.allocAnswers := rfl
@[simp] theorem goto_draws (p : LoopPos) (s : State) : (goto p s).draws = s.draws := rfl
@[simp] theorem goto_trace (p : LoopPos) (s : State) : (goto p s).trace = s.trace := rfl

end Sys2Proof.Machine
end

