-- ==== Sys2Proof/Laws/Store.lean ====
section
/-! SUPPORT. The laws of the sparse stores: read after write, the canonical form, the bounds of the keys, and the
4-byte fields on top of them. -/

namespace Sys2Proof.Machine

variable {α : Type} [DecidableEq α] {d v : α} {j k n lo hi : Nat} {m : Store α} {f : Nat → α}

/-! ### Reading -/

omit [DecidableEq α] in
@[simp] theorem storeRead_nil : storeRead d k ([] : Store α) = d := rfl

omit [DecidableEq α] in
/-- A key below every listed key reads as the unlisted value. -/
theorem storeRead_of_forall_lt (h : ∀ e ∈ m, k < e.1) : storeRead d k m = d := by
  induction m with
  | nil => rfl
  | cons e rest ih =>
    have hk : k ≠ e.1 := Nat.ne_of_lt (h e (by simp))
    simp only [storeRead, if_neg hk]
    exact ih fun e' he' => h e' (by simp [he'])

/-- What the canonical form says of a nonempty store. -/
theorem storeWf_cons {rest : Store α} :
    storeWf d ((k, v) :: rest) = true ↔ v ≠ d ∧ (∀ e ∈ rest, k < e.1) ∧ storeWf d rest = true := by
  simp [storeWf, and_assoc]

theorem storeRead_storeCons_same (h : ∀ e ∈ m, k < e.1) : storeRead d k (storeCons d k v m) = v := by
  unfold storeCons
  split
  · next hv => rw [storeRead_of_forall_lt h, hv]
  · simp [storeRead]

theorem storeRead_storeCons_other (h : j ≠ k) : storeRead d j (storeCons d k v m) = storeRead d j m := by
  unfold storeCons
  split
  · rfl
  · simp [storeRead, h]

/-- A read after a write to the same key gives the value written. -/
theorem storeRead_storeWrite_same (hwf : storeWf d m = true) : storeRead d k (storeWrite d k v m) = v := by
  induction m with
  | nil => exact storeRead_storeCons_same (by simp)
  | cons e rest ih =>
    obtain ⟨k', v'⟩ := e
    obtain ⟨_, hlt, hrest⟩ := storeWf_cons.mp hwf
    simp only [storeWrite]
    split
    · next h =>
      refine storeRead_storeCons_same fun e' he' => ?_
      rcases List.mem_cons.mp he' with rfl | he'
      · exact h
      · exact Nat.lt_trans h (hlt e' he')
    · split
      · next h => subst h; exact storeRead_storeCons_same hlt
      · next h => simp only [storeRead, if_neg h]; exact ih hrest

/-- A write leaves every other key alone. -/
theorem storeRead_storeWrite_other (h : j ≠ k) : storeRead d j (storeWrite d k v m) = storeRead d j m := by
  induction m with
  | nil => exact storeRead_storeCons_other h
  | cons e rest ih =>
    obtain ⟨k', v'⟩ := e
    simp only [storeWrite]
    split
    · exact storeRead_storeCons_other h
    · split
      · next hk => subst hk; rw [storeRead_storeCons_other h]; simp [storeRead, h]
      · simp only [storeRead, ih]

/-- A read after a write, in one equation. -/
theorem storeRead_storeWrite (hwf : storeWf d m = true) :
    storeRead d j (storeWrite d k v m) = if j = k then v else storeRead d j m := by
  split
  · next h => subst h; exact storeRead_storeWrite_same hwf
  · next h => exact storeRead_storeWrite_other h

/-! ### The canonical form -/

theorem mem_storeCons {e : Nat × α} (h : e ∈ storeCons d k v m) : e = (k, v) ∨ e ∈ m := by
  unfold storeCons at h
  split at h
  · exact .inr h
  · exact List.mem_cons.mp h

/-- A write lists no key but its own. -/
theorem mem_storeWrite {e : Nat × α} (h : e ∈ storeWrite d k v m) : e = (k, v) ∨ e ∈ m := by
  induction m with
  | nil => exact mem_storeCons h
  | cons e' rest ih =>
    obtain ⟨k', v'⟩ := e'
    simp only [storeWrite] at h
    split at h
    · exact mem_storeCons h
    · split at h
      · exact (mem_storeCons h).imp_right fun h => List.mem_cons_of_mem _ h
      · rcases List.mem_cons.mp h with rfl | h
        · exact .inr (by simp)
        · exact (ih h).imp_right fun h => List.mem_cons_of_mem _ h

theorem storeCons_wf (hlt : ∀ e ∈ m, k < e.1) (hwf : storeWf d m = true) :
    storeWf d (storeCons d k v m) = true := by
  unfold storeCons
  split
  · exact hwf
  · next hv => exact storeWf_cons.mpr ⟨hv, hlt, hwf⟩

/-- A write keeps the canonical form. -/
theorem storeWrite_wf (hwf : storeWf d m = true) : storeWf d (storeWrite d k v m) = true := by
  induction m with
  | nil => exact storeCons_wf (by simp) hwf
  | cons e rest ih =>
    obtain ⟨k', v'⟩ := e
    obtain ⟨hv, hlt, hrest⟩ := storeWf_cons.mp hwf
    simp only [storeWrite]
    split
    · next h =>
      refine storeCons_wf (fun e' he' => ?_) hwf
      rcases List.mem_cons.mp he' with rfl | he'
      · exact h
      · exact Nat.lt_trans h (hlt e' he')
    · next hk =>
      split
      · next h => subst h; exact storeCons_wf hlt hrest
      · next h =>
        refine storeWf_cons.mpr ⟨hv, fun e' he' => ?_, ih hrest⟩
        rcases mem_storeWrite he' with rfl | he'
        · show k' < k
          omega
        · exact hlt e' he'

omit [DecidableEq α] in
/-- What the bounds say, as a statement about members. -/
theorem storeWithin_iff : storeWithin lo n m = true ↔ ∀ e ∈ m, lo ≤ e.1 ∧ e.1 < lo + n := by
  simp [storeWithin, List.all_eq_true]

/-- A write inside the bounds stays inside them. -/
theorem storeWrite_within (h : storeWithin lo n m = true) (hk : lo ≤ k) (hk' : k < lo + n) :
    storeWithin lo n (storeWrite d k v m) = true := by
  rw [storeWithin_iff] at h ⊢
  intro e he
  rcases mem_storeWrite he with rfl | he
  · exact ⟨hk, hk'⟩
  · exact h e he

/-! ### Filling a range -/

theorem storeFill_wf (hwf : storeWf d m = true) : storeWf d (storeFill d f n m) = true := by
  induction n with
  | zero => exact hwf
  | succ n ih => exact storeWrite_wf ih

/-- After filling keys `0 .. n-1`, those read as `f` gives them and the others as before. -/
theorem storeRead_storeFill (hwf : storeWf d m = true) :
    storeRead d k (storeFill d f n m) = if k < n then f k else storeRead d k m := by
  induction n with
  | zero => simp [storeFill]
  | succ n ih =>
    rw [storeFill, storeRead_storeWrite (storeFill_wf hwf), ih]
    by_cases h : k = n
    · simp [h]
    · have : k < n + 1 ↔ k < n := by omega
      simp [h, this]

theorem storeFill_within (h : storeWithin 0 hi m = true) (hn : n ≤ hi) :
    storeWithin 0 hi (storeFill d f n m) = true := by
  induction n with
  | zero => exact h
  | succ n ih => exact storeWrite_within (ih (by omega)) (Nat.zero_le _) (by omega)

/-! ### Equal contents are equal lists -/

/-- Two canonical stores that read alike everywhere are the same list. -/
theorem store_ext {m' : Store α} (hm : storeWf d m = true) (hm' : storeWf d m' = true)
    (h : ∀ k, storeRead d k m = storeRead d k m') : m = m' := by
  induction m generalizing m' with
  | nil =>
    cases m' with
    | nil => rfl
    | cons e' rest' =>
      obtain ⟨k', v'⟩ := e'
      have hv := (storeWf_cons.mp hm').1
      have := h k'
      simp only [storeRead, ↓reduceIte] at this
      exact absurd this.symm hv
  | cons e rest ih =>
    obtain ⟨k, v⟩ := e
    obtain ⟨hv, hlt, hrest⟩ := storeWf_cons.mp hm
    cases m' with
    | nil =>
      have := h k
      simp only [storeRead, ↓reduceIte] at this
      exact absurd this hv
    | cons e' rest' =>
      obtain ⟨k', v'⟩ := e'
      obtain ⟨hv', hlt', hrest'⟩ := storeWf_cons.mp hm'
      have hk : k = k' := by
        by_contra hne
        rcases Nat.lt_or_gt_of_ne hne with hl | hl
        · have h1 := h k
          have h2 : storeRead d k ((k', v') :: rest') = d := by
            refine storeRead_of_forall_lt fun e he => ?_
            rcases List.mem_cons.mp he with rfl | he
            · exact hl
            · exact Nat.lt_trans hl (hlt' e he)
          rw [h2] at h1
          simp only [storeRead, ↓reduceIte] at h1
          exact hv h1
        · have h1 := h k'
          have h2 : storeRead d k' ((k, v) :: rest) = d := by
            refine storeRead_of_forall_lt fun e he => ?_
            rcases List.mem_cons.mp he with rfl | he
            · exact hl
            · exact Nat.lt_trans hl (hlt e he)
          rw [h2] at h1
          simp only [storeRead, ↓reduceIte] at h1
          exact hv' h1.symm
      subst hk
      have hvv : v = v' := by
        have := h k
        simpa only [storeRead, ↓reduceIte] using this
      subst hvv
      refine congrArg _ (ih hrest hrest' fun j => ?_)
      by_cases hj : j = k
      · subst hj
        rw [storeRead_of_forall_lt hlt, storeRead_of_forall_lt hlt']
      · have := h j
        simpa only [storeRead, if_neg hj] using this

/-! ### Byte memory -/

theorem Memory.read_write_same {mem : Memory} {a : Nat} {b : Byte} (h : mem.wf = true) :
    (mem.write a b).read a = b := storeRead_storeWrite_same h

theorem Memory.read_write_other {mem : Memory} {a a' : Nat} {b : Byte} (h : a' ≠ a) :
    (mem.write a b).read a' = mem.read a' := storeRead_storeWrite_other h

theorem Memory.read_write {mem : Memory} {a a' : Nat} {b : Byte} (h : mem.wf = true) :
    (mem.write a b).read a' = if a' = a then b else mem.read a' := storeRead_storeWrite h

theorem Memory.write_wf {mem : Memory} {a : Nat} {b : Byte} (h : mem.wf = true) :
    (mem.write a b).wf = true := storeWrite_wf h

theorem Memory.write_within {mem : Memory} {a : Nat} {b : Byte} (h : storeWithin lo n mem = true) (hk : lo ≤ a)
    (hk' : a < lo + n) : storeWithin lo n (mem.write a b) = true := storeWrite_within h hk hk'

/-- The four lanes of a field are the offsets 0 to 3 in some order. -/
theorem byteLane_lt (o : ByteOrder) (i : Nat) (h : i < 4) : byteLane o i < 4 := by
  cases o <;> simp [byteLane] <;> omega

theorem byteLane_inj (o : ByteOrder) {i i' : Nat} (h : i < 4) (h' : i' < 4) (he : byteLane o i = byteLane o i') :
    i = i' := by
  cases o <;> simp [byteLane] at he <;> omega

theorem memPutWord_wf {o : ByteOrder} {mem : Memory} {a : Nat} {w : Word32} (h : mem.wf = true) :
    (memPutWord o mem a w).wf = true :=
  Memory.write_wf (Memory.write_wf (Memory.write_wf (Memory.write_wf h)))

/-- Storing a 4-byte field leaves every byte outside it alone. -/
theorem memPutWord_read_other {o : ByteOrder} {mem : Memory} {a a' : Nat} {w : Word32}
    (h : a' < a ∨ a + 4 ≤ a') : (memPutWord o mem a w).read a' = mem.read a' := by
  have hl : ∀ i, i < 4 → a' ≠ a + byteLane o i := fun i hi => by have := byteLane_lt o i hi; omega
  simp only [memPutWord]
  rw [Memory.read_write_other (hl 3 (by omega)), Memory.read_write_other (hl 2 (by omega)),
    Memory.read_write_other (hl 1 (by omega)), Memory.read_write_other (hl 0 (by omega))]

theorem memPutWord_within {o : ByteOrder} {mem : Memory} {a : Nat} {w : Word32} (h : storeWithin lo n mem = true)
    (hk : lo ≤ a) (hk' : a + 4 ≤ lo + n) : storeWithin lo n (memPutWord o mem a w) = true := by
  have hl : ∀ i, i < 4 → lo ≤ a + byteLane o i ∧ a + byteLane o i < lo + n :=
    fun i hi => by have := byteLane_lt o i hi; omega
  simp only [memPutWord]
  exact Memory.write_within (Memory.write_within (Memory.write_within (Memory.write_within h
    (hl 0 (by omega)).1 (hl 0 (by omega)).2) (hl 1 (by omega)).1 (hl 1 (by omega)).2)
    (hl 2 (by omega)).1 (hl 2 (by omega)).2) (hl 3 (by omega)).1 (hl 3 (by omega)).2

/-- A 4-byte value is the value of its four bytes. -/
theorem word32OfBytes_bytes (w : Word32) :
    word32OfBytes (word32Byte w 0) (word32Byte w 1) (word32Byte w 2) (word32Byte w 3) = w := by
  apply BitVec.eq_of_getLsbD_eq
  intro i hi
  simp only [word32OfBytes, word32Byte, BitVec.getLsbD_or, BitVec.getLsbD_shiftLeft, BitVec.getLsbD_setWidth,
    BitVec.getLsbD_extractLsb']
  interval_cases i <;> simp

/-- A 4-byte field reads back as it was stored. -/
theorem memWord_memPutWord {o : ByteOrder} {mem : Memory} {a : Nat} {w : Word32} (h : mem.wf = true) :
    memWord o (memPutWord o mem a w) a = w := by
  have h0 : (mem.write (a + byteLane o 0) (word32Byte w 0)).wf = true := Memory.write_wf h
  have h1 := Memory.write_wf (a := a + byteLane o 1) (b := word32Byte w 1) h0
  have h2 := Memory.write_wf (a := a + byteLane o 2) (b := word32Byte w 2) h1
  have e : ∀ i i', i < 4 → i' < 4 → i ≠ i' → a + byteLane o i ≠ a + byteLane o i' :=
    fun i i' hi hi' hne he => hne (byteLane_inj o hi hi' (by omega))
  have r3 : (memPutWord o mem a w).read (a + byteLane o 3) = word32Byte w 3 := Memory.read_write_same h2
  have r2 : (memPutWord o mem a w).read (a + byteLane o 2) = word32Byte w 2 := by
    simp only [memPutWord]
    rw [Memory.read_write_other (e 2 3 (by omega) (by omega) (by omega))]
    exact Memory.read_write_same h1
  have r1 : (memPutWord o mem a w).read (a + byteLane o 1) = word32Byte w 1 := by
    simp only [memPutWord]
    rw [Memory.read_write_other (e 1 3 (by omega) (by omega) (by omega)),
      Memory.read_write_other (e 1 2 (by omega) (by omega) (by omega))]
    exact Memory.read_write_same h0
  have r0 : (memPutWord o mem a w).read (a + byteLane o 0) = word32Byte w 0 := by
    simp only [memPutWord]
    rw [Memory.read_write_other (e 0 3 (by omega) (by omega) (by omega)),
      Memory.read_write_other (e 0 2 (by omega) (by omega) (by omega)),
      Memory.read_write_other (e 0 1 (by omega) (by omega) (by omega))]
    exact Memory.read_write_same h
  rw [memWord, r0, r1, r2, r3, word32OfBytes_bytes]

/-- A 4-byte field depends on its own four bytes only. -/
theorem memWord_congr {o : ByteOrder} {mem mem' : Memory} {a : Nat}
    (h : ∀ a', a ≤ a' → a' < a + 4 → mem.read a' = mem'.read a') : memWord o mem a = memWord o mem' a := by
  have hl : ∀ i, i < 4 → mem.read (a + byteLane o i) = mem'.read (a + byteLane o i) :=
    fun i hi => h _ (by omega) (by have := byteLane_lt o i hi; omega)
  simp only [memWord, hl 0 (by omega), hl 1 (by omega), hl 2 (by omega), hl 3 (by omega)]

end Sys2Proof.Machine
end

