-- ==== Sys2Proof/Laws/Ops.lean ====
section
/-! SUPPORT. What each shared operation can do, said once: acceptance, the cells of the index spaces, the mailbox
fields, the codec's bits, the sequencer's transitions, the loop's moves. -/

namespace Sys2Proof.Machine

variable {s t : State}

/-! ### Acceptance -/

/-- An operation answers a next state exactly when the block is idle and the context is the loop's. -/
theorem operation_next {i : Instr} {run : State → State} :
    operation i s run = .next t ↔ s.context = .loop ∧ s.busy = false ∧ t = run (accept i s) := by
  unfold operation
  cases hc : s.context <;> cases hb : s.busy <;> simp [eq_comm]

theorem operation_of_accepts {i : Instr} {run : State → State} (h : Accepts s) :
    operation i s run = .next (run (accept i s)) :=
  operation_next.mpr ⟨h.context, h.busy, rfl⟩

/-! ### The cells of the index spaces -/

/-- Two in-range pairs have the same key only if they are the same pair. -/
theorem key_inj {n p p' c c' : Nat} (hc : c < n) (hc' : c' < n) (h : p * n + c = p' * n + c') : p = p' ∧ c = c' := by
  have hn : 0 < n := by omega
  have hd : ∀ q r, r < n → (q * n + r) / n = q := fun q r hr => by
    rw [Nat.mul_comm, Nat.mul_add_div hn, Nat.div_eq_of_lt hr, Nat.add_zero]
  have hp : p = p' := by rw [← hd p c hc, h, hd p' c' hc']
  subst hp
  exact ⟨rfl, by omega⟩

theorem key_lt {n m p c : Nat} (hp : p < m) (hc : c < n) : p * n + c < m * n := by
  calc p * n + c < p * n + n := by omega
    _ = (p + 1) * n := by ring
    _ ≤ m * n := Nat.mul_le_mul_right n hp

theorem key_div {n p c : Nat} (hc : c < n) : (p * n + c) / n = p := by
  rw [Nat.mul_comm, Nat.mul_add_div (by omega), Nat.div_eq_of_lt hc, Nat.add_zero]

theorem key_mod {n p c : Nat} (hc : c < n) : (p * n + c) % n = c := by
  rw [Nat.mul_comm, Nat.mul_add_mod, Nat.mod_eq_of_lt hc]

/-- After a write of M[p][c] every in-range cell reads as before but for that one (10_state R11). -/
theorem matrixCell_writeCell {p c p' c' : Nat} {x : Cell} (hwf : storeWf zeroCell s.matrix = true)
    (hc : c < s.cfg.channels) (hc' : c' < s.cfg.channels) :
    matrixCell s.cfg (writeCell p c x s).matrix p' c' =
      if p' = p ∧ c' = c then x else matrixCell s.cfg s.matrix p' c' := by
  simp only [matrixCell, writeCell_matrix, storeRead_storeWrite hwf, matrixKey]
  by_cases h : p' = p ∧ c' = c
  · simp [h]
  · have : ¬ p' * s.cfg.channels + c' = p * s.cfg.channels + c := fun he => h (key_inj hc' hc he)
    simp [h, this]

/-- After the derivation every cell inside the new bounds is the payload of the matrix (41_cache R125). -/
theorem arenaCell_rebuildCache {n p d : Nat} (hwf : storeWf 0#24 s.arena = true) (hp : p < n)
    (hd : d < s.cfg.deviceCount) : arenaCell (rebuildCache n s) p d = payloadOf s.cfg s.matrix p d := by
  simp only [arenaCell, arenaKey, rebuildCache, storeRead_storeFill hwf, if_pos (key_lt hp hd), key_div hd, key_mod hd]

theorem outCell_setOut {d d' : Nat} {p : Payload} (hwf : storeWf 0#24 s.out = true) :
    outCell (setOut d p s) d' = if d' = d then p else outCell s d' := by
  simp [outCell, storeRead_storeWrite hwf]

/-! ### The mailbox -/

/-- A field depends on the configuration and the mailbox only. -/
theorem mailField_congr {f : MailField} (hc : t.cfg = s.cfg) (hm : t.mailbox = s.mailbox) :
    mailField t f = mailField s f := by
  simp [mailField, hc, hm]

theorem mailPayload_congr {i : Nat} (hc : t.cfg = s.cfg) (hm : t.mailbox = s.mailbox) :
    mailPayload t i = mailPayload s i := by
  simp [mailPayload, hc, hm]

/-- Validity depends on the configuration and the mailbox only (43_command_channel R181). -/
theorem messageValid_congr (hc : t.cfg = s.cfg) (hm : t.mailbox = s.mailbox) : messageValid t = messageValid s := by
  simp [messageValid, mailField_congr hc hm, hc]

/-- What a valid message is (43_command_channel R181). -/
theorem messageValid_iff : messageValid s = true ↔ mailField s .magic = s.cfg.magic ∧ mailField s .status = 1#32 := by
  simp [messageValid]

@[simp] theorem mailField_setInputs {l : List Input} {f : MailField} : mailField (setInputs l s) f = mailField s f :=
  mailField_congr rfl rfl

@[simp] theorem messageValid_setInputs {l : List Input} : messageValid (setInputs l s) = messageValid s :=
  messageValid_congr rfl rfl

@[simp] theorem mailField_beginNotify {f : MailField} : mailField (beginNotify s) f = mailField s f :=
  mailField_congr rfl rfl

theorem fieldOffset_inj {f g : MailField} (h : fieldOffset f = fieldOffset g) : f = g := by
  cases f <;> cases g <;> simp_all [fieldOffset]

theorem fieldOffset_apart {f g : MailField} (h : f ≠ g) :
    fieldOffset f + 4 ≤ fieldOffset g ∨ fieldOffset g + 4 ≤ fieldOffset f := by
  cases f <;> cases g <;> simp_all [fieldOffset]

theorem fieldOffset_le (f : MailField) : fieldOffset f + 4 ≤ mailboxHeaderBytes := by
  cases f <;> simp [fieldOffset, mailboxHeaderBytes]

/-- A stored field reads back; the other fields read as before (20_memory R52). -/
theorem mailField_putMailField {f g : MailField} {v : Word32} (hwf : s.mailbox.wf = true) :
    mailField (putMailField f v s) g = if g = f then v else mailField s g := by
  by_cases h : g = f
  · subst h
    simp [mailField, memWord_memPutWord hwf]
  · rw [if_neg h]
    simp only [mailField, putMailField_cfg, putMailField_mailbox]
    refine memWord_congr fun a h1 h2 => memPutWord_read_other ?_
    simp only [mailboxAddr] at h1 h2 ⊢
    rcases fieldOffset_apart h with h | h <;> omega

theorem mailPayload_putMailField {f : MailField} {v : Word32} {i : Nat} :
    mailPayload (putMailField f v s) i = mailPayload s i := by
  simp only [mailPayload, putMailField_cfg, putMailField_mailbox]
  refine memPutWord_read_other (.inr ?_)
  have := fieldOffset_le f
  simp only [mailboxAddr]
  omega

theorem mailField_putMailPayload {g : MailField} {b : Byte} {i : Nat} :
    mailField (putMailPayload i b s) g = mailField s g := by
  simp only [mailField, putMailPayload_cfg, putMailPayload_mailbox]
  refine memWord_congr fun a _ h2 => Memory.read_write_other ?_
  have := fieldOffset_le g
  simp only [mailboxAddr] at h2 ⊢
  omega

theorem mailPayload_putMailPayload {b : Byte} {i j : Nat} (hwf : s.mailbox.wf = true) :
    mailPayload (putMailPayload i b s) j = if j = i then b else mailPayload s j := by
  simp only [mailPayload, putMailPayload_cfg, putMailPayload_mailbox, Memory.read_write hwf, mailboxAddr]
  by_cases h : j = i
  · simp [h]
  · simp [h]

/-- The first `n` bytes of the copy are the message's, the rest of the buffer is as it was (43_command_channel
R182). -/
theorem copyPayload_read {n i : Nat} (hwf : s.pb.payload.wf = true) :
    (copyPayload n s).read i = if i < n then mailPayload s i else s.pb.payload.read i :=
  storeRead_storeFill hwf

/-! ### The codec -/

/-- r[i] = t[6-i] (40_codec R100). -/
theorem getLsbD_rev7 {u : BitVec 7} {i : Nat} (h : i < 7) : (rev7 u).getLsbD i = u.getLsbD (6 - i) := by
  simp only [rev7, BitVec.getLsbD_append, BitVec.getLsbD_ofBool]
  interval_cases i <;> simp

/-- The three fields of a channel word, bit by bit (30_encoding R70). -/
theorem getLsbD_packChannel {u : BitVec 7} {m : BitVec 4} {d : Bool} {i : Nat} :
    (packChannel u m d).getLsbD i =
      if i < 4 then m.getLsbD i else if i < 11 then (rev7 u).getLsbD (i - 4) else (decide (i = 11) && d) := by
  simp only [packChannel, BitVec.getLsbD_append, BitVec.getLsbD_ofBool]
  by_cases h4 : i < 4
  · simp [h4]
  · by_cases h11 : i < 11
    · simp [h4, h11, show i - 4 < 7 by omega]
    · have : ¬ i - 4 < 7 := by omega
      simp only [h4, h11, this, if_false]
      congr 1
      simp; omega

/-! ### A running PRECOMPUTE -/

/-- What a step of a PRECOMPUTE can do (41_cache R124, R125). -/
theorem precomputeStep_cases (s : State) :
    (∃ n, s.precompute = .resource n ∧ allocOk s = true ∧
      precomputeStep s = setPrecompute (.derive n) (takeAlloc s)) ∨
    (∃ n, s.precompute = .resource n ∧ allocOk s = false ∧
      precomputeStep s = respond .resourceError 0#24 (emptyCache (setPrecompute .idle (takeAlloc s)))) ∨
    (∃ n, s.precompute = .derive n ∧
      precomputeStep s = respond .ok 0#24 (rebuildCache n.toNat (setPrecompute .idle s))) ∨
    (s.precompute = .idle ∧ precomputeStep s = s) := by
  unfold precomputeStep
  cases hp : s.precompute with
  | idle => exact .inr (.inr (.inr ⟨rfl, rfl⟩))
  | resource n =>
    cases ha : allocOk s
    · exact .inr (.inl ⟨n, rfl, rfl, by simp [resourceStep, ha]⟩)
    · exact .inl ⟨n, rfl, rfl, by simp [resourceStep, ha]⟩
  | derive n => exact .inr (.inr (.inl ⟨n, rfl, rfl⟩))

/-! ### The sequencer -/

/-- The two ways a device is left (42_sequencer R159). -/
theorem nextDevice_cases (s : State) :
    (s.devIdx + 1 < s.cfg.deviceCount ∧ nextDevice s = setSeq .select (advanceDevice s)) ∨
    (s.cfg.deviceCount ≤ s.devIdx + 1 ∧ nextDevice s = endWalk (advanceDevice s)) := by
  unfold nextDevice
  split
  · next h => exact .inl ⟨h, rfl⟩
  · next h => exact .inr ⟨Nat.le_of_not_lt h, rfl⟩

/-- What a select step can do. -/
theorem selectStep_cases (r : DeviceRow) (s : State) :
    (nextBusAnswer s = .noAnswer ∧ selectStep r s = takeBusAnswer s) ∨
    (nextBusAnswer s = .ok ∧ selectStep r s =
      setSeq .write (observe (.selectBus r.bus true) (setBus (some r.bus) (takeBusAnswer s)))) ∨
    (nextBusAnswer s = .fail ∧ selectStep r s =
      nextDevice (observe (.selectBus r.bus false) (setBus none (takeBusAnswer s)))) := by
  unfold selectStep
  cases h : nextBusAnswer s <;> simp

/-- What a write step can do. -/
theorem writeStep_cases (r : DeviceRow) (s : State) :
    (nextBusAnswer s = .noAnswer ∧ writeStep r s = takeBusAnswer s) ∨
    (nextBusAnswer s = .ok ∧ writeStep r s =
      nextDevice (observe (writeEvent r true s) (deliver r (takeBusAnswer s)))) ∨
    (nextBusAnswer s = .fail ∧ writeStep r s =
      nextDevice (observe (writeEvent r false s) (takeBusAnswer s))) := by
  unfold writeStep
  cases h : nextBusAnswer s <;> simp

/-- Where a successful write can land. -/
theorem deliver_cases (r : DeviceRow) (s : State) :
    (s.selectedBus = some r.bus ∧ deliver r s = setOut s.devIdx (walkPayload s) s) ∨
    (∃ d, d < s.cfg.deviceCount ∧ deliver r s = countDraw (setOut d (walkPayload s) s)) ∨
    deliver r s = countDraw s := by
  unfold deliver
  split
  · next h => exact .inl ⟨h, rfl⟩
  · cases hx : existingRow s.cfg (Config.freeMisroute s.draws) with
    | none => exact .inr (.inr rfl)
    | some d =>
      refine .inr (.inl ⟨d, ?_, rfl⟩)
      unfold existingRow at hx
      split at hx
      · split at hx
        · cases hx; assumption
        · cases hx
      · cases hx

/-- A mapping index below DEVICE_COUNT has a row. -/
theorem row_of_lt {cfg : Config} {d : Nat} (h : d < cfg.deviceCount) : ∃ r, cfg.deviceMap[d]? = some r :=
  ⟨cfg.deviceMap[d]'h, List.getElem?_eq_getElem h⟩

/-! ### Steps -/

theorem Config.wf_parts {cfg : Config} (h : cfg.wf = true) :
    cfg.mappingOk = true ∧ cfg.mailboxAligned = true ∧ cfg.parametersOk = true := by
  simpa [Config.wf, and_assoc] using h

/-- Under a well-formed configuration the schedule decides. -/
theorem nextAction_of_wf (h : s.cfg.wf = true) : nextAction s = scheduledStep s := by
  obtain ⟨h1, h2, h3⟩ := Config.wf_parts h
  simp [nextAction, h1, h2, h3]

/-- Only a well-formed configuration has a next state, and the schedule gave it. -/
theorem step_next_wf (h : step s = .next t) : s.cfg.wf = true := by
  unfold step nextAction at h
  cases h1 : s.cfg.mappingOk <;> cases h2 : s.cfg.mailboxAligned <;> cases h3 : s.cfg.parametersOk <;>
    simp_all [Config.wf]

theorem step_of_run {i : Instr} {u : State} (h : nextAction s = .run i u) : step s = exec i u := by
  simp [step, h]

theorem step_of_done {u : State} (h : nextAction s = .done u) : step s = .next u := by
  simp [step, h]

end Sys2Proof.Machine
end

