-- ==== Sys2Proof/Laws/Step.lean ====
section
/-! SUPPORT. What a step can do, said once: whose turn it is, the eight kinds of step, and what each leaves alone. -/

namespace Sys2Proof.Machine

variable {s t u : State}

/-- On its own turn the machine takes a step of its own. -/
theorem nextAction_ownTurn (h : OwnTurn s) : nextAction s = machineStep (setInputs s.inputs.tail s) := by
  rw [nextAction_of_wf h.cfgWf]
  rcases h.inputs with hi | ⟨r, hi⟩
  · simp only [scheduledStep, hi, List.tail]
    cases s
    simp_all [setInputs]
  · simp [scheduledStep, hi, inputStep]

/-- While an APPLY walks, the machine's own step is the sequencer's. -/
theorem step_walk (h : OwnTurn s) (hs : s.seqState ≠ .idle) :
    step s = .next (seqStep (setInputs s.inputs.tail s)) := by
  refine step_of_done ?_
  rw [nextAction_ownTurn h, machineStep]
  simp [hs]

/-- While a PRECOMPUTE runs, it is the cache's. -/
theorem step_precompute (h : OwnTurn s) (hs : s.seqState = .idle) (hp : s.precompute ≠ .idle) :
    step s = .next (precomputeStep (setInputs s.inputs.tail s)) := by
  refine step_of_done ?_
  rw [nextAction_ownTurn h, machineStep]
  simp [hs, hp]

/-- Else it is the loop's. -/
theorem nextAction_loop (h : LoopTurn s) : nextAction s = loopStep (setInputs s.inputs.tail s) := by
  rw [nextAction_ownTurn h.own, machineStep]
  simp [h.seqState, h.precompute]

theorem step_loop_done (h : LoopTurn s) (hd : loopStep (setInputs s.inputs.tail s) = .done t) : step s = .next t :=
  step_of_done ((nextAction_loop h).trans hd)

theorem Undisturbed.ownTurn (h : Undisturbed s) : OwnTurn s := ⟨h.cfgWf, .inl h.inputs⟩

theorem Undisturbed.loopTurn (h : Undisturbed s) (hb : BlockIdle s) : LoopTurn s :=
  ⟨h.ownTurn, hb.seqState, hb.precompute⟩

theorem Undisturbed.setInputs_tail (h : Undisturbed s) : setInputs s.inputs.tail s = s := by
  have := h.inputs
  cases s
  simp_all [setInputs]

theorem Undisturbed.step_done (h : Undisturbed s) (hb : BlockIdle s) (hd : loopStep s = .done t) :
    step s = .next t :=
  step_loop_done (h.loopTurn hb) (by rwa [h.setInputs_tail])

/-- The three lines are distinct (00_scope R5), so a write of one output leaves the other alone. -/
theorem lineWrite_triggerLine {v : Bool} (h : s.cfg.wf = true) :
    lineWrite s.cfg.triggerLine v s = { s with trigger := v, trace := .lineWrite s.cfg.triggerLine v :: s.trace } := by
  have := (Config.wf_parts h).2.2
  have hne : s.cfg.triggerLine ≠ s.cfg.strobeLine := by
    simp [Config.parametersOk, Config.linesDistinct] at this
    tauto
  simp [lineWrite, hne]

theorem lineWrite_strobeLine {v : Bool} (h : s.cfg.wf = true) :
    lineWrite s.cfg.strobeLine v s = { s with strobe := v, trace := .lineWrite s.cfg.strobeLine v :: s.trace } := by
  have := (Config.wf_parts h).2.2
  have hne : s.cfg.strobeLine ≠ s.cfg.triggerLine := by
    simp [Config.parametersOk, Config.linesDistinct] at this
    tauto
  simp [lineWrite, hne]

/-! ### Runs -/

theorem runs_zero : runs 0 s t ↔ s = t := Iff.rfl

theorem runs_one (h : step s = .next t) : runs 1 s t := ⟨t, h, rfl⟩

theorem runs_cons {n : Nat} (h : step s = .next u) (hr : runs n u t) : runs (n + 1) s t := ⟨u, h, hr⟩

theorem runs_add {m n : Nat} (h : runs m s u) (h' : runs n u t) : runs (m + n) s t := by
  induction m generalizing s with
  | zero => cases h; simpa using h'
  | succ m ih =>
    obtain ⟨v, hv, hr⟩ := h
    rw [Nat.add_right_comm]
    exact ⟨v, hv, ih hr⟩

/-! ### The kinds of step -/

/-- The state an entry of the schedule leaves for the handler. -/
theorem nextAction_input {e : Input} {rest : List Input} (hw : s.cfg.wf = true) (h : s.inputs = e :: rest) :
    nextAction s = inputStep e (setInputs rest s) := by
  rw [nextAction_of_wf hw]
  simp [scheduledStep, h]

/-- Every step that answers a next state is one of these. -/
theorem step_cases (h : step s = .next t) : s.cfg.wf = true ∧
    ((∃ i u, nextAction s = .run i u ∧ exec i u = .next t) ∨
    (OwnTurn s ∧ s.seqState ≠ .idle ∧ t = seqStep (setInputs s.inputs.tail s)) ∨
    (OwnTurn s ∧ s.seqState = .idle ∧ s.precompute ≠ .idle ∧ t = precomputeStep (setInputs s.inputs.tail s)) ∨
    (LoopTurn s ∧ loopStep (setInputs s.inputs.tail s) = .done t) ∨
    (∃ v rest, s.inputs = .edge v :: rest ∧ t = edgeHandler v (setInputs rest s)) ∨
    (∃ rest, s.inputs = .notify :: rest ∧ messageValid s = true ∧ (mailField s .len).toNat ≤ mailboxPayloadMax ∧
      t = takeMessage (beginNotify (setInputs rest s))) ∨
    (∃ f v rest, s.inputs = .hostField f v :: rest ∧ t = putMailField f v (setInputs rest s)) ∨
    (∃ i b rest, s.inputs = .hostPayload i b :: rest ∧ i < mailboxPayloadMax ∧
      t = putMailPayload i b (setInputs rest s))) := by
  have hw := step_next_wf h
  refine ⟨hw, ?_⟩
  have hown : OwnTurn s → step s = .next t →
      ((∃ i u, nextAction s = .run i u ∧ exec i u = .next t) ∨
      (OwnTurn s ∧ s.seqState ≠ .idle ∧ t = seqStep (setInputs s.inputs.tail s)) ∨
      (OwnTurn s ∧ s.seqState = .idle ∧ s.precompute ≠ .idle ∧ t = precomputeStep (setInputs s.inputs.tail s)) ∨
      (LoopTurn s ∧ loopStep (setInputs s.inputs.tail s) = .done t)) := by
    intro ho h
    by_cases hq : s.seqState = .idle
    · by_cases hp : s.precompute = .idle
      · have hl : LoopTurn s := ⟨ho, hq, hp⟩
        cases hn : loopStep (setInputs s.inputs.tail s) with
        | run i u =>
          rw [← nextAction_loop hl] at hn
          exact .inl ⟨i, u, hn, by rwa [step_of_run hn] at h⟩
        | done u =>
          rw [step_loop_done hl hn] at h
          cases h
          exact .inr (.inr (.inr ⟨hl, rfl⟩))
        | fault f => rw [← nextAction_loop hl] at hn; simp [step, hn] at h
        | refuse r => rw [← nextAction_loop hl] at hn; simp [step, hn] at h
      · rw [step_precompute ho hq hp] at h
        cases h
        exact .inr (.inr (.inl ⟨ho, hq, hp, rfl⟩))
    · rw [step_walk ho hq] at h
      cases h
      exact .inr (.inl ⟨ho, hq, rfl⟩)
  cases hi : s.inputs with
  | nil => rcases hown ⟨hw, .inl hi⟩ h with h | h | h | h
           · exact .inl h
           · exact .inr (.inl (by rwa [hi] at h))
           · exact .inr (.inr (.inl (by rwa [hi] at h)))
           · exact .inr (.inr (.inr (.inl (by rwa [hi] at h))))
  | cons e rest =>
    have hn := nextAction_input hw hi
    cases e with
    | machine => rcases hown ⟨hw, .inr ⟨rest, hi⟩⟩ h with h | h | h | h
                 · exact .inl h
                 · exact .inr (.inl (by rwa [hi] at h))
                 · exact .inr (.inr (.inl (by rwa [hi] at h)))
                 · exact .inr (.inr (.inr (.inl (by rwa [hi] at h))))
    | edge v =>
      rw [step_of_done hn] at h
      cases h
      exact .inr (.inr (.inr (.inr (.inl ⟨v, rest, rfl, rfl⟩))))
    | notify =>
      simp only [inputStep, notifyStep, messageValid_setInputs, mailField_setInputs] at hn
      split at hn
      · next hv =>
        split at hn
        · simp [step, hn] at h
        · next hl =>
          rw [step_of_done hn] at h
          cases h
          exact .inr (.inr (.inr (.inr (.inr (.inl ⟨rest, rfl, hv, Nat.le_of_not_lt hl, rfl⟩)))))
      · exact .inl ⟨_, _, hn, by rwa [step_of_run hn] at h⟩
    | hostField f v =>
      rw [step_of_done hn] at h
      cases h
      exact .inr (.inr (.inr (.inr (.inr (.inr (.inl ⟨f, v, rest, rfl, rfl⟩))))))
    | hostPayload i b =>
      simp only [inputStep, hostPayloadStep] at hn
      split at hn
      · next hlt =>
        rw [step_of_done hn] at h
        cases h
        exact .inr (.inr (.inr (.inr (.inr (.inr (.inr ⟨i, b, rest, rfl, hlt, rfl⟩))))))
      · simp [step, hn] at h

/-! ### Where an instruction comes from -/

/-- The instructions the loop's own step runs, each with the state it runs at. -/
theorem loopStep_run {i : Instr} (h : loopStep s = .run i u) :
    (∃ cw rest, s.loopPos = .top ∧ s.commands = cw :: rest ∧ decode (.command cw) = .ok i ∧ u = setCommands rest s) ∨
    (s.loopPos = .presetApply ∧ i = .apply (BitVec.setWidth 16 s.pendingPreset) ∧ u = goto .presetClear s) ∨
    (s.loopPos = .dispatch ∧ decode (.mailboxCmd s.pb.cmd) = .ok i ∧ u = goto .mailClear s) ∨
    (∃ g n, s.loopPos = .bulkGroup g n ∧ g < n ∧ groupPreset s.cfg g < s.cfg.maxPresets ∧
      i = .loadcfg (BitVec.ofNat 16 (groupPreset s.cfg g)) (BitVec.ofNat 8 (groupChannel s.cfg g))
        (groupOperand s.pb g) ∧ u = goto (.bulkGroup (g + 1) n) s) ∨
    (∃ g n, s.loopPos = .bulkGroup g n ∧ n ≤ g ∧ i = .precompute (BitVec.ofNat 16 s.cfg.activePresets) ∧
      u = goto .mailClear s) := by
  unfold loopStep at h
  split at h
  case h_1 hp =>
    unfold topStep at h
    split at h
    · next cw rest hc =>
      unfold commandStep at h
      split at h
      · next j hd => cases h; exact .inl ⟨cw, rest, hp, hc, hd, rfl⟩
      · cases h
    · cases h
  case h_2 hp => cases h; exact .inr (.inl ⟨hp, rfl, rfl⟩)
  case h_17 hp =>
    unfold dispatchStep at h
    split at h
    · next j hd => cases h; exact .inr (.inr (.inl ⟨hp, hd, rfl⟩))
    · cases h
  case h_18 g n hp =>
    unfold bulkStep at h
    split at h
    · next hg =>
      split at h
      · next hm => cases h; exact .inr (.inr (.inr (.inl ⟨g, n, hp, hg, hm, rfl, rfl⟩)))
      · cases h
    · next hg => cases h; exact .inr (.inr (.inr (.inr ⟨g, n, hp, Nat.le_of_not_lt hg, rfl, rfl⟩)))
  all_goals cases h

/-- An instruction is run by the loop, on the loop's turn, or it is the PROBE of a notification whose message is
invalid. -/
theorem nextAction_run {i : Instr} (h : nextAction s = .run i u) :
    (LoopTurn s ∧ loopStep (setInputs s.inputs.tail s) = .run i u) ∨
    (∃ rest, s.inputs = .notify :: rest ∧ messageValid s = false ∧ i = .probe ∧
      u = beginNotify (setInputs rest s)) := by
  have hw : s.cfg.wf = true := by
    unfold nextAction at h
    cases h1 : s.cfg.mappingOk <;> cases h2 : s.cfg.mailboxAligned <;> cases h3 : s.cfg.parametersOk <;>
      simp_all [Config.wf]
  have hown : OwnTurn s → LoopTurn s ∧ loopStep (setInputs s.inputs.tail s) = .run i u := by
    intro ho
    rw [nextAction_ownTurn ho, machineStep] at h
    by_cases hq : s.seqState = .idle <;> by_cases hp : s.precompute = .idle <;> simp [hq, hp] at h
    exact ⟨⟨ho, hq, hp⟩, h⟩
  cases hi : s.inputs with
  | nil => exact .inl (by simpa [hi] using hown ⟨hw, .inl hi⟩)
  | cons e rest =>
    cases e with
    | machine => exact .inl (by simpa [hi] using hown ⟨hw, .inr ⟨rest, hi⟩⟩)
    | edge v => rw [nextAction_input hw hi] at h; cases h
    | hostField f v => rw [nextAction_input hw hi] at h; cases h
    | hostPayload j b =>
      rw [nextAction_input hw hi] at h
      simp only [inputStep, hostPayloadStep] at h
      split at h <;> cases h
    | notify =>
      rw [nextAction_input hw hi] at h
      simp only [inputStep, notifyStep, messageValid_setInputs] at h
      split at h
      · split at h <;> cases h
      · next hv => cases h; exact .inr ⟨rest, rfl, by simpa using hv, rfl, rfl⟩

/-- The state an instruction runs at differs from the step's state in the schedule, the loop's position, the waiting
calls, the context and the trace only. -/
theorem nextAction_run_frame {i : Instr} (h : nextAction s = .run i u) :
    u = { s with
      inputs := u.inputs, loopPos := u.loopPos, commands := u.commands, context := u.context, trace := u.trace } := by
  rcases nextAction_run h with ⟨_, h⟩ | ⟨_, _, _, _, h⟩
  · rcases loopStep_run h with ⟨_, _, _, _, _, h⟩ | ⟨_, _, h⟩ | ⟨_, _, h⟩ | ⟨_, _, _, _, _, _, h⟩ |
      ⟨_, _, _, _, _, h⟩ <;> rw [h] <;> rfl
  · rw [h]; rfl

/-! ### What each kind of step leaves alone -/

/-- Whether the cache holds the payloads of a matrix content depends on these four fields only. -/
theorem cacheOf_congr {m : Store Cell} (hc : t.cfg = s.cfg) (ha : t.arena = s.arena)
    (hp : t.cachedPresets = s.cachedPresets) (hd : t.cachedDevices = s.cachedDevices) :
    CacheOf m t ↔ CacheOf m s := by
  simp only [CacheOf, arenaCell, hc, ha, hp, hd]

/-- A probe's response touches the mailbox and the trace only. -/
theorem returnProbe_frame (b : ProbeBytes) (s : State) :
    returnProbe b s =
      { s with mailbox := (returnProbe b s).mailbox, trace := (returnProbe b s).trace } := by
  have hs : ∀ (o : Option Nat) (s : State), probeStore o b s =
      { s with mailbox := (probeStore o b s).mailbox, trace := (probeStore o b s).trace } := by
    intro o s; cases o <;> simp only [probeStore, coreWriteByte, observe, putMailPayload]
  have hf : ∀ (f : MailField) (o : Option Word32) (s : State), probeField f o s =
      { s with mailbox := (probeField f o s).mailbox, trace := (probeField f o s).trace } := by
    intro f o s; cases o <;> rfl
  have hn : ∀ (n : Bool) (s : State), probeNotify n s = { s with trace := (probeNotify n s).trace } := by
    intro n s; cases n <;> rfl
  unfold returnProbe
  rw [hn, hf, hf, hs]
  rfl

/-- Taking an answer touches the answers still to come and the count of draws only. -/
theorem takeBusAnswer_frame (s : State) :
    takeBusAnswer s = { s with busAnswers := s.busAnswers.tail, draws := (takeBusAnswer s).draws } := by
  unfold takeBusAnswer
  split <;> simp_all

theorem takeMuxRead_frame (s : State) :
    takeMuxRead s = { s with muxReads := s.muxReads.tail, draws := (takeMuxRead s).draws } := by
  unfold takeMuxRead
  split <;> simp_all

theorem takeAlloc_frame (s : State) :
    takeAlloc s = { s with allocAnswers := (takeAlloc s).allocAnswers, draws := (takeAlloc s).draws } := by
  unfold takeAlloc
  split
  · rfl
  · split <;> rfl

/-- PROBE touches the context, a suspended loop, the mailbox, the routing, the answers of the mux and the trace. -/
theorem execProbe_frame (h : execProbe s = .next t) :
    t = { s with
      context := .loop
      loopPos := wakePos s.loopPos
      mailbox := t.mailbox
      selectedBus := t.selectedBus
      muxReads := s.muxReads.tail
      draws := t.draws
      trace := t.trace } := by
  cases h
  rw [returnProbe_frame]
  simp only [returnFromInterrupt, readMux, observe, setBus, countDraw]
  rw [takeMuxRead_frame]

/-- What a probe's response leaves in the mailbox depends on the configuration and the mailbox only. -/
theorem returnProbe_mailbox_congr {b : ProbeBytes} (hc : t.cfg = s.cfg) (hm : t.mailbox = s.mailbox) :
    (returnProbe b t).mailbox = (returnProbe b s).mailbox := by
  have hs : ∀ o (u v : State), u.cfg = v.cfg → u.mailbox = v.mailbox →
      (probeStore o b u).mailbox = (probeStore o b v).mailbox := by
    intro o u v h1 h2; cases o <;> simp [probeStore, coreWriteByte, h1, h2]
  have hf : ∀ f o (u v : State), u.cfg = v.cfg → u.mailbox = v.mailbox →
      (probeField f o u).mailbox = (probeField f o v).mailbox := by
    intro f o u v h1 h2; cases o <;> simp [probeField, coreWriteField, h1, h2]
  have hsc : ∀ o (u : State), (probeStore o b u).cfg = u.cfg := by
    intro o u; cases o <;> simp [probeStore, coreWriteByte]
  have hfc : ∀ f o (u : State), (probeField f o u).cfg = u.cfg := by intro f o u; cases o <;> rfl
  have hn : ∀ n (u : State), (probeNotify n u).mailbox = u.mailbox := by intro n u; cases n <;> rfl
  unfold returnProbe
  rw [hn, hn, hc]
  refine hf _ _ _ _ (by simp [hfc, hsc, hc]) (hf _ _ _ _ (by simp [hsc, hc]) (hs _ _ _ ?_ ?_)) <;> simpa

/-- What PROBE leaves in the mailbox, in the routing and in the count of draws depends on these four fields only. -/
theorem execProbe_congr {s' t' : State} (hc : t.cfg = s.cfg) (hm : t.mailbox = s.mailbox)
    (hx : t.muxReads = s.muxReads) (hd : t.draws = s.draws) (hs : execProbe s = .next s')
    (ht : execProbe t = .next t') :
    t'.mailbox = s'.mailbox ∧ t'.selectedBus = s'.selectedBus ∧ t'.draws = s'.draws := by
  cases hs
  cases ht
  have hb : probeBytes t.cfg (nextMuxRead t) t.draws = probeBytes s.cfg (nextMuxRead s) s.draws := by
    simp [nextMuxRead, hc, hx, hd]
  have hr : (takeMuxRead t).draws = (takeMuxRead s).draws := by
    simp only [takeMuxRead, hx]
    split <;> simp [hd]
  refine ⟨?_, ?_, ?_⟩
  · rw [returnFromInterrupt_mailbox, returnFromInterrupt_mailbox, hb]
    exact returnProbe_mailbox_congr (by simp [readMux, hc]) (by simp [readMux, hm])
  all_goals
    rw [returnProbe_frame, returnProbe_frame (s := readMux s)]
    simp [readMux, hr]

/-- What the edge handler does (44_control_loop R216). -/
theorem edgeHandler_frame (v : Byte) (s : State) :
    edgeHandler v s = { s with
      context := .loop
      loopPos := wakePos s.loopPos
      presetInput := sampledValue s.cfg v
      pendingPreset := sampledValue s.cfg v
      presetChangeRequested := true
      pulseRequested := s.pulseRequested || s.cfg.edgeRaisesPulse
      trace := .barrier :: .lineRead s.cfg.presetInputLine (sampledValue s.cfg v) :: s.trace } := by
  cases s
  simp [edgeHandler, returnFromInterrupt, sampleRequest, takeInterrupt, setPresetInput, requestPulse, requestPreset,
    observe]

/-- What the handler does with a valid message of legal length (43_command_channel R182). -/
theorem takeMessage_frame (s : State) :
    takeMessage (beginNotify s) = { s with
      context := .loop
      loopPos := wakePos s.loopPos
      mailboxMessagePending := true
      pb := { cmd := mailField s .cmd, len := mailField s .len, payload := copyPayload (mailField s .len).toNat s }
      mailbox := (putMailField .status 2#32 s).mailbox
      trace := .barrier :: .notifyPeer :: .memWrite 12 4 2#32 ::
        (payloadReads (mailField s .len).toNat ++
          .memRead 8 4 :: .memRead 4 4 :: .memRead 12 4 :: .memRead 0 4 :: s.trace) } := by
  cases s
  simp [takeMessage, beginNotify, coreReadField, coreWriteField, copyMessage, mailField, takeInterrupt, observe,
    returnFromInterrupt, putMailField, setMailPending, copyPayload, fieldOffset]
  rfl

/-- A step of a PRECOMPUTE touches the cache, its stage, `alloc_ok`'s answers, the response and the trace only; the
cache stays, becomes empty, or is rebuilt. -/
theorem precomputeStep_frame (s : State) :
    precomputeStep s = { s with
      arena := (precomputeStep s).arena
      cachedPresets := (precomputeStep s).cachedPresets
      cachedDevices := (precomputeStep s).cachedDevices
      busy := (precomputeStep s).busy
      precompute := (precomputeStep s).precompute
      lastStatus := (precomputeStep s).lastStatus
      response := (precomputeStep s).response
      allocAnswers := (precomputeStep s).allocAnswers
      draws := (precomputeStep s).draws
      trace := (precomputeStep s).trace } := by
  rcases precomputeStep_cases s with ⟨n, _, _, h⟩ | ⟨n, _, _, h⟩ | ⟨n, _, h⟩ | ⟨_, h⟩ <;> rw [h]
  · simp only [setPrecompute]
    rw [takeAlloc_frame]
  · simp only [respond, emptyCache, setPrecompute]
    rw [takeAlloc_frame]
  · rfl

/-- A walk that goes on or ends touches the position, the response and the trace only. -/
theorem nextDevice_frame (s : State) :
    nextDevice s = { s with
      seqState := (nextDevice s).seqState
      devIdx := s.devIdx + 1
      busy := (nextDevice s).busy
      lastStatus := (nextDevice s).lastStatus
      response := (nextDevice s).response
      trace := (nextDevice s).trace } := by
  rcases nextDevice_cases s with ⟨_, h⟩ | ⟨_, h⟩ <;> rw [h] <;> rfl

/-- A delivered write touches the output registers and the count of draws only. -/
theorem deliver_frame (r : DeviceRow) (s : State) :
    deliver r s = { s with out := (deliver r s).out, draws := (deliver r s).draws } := by
  rcases deliver_cases r s with ⟨_, h⟩ | ⟨d, _, h⟩ | h <;> rw [h] <;> rfl

/-- A step of the walk touches the position, the routing, the output registers, the answers, the response and the
trace only. -/
theorem seqStep_frame (s : State) :
    seqStep s = { s with
      seqState := (seqStep s).seqState
      devIdx := (seqStep s).devIdx
      busy := (seqStep s).busy
      lastStatus := (seqStep s).lastStatus
      response := (seqStep s).response
      selectedBus := (seqStep s).selectedBus
      out := (seqStep s).out
      busAnswers := (seqStep s).busAnswers
      draws := (seqStep s).draws
      trace := (seqStep s).trace } := by
  unfold seqStep
  split
  · rfl
  · next r _ _ =>
    rcases selectStep_cases r s with ⟨_, h⟩ | ⟨_, h⟩ | ⟨_, h⟩ <;> rw [h]
    · rw [takeBusAnswer_frame]
    · simp only [setSeq, observe, setBus]
      rw [takeBusAnswer_frame]
    · rw [nextDevice_frame]
      simp only [observe, setBus]
      rw [takeBusAnswer_frame]
  · next r _ _ =>
    rcases writeStep_cases r s with ⟨_, h⟩ | ⟨_, h⟩ | ⟨_, h⟩ <;> rw [h]
    · rw [takeBusAnswer_frame]
    · rw [nextDevice_frame]
      simp only [observe]
      rw [deliver_frame, takeBusAnswer_frame]
    · rw [nextDevice_frame]
      simp only [observe]
      rw [takeBusAnswer_frame]
  · rfl
  · rfl

/-- A step of the loop that runs no instruction touches the flags, the counters, the lines, the loop's position, the
waiting calls, the status and the response of a rejected word, and the trace only. -/
theorem loopStep_done_frame (h : loopStep s = .done t) :
    t = { s with
      presetChangeRequested := t.presetChangeRequested
      pulseRequested := t.pulseRequested
      mailboxMessagePending := t.mailboxMessagePending
      testSequenceActive := t.testSequenceActive
      scanCount := t.scanCount
      scanTarget := t.scanTarget
      trigger := t.trigger
      strobe := t.strobe
      loopPos := t.loopPos
      commands := t.commands
      busy := t.busy
      lastStatus := t.lastStatus
      response := t.response
      trace := t.trace } := by
  unfold loopStep at h
  split at h
  case h_1 =>
    unfold topStep at h
    split at h
    · unfold commandStep at h
      split at h <;> cases h
      rfl
    · cases h; rfl
  case h_17 =>
    unfold dispatchStep at h
    split at h <;> cases h
    rfl
  case h_18 =>
    unfold bulkStep at h
    split at h
    · split at h <;> cases h
      rfl
    · cases h
  case h_15 =>
    cases h
    unfold countScan
    split <;> rfl
  all_goals first
    | (cases h; rfl)
    | cases h

/-! ### What each instruction leaves alone -/

/-- An operation that only answers touches the status, the response and the trace. -/
theorem operation_respond_frame {i : Instr} {run : State → State} (h : operation i s run = .next t)
    (hr : ∀ u, ∃ st data, run u = respond st data u) :
    t = { s with lastStatus := t.lastStatus, response := t.response, trace := t.trace } := by
  obtain ⟨_, hb, rfl⟩ := operation_next.mp h
  obtain ⟨st, data, he⟩ := hr (accept i s)
  rw [he]
  cases s
  simp_all [respond, accept]

theorem execEncode_frame {x : Cfg24} (h : execEncode x s = .next t) :
    t = { s with lastStatus := t.lastStatus, response := t.response, trace := t.trace } :=
  operation_respond_frame h fun _ => ⟨_, _, rfl⟩

theorem execDecode_frame {c : BitVec 24} (h : execDecode c s = .next t) :
    t = { s with lastStatus := t.lastStatus, response := t.response, trace := t.trace } :=
  operation_respond_frame h fun _ => ⟨_, _, rfl⟩

theorem execGet_frame {p : PresetIndex} {d : Byte} (h : execGet p d s = .next t) :
    t = { s with lastStatus := t.lastStatus, response := t.response, trace := t.trace } :=
  operation_respond_frame h fun u => by
    split
    · exact ⟨_, _, rfl⟩
    · exact ⟨_, _, rfl⟩

/-- LOADCFG touches one cell of M besides; its key lies inside the matrix. -/
theorem execLoadcfg_frame {p : PresetIndex} {c : Byte} {x : Cfg24} (h : execLoadcfg p c x s = .next t) :
    (t.matrix = s.matrix ∨ (p.toNat < s.cfg.maxPresets ∧ c.toNat < s.cfg.channels ∧
      t.matrix = storeWrite zeroCell (matrixKey s.cfg p.toNat c.toNat) (cellOfCfg24 x) s.matrix)) ∧
    t = { s with
      matrix := t.matrix, lastStatus := t.lastStatus, response := t.response, trace := t.trace } := by
  obtain ⟨_, hb, he⟩ := operation_next.mp h
  split at he
  · subst he
    exact ⟨.inl rfl, by cases s; simp_all [respond, accept]⟩
  · next hn =>
    rw [accept_cfg] at hn
    subst he
    refine ⟨.inr ⟨by omega, by omega, rfl⟩, ?_⟩
    cases s
    simp_all [respond, accept, writeCell]

/-- PRECOMPUTE answers an error, or stands before its resource check with a legal count. -/
theorem execPrecompute_frame {n : PresetIndex} (h : execPrecompute n s = .next t) :
    (t = { s with lastStatus := t.lastStatus, response := t.response, trace := t.trace }) ∨
    (1 ≤ n.toNat ∧ n.toNat ≤ s.cfg.maxPresets ∧
      t = { s with busy := true, precompute := .resource n, trace := t.trace }) := by
  obtain ⟨_, hb, he⟩ := operation_next.mp h
  split at he
  · subst he
    exact .inl (by cases s; simp_all [respond, accept])
  · next hn =>
    rw [accept_cfg] at hn
    subst he
    exact .inr ⟨by omega, by omega, rfl⟩

/-- APPLY answers an error, or begins a walk of a cached preset. -/
theorem execApply_frame {p : PresetIndex} (h : execApply p s = .next t) :
    (t = { s with lastStatus := t.lastStatus, response := t.response, trace := t.trace }) ∨
    (s.cachedPresets ≠ 0 ∧ p.toNat < s.cachedPresets ∧
      t = { s with busy := true, seqState := .select, devIdx := 0, seqPreset := p, trace := t.trace }) := by
  obtain ⟨_, hb, he⟩ := operation_next.mp h
  split at he
  · subst he
    exact .inl (by cases s; simp_all [respond, accept])
  · next h0 =>
    split at he
    · subst he
      exact .inl (by cases s; simp_all [respond, accept])
    · next hp =>
      rw [accept_cachedPresets] at h0 hp
      subst he
      exact .inr ⟨h0, by omega, rfl⟩

theorem execPresetSelect_frame (h : execPresetSelect s = .next t) :
    t = { s with
      pendingPreset := t.pendingPreset
      presetChangeRequested := t.presetChangeRequested
      pulseRequested := t.pulseRequested } := by
  unfold execPresetSelect at h
  split at h <;> cases h <;> rfl

theorem execTestSequenceStart_frame (h : execTestSequenceStart s = .next t) :
    t = { s with
      scanCount := t.scanCount
      scanTarget := t.scanTarget
      testSequenceActive := t.testSequenceActive } := by
  cases h
  unfold startSequence
  split <;> rfl

/-- No instruction writes the configuration, an output register, the cache, PB, the calls that wait or the lines; the
cache is written by the later steps of a PRECOMPUTE (`precomputeStep_frame`). -/
theorem exec_frame {i : Instr} (h : exec i s = .next t) :
    t.cfg = s.cfg ∧ t.out = s.out ∧ t.pb = s.pb ∧ t.commands = s.commands ∧ t.trigger = s.trigger ∧
      t.strobe = s.strobe ∧ t.inputs = s.inputs ∧ t.arena = s.arena ∧ t.cachedPresets = s.cachedPresets ∧
      t.cachedDevices = s.cachedDevices ∧ (t.matrix = s.matrix ∨ ∃ p c x, i = .loadcfg p c x) := by
  cases i with
  | encode x => rw [execEncode_frame h]; simp
  | decode c => rw [execDecode_frame h]; simp
  | loadcfg p c x => rw [(execLoadcfg_frame h).2]; simp
  | precompute n => rcases execPrecompute_frame h with h | ⟨_, _, h⟩ <;> rw [h] <;> simp
  | get p d => rw [execGet_frame h]; simp
  | apply p =>
    rcases execApply_frame h with h | ⟨_, _, h⟩ <;> rw [h] <;> simp
  | bulkUpdate => cases h; simp
  | presetSelect => rw [execPresetSelect_frame h]; simp
  | testSequenceStart => rw [execTestSequenceStart_frame h]; simp
  | probe => rw [execProbe_frame h]; simp

end Sys2Proof.Machine
end

