-- ==== Sys2Proof/Laws/Inv.lean ====
section
/-! SUPPORT. The parts of the invariant, one lemma for each shared operation and each kind of step: the stores keep
their canonical form and their extent, the block its bounds, the loop its lines. -/

namespace Sys2Proof.Machine

variable {s t : State}

/-! ### The stores -/

/-- The stores' part depends on the stores and the configuration only. -/
theorem storesOk_congr (h : StoresOk s) (hc : t.cfg = s.cfg) (h1 : t.matrix = s.matrix) (h2 : t.arena = s.arena)
    (h3 : t.out = s.out) (h4 : t.mailbox = s.mailbox) (h5 : t.pb = s.pb) : StoresOk t := by
  obtain ⟨a, b, c, d, e, f, g, i, j, k⟩ := h
  constructor <;> simp only [hc, h1, h2, h3, h4, h5] <;> assumption

/-- The mailbox region is in canonical form and lists bytes of the region only. -/
def MailboxOk (s : State) : Prop :=
  s.mailbox.wf = true ∧
    storeWithin s.cfg.mailboxBase (mailboxHeaderBytes + mailboxPayloadMax) s.mailbox = true

theorem StoresOk.mailboxOk (h : StoresOk s) : MailboxOk s := ⟨h.mailboxWf, h.mailboxWithin⟩

theorem mailboxOk_congr (hc : t.cfg = s.cfg) (hm : t.mailbox = s.mailbox) (h : MailboxOk s) : MailboxOk t := by
  simpa only [MailboxOk, hc, hm] using h

/-- Storing a field keeps the region's form. -/
theorem putMailField_ok {f : MailField} {v : Word32} (h : MailboxOk s) : MailboxOk (putMailField f v s) := by
  have := fieldOffset_le f
  exact ⟨memPutWord_wf h.1, memPutWord_within h.2 (by simp [mailboxAddr]) (by simp [mailboxAddr]; omega)⟩

/-- Storing a payload byte keeps the region's form. -/
theorem putMailPayload_ok {i : Nat} {b : Byte} (hi : i < mailboxPayloadMax) (h : MailboxOk s) :
    MailboxOk (putMailPayload i b s) :=
  ⟨Memory.write_wf h.1, Memory.write_within h.2 (by simp [mailboxAddr]) (by simp [mailboxAddr]; omega)⟩

/-- A probe's response keeps the region's form. -/
theorem returnProbe_ok {b : Byte × Byte × Byte} (hw : s.cfg.wf = true) (h : MailboxOk s) :
    MailboxOk (returnProbe b s) := by
  have hf : ∀ (f : MailField) (o : Option Word32) (u : State), MailboxOk u → MailboxOk (probeField f o u) := by
    intro f o u h
    cases o
    · exact h
    · exact mailboxOk_congr rfl rfl (putMailField_ok h)
  have hn : ∀ (n : Bool) (u : State), MailboxOk u → MailboxOk (probeNotify n u) := by
    intro n u h
    cases n
    · exact h
    · exact mailboxOk_congr rfl rfl h
  refine hn _ _ (hf _ _ _ (hf _ _ _ ?_))
  have := (Config.wf_parts hw).2.2
  simp [Config.parametersOk, ProbeReturn.ok] at this
  cases hx : s.cfg.probeReturn.payloadAt with
  | none => exact mailboxOk_congr rfl rfl h
  | some i =>
    rw [hx] at this
    simp only [decide_eq_true_eq] at this
    exact putMailPayload_ok (by omega) (putMailPayload_ok (by omega) (putMailPayload_ok (by omega)
      (mailboxOk_congr rfl rfl h)))

/-- The copy of a message of legal length keeps the buffer's form. -/
theorem copyPayload_ok {n : Nat} (hn : n ≤ mailboxPayloadMax) (hwf : s.pb.payload.wf = true)
    (hin : storeWithin 0 mailboxPayloadMax s.pb.payload = true) :
    (copyPayload n s).wf = true ∧ storeWithin 0 mailboxPayloadMax (copyPayload n s) = true :=
  ⟨storeFill_wf hwf, storeFill_within hin hn⟩

/-- Every instruction keeps the stores' form. -/
theorem exec_storesOk {i : Instr} (hw : s.cfg.wf = true) (h : exec i s = .next t) (hs : StoresOk s) : StoresOk t := by
  cases i with
  | encode x => rw [execEncode_frame h]; exact storesOk_congr hs rfl rfl rfl rfl rfl rfl
  | decode c => rw [execDecode_frame h]; exact storesOk_congr hs rfl rfl rfl rfl rfl rfl
  | loadcfg p c x =>
    obtain ⟨h1 | ⟨h2, h3, h1⟩, he⟩ := execLoadcfg_frame h
    · rw [he, h1]
      exact storesOk_congr hs rfl rfl rfl rfl rfl rfl
    · rw [he]
      obtain ⟨a, b, c, d, e, f, g, i, j, k⟩ := hs
      exact ⟨by simp only [h1]; exact storeWrite_wf a,
        by simp only [h1]; exact storeWrite_within b (Nat.zero_le _) (by rw [Nat.zero_add]; exact key_lt h2 h3),
        c, d, e, f, g, i, j, k⟩
  | precompute n =>
    rcases execPrecompute_frame h with h | ⟨_, _, h⟩ <;> rw [h] <;> exact storesOk_congr hs rfl rfl rfl rfl rfl rfl
  | get p d => rw [execGet_frame h]; exact storesOk_congr hs rfl rfl rfl rfl rfl rfl
  | apply p =>
    rcases execApply_frame h with h | ⟨_, _, h⟩ <;> rw [h] <;> exact storesOk_congr hs rfl rfl rfl rfl rfl rfl
  | bulkUpdate => cases h; exact storesOk_congr hs rfl rfl rfl rfl rfl rfl
  | presetSelect => rw [execPresetSelect_frame h]; exact storesOk_congr hs rfl rfl rfl rfl rfl rfl
  | testSequenceStart => rw [execTestSequenceStart_frame h]; exact storesOk_congr hs rfl rfl rfl rfl rfl rfl
  | probe =>
    have hm : MailboxOk t := by
      cases h
      exact mailboxOk_congr rfl rfl (returnProbe_ok (by simpa [readMux] using hw)
        (mailboxOk_congr (by simp [readMux]) (by simp [readMux]) hs.mailboxOk))
    have hc : t.cfg = s.cfg := by rw [execProbe_frame h]
    rw [execProbe_frame h]
    obtain ⟨a, b, c, d, e, f, g, i, j, k⟩ := hs
    exact ⟨a, b, c, d, e, f, hm.1, by rw [← hc]; exact hm.2, j, k⟩

/-- A step of a PRECOMPUTE keeps the stores' form. -/
theorem precomputeStep_storesOk (hs : StoresOk s) (hb : BlockOk s) : StoresOk (precomputeStep s) := by
  have ha : storeWf 0#24 (precomputeStep s).arena = true ∧
      storeWithin 0 (s.cfg.maxPresets * s.cfg.deviceCount) (precomputeStep s).arena = true := by
    rcases precomputeStep_cases s with ⟨n, _, _, h⟩ | ⟨n, _, _, h⟩ | ⟨n, hp, h⟩ | ⟨_, h⟩ <;> rw [h]
    · simpa using ⟨hs.arenaWf, hs.arenaWithin⟩
    · simpa using ⟨hs.arenaWf, hs.arenaWithin⟩
    · exact ⟨storeFill_wf hs.arenaWf,
        storeFill_within hs.arenaWithin (Nat.mul_le_mul_right _ (hb.countInRange n (.inr hp)).2)⟩
    · exact ⟨hs.arenaWf, hs.arenaWithin⟩
  rw [precomputeStep_frame]
  obtain ⟨a, b, c, d, e, f, g, i, j, k⟩ := hs
  exact ⟨a, b, ha.1, ha.2, e, f, g, i, j, k⟩

/-- A step of the walk keeps the stores' form. -/
theorem seqStep_storesOk (hs : StoresOk s) (hb : s.seqState ≠ .idle → s.devIdx < s.cfg.deviceCount) :
    StoresOk (seqStep s) := by
  have hsame : storeWf 0#24 s.out = true ∧ storeWithin 0 s.cfg.deviceCount s.out = true := ⟨hs.outWf, hs.outWithin⟩
  have ho : storeWf 0#24 (seqStep s).out = true ∧ storeWithin 0 s.cfg.deviceCount (seqStep s).out = true := by
    unfold seqStep
    split
    · exact hsame
    · next r _ _ =>
      rcases selectStep_cases r s with ⟨_, h⟩ | ⟨_, h⟩ | ⟨_, h⟩ <;> rw [h]
      · simpa using hsame
      · simpa using hsame
      · rw [nextDevice_frame]
        simpa using hsame
    · next r hq _ =>
      have hd := hb (by simp [hq])
      rcases writeStep_cases r s with ⟨_, h⟩ | ⟨_, h⟩ | ⟨_, h⟩ <;> rw [h]
      · simpa using hsame
      · rw [nextDevice_frame]
        simp only [observe_out]
        rcases deliver_cases r (takeBusAnswer s) with ⟨_, h⟩ | ⟨d, hd', h⟩ | h <;> rw [h]
        · simp only [setOut_out, takeBusAnswer_out, takeBusAnswer_devIdx]
          exact ⟨storeWrite_wf hs.outWf, storeWrite_within hs.outWithin (Nat.zero_le _) (by omega)⟩
        · simp only [takeBusAnswer_cfg] at hd'
          simp only [countDraw_out, setOut_out, takeBusAnswer_out]
          exact ⟨storeWrite_wf hs.outWf, storeWrite_within hs.outWithin (Nat.zero_le _) (by omega)⟩
        · simpa using hsame
      · rw [nextDevice_frame]
        simpa using hsame
    · simpa [endWalk] using hsame
    · simpa [endWalk] using hsame
  rw [seqStep_frame]
  obtain ⟨a, b, c, d, e, f, g, i, j, k⟩ := hs
  exact ⟨a, b, c, d, ho.1, ho.2, g, i, j, k⟩

/-! ### The block -/

theorem blockOk_congr (h : BlockOk s) (hc : t.cfg = s.cfg) (h1 : t.busy = s.busy) (h2 : t.seqState = s.seqState)
    (h3 : t.devIdx = s.devIdx) (h4 : t.seqPreset = s.seqPreset) (h5 : t.cachedPresets = s.cachedPresets)
    (h6 : t.cachedDevices = s.cachedDevices) (h7 : t.precompute = s.precompute) : BlockOk t := by
  obtain ⟨a, a1, a2, b, c, d, e, f⟩ := h
  constructor <;> simp only [hc, h1, h2, h3, h4, h5, h6, h7] <;> assumption

/-- Every instruction keeps the block's bounds. -/
theorem exec_blockOk {i : Instr} (h : exec i s = .next t) (hs : BlockOk s)
    (hq : s.seqState = .idle ∧ s.precompute = .idle ∨ i = .probe) (hpos : 1 ≤ s.cfg.deviceCount) : BlockOk t := by
  cases i with
  | encode x => rw [execEncode_frame h]; exact blockOk_congr hs rfl rfl rfl rfl rfl rfl rfl rfl
  | decode c => rw [execDecode_frame h]; exact blockOk_congr hs rfl rfl rfl rfl rfl rfl rfl rfl
  | loadcfg p c x => rw [(execLoadcfg_frame h).2]; exact blockOk_congr hs rfl rfl rfl rfl rfl rfl rfl rfl
  | precompute n =>
    have hq : s.seqState = .idle ∧ s.precompute = .idle := by simpa using hq
    rcases execPrecompute_frame h with h | ⟨h1, h2, h⟩ <;> rw [h]
    · exact blockOk_congr hs rfl rfl rfl rfl rfl rfl rfl rfl
    · obtain ⟨a, a1, a2, b, c, d, e, f⟩ := hs
      exact ⟨by simp, .inl hq.1, fun m hm => by rcases hm with hm | hm <;> cases hm; exact ⟨h1, h2⟩, b, c,
        fun h => absurd hq.1 h, e, f⟩
  | get p d => rw [execGet_frame h]; exact blockOk_congr hs rfl rfl rfl rfl rfl rfl rfl rfl
  | apply p =>
    have hq : s.seqState = .idle ∧ s.precompute = .idle := by simpa using hq
    rcases execApply_frame h with h | ⟨_, hp, h⟩ <;> rw [h]
    · exact blockOk_congr hs rfl rfl rfl rfl rfl rfl rfl rfl
    · obtain ⟨a, a1, a2, b, c, d, e, f⟩ := hs
      exact ⟨by simp, .inr hq.2, a2, b, c, fun _ => hp, fun _ => hpos, Nat.zero_le _⟩
  | bulkUpdate => cases h; exact blockOk_congr hs rfl rfl rfl rfl rfl rfl rfl rfl
  | presetSelect => rw [execPresetSelect_frame h]; exact blockOk_congr hs rfl rfl rfl rfl rfl rfl rfl rfl
  | testSequenceStart => rw [execTestSequenceStart_frame h]; exact blockOk_congr hs rfl rfl rfl rfl rfl rfl rfl rfl
  | probe => rw [execProbe_frame h]; exact blockOk_congr hs rfl rfl rfl rfl rfl rfl rfl rfl

/-- A step of a PRECOMPUTE keeps the block's bounds. -/
theorem precomputeStep_blockOk (hs : BlockOk s) (hp : s.precompute ≠ .idle) : BlockOk (precomputeStep s) := by
  have hq : s.seqState = .idle := by
    rcases hs.oneAtWork with h | h
    · exact h
    · exact absurd h hp
  have hb := hs.busyAtWork.mpr (.inr hp)
  obtain ⟨a, a1, a2, b, c, d, e, f⟩ := hs
  rcases precomputeStep_cases s with ⟨n, h, _, he⟩ | ⟨n, _, _, he⟩ | ⟨n, h, he⟩ | ⟨h, _⟩
  · rw [he, takeAlloc_frame]
    refine ⟨by simp [hb], .inl hq, fun m hm => ?_, b, c, d, e, f⟩
    rcases hm with hm | hm <;> cases hm
    exact a2 n (.inl h)
  · rw [he, takeAlloc_frame]
    exact ⟨by simp [hq], .inl hq, by simp, by simp, by simp, fun h => absurd hq h, fun h => absurd hq h, f⟩
  · have := a2 n (.inr h)
    rw [he]
    exact ⟨by simp [hq], .inl hq, by simp, this.2,
      (if_neg (show ¬ n.toNat = 0 by omega)).symm,
      fun h => absurd hq h, fun h => absurd hq h, f⟩
  · exact absurd h hp

/-- Leaving a device keeps the block's bounds. -/
theorem nextDevice_blockOk (hs : BlockOk s) (hq : s.seqState ≠ .idle) : BlockOk (nextDevice s) := by
  have hd := hs.walkDevice hq
  have hb := hs.busyAtWork.mpr (.inl hq)
  have hp := hs.oneAtWork.resolve_left hq
  obtain ⟨a, a1, a2, b, c, d, e, f⟩ := hs
  rcases nextDevice_cases s with ⟨h, he⟩ | ⟨h, he⟩ <;> rw [he]
  · exact ⟨by simp [hb], .inr hp, a2, b, c, fun _ => d hq, fun _ => h, by simp; omega⟩
  · exact ⟨by simp [endWalk, hp], .inr hp, a2, b, c, by simp [endWalk], by simp [endWalk],
      by simp [endWalk]; omega⟩

/-- A step of the walk keeps the block's bounds. -/
theorem seqStep_blockOk (hs : BlockOk s) (hq : s.seqState ≠ .idle) : BlockOk (seqStep s) := by
  have tb : BlockOk (takeBusAnswer s) := by
    rw [takeBusAnswer_frame]
    exact blockOk_congr hs rfl rfl rfl rfl rfl rfl rfl rfl
  have hq2 : (takeBusAnswer s).seqState ≠ .idle := by simpa using hq
  have hp := hs.oneAtWork.resolve_left hq
  unfold seqStep
  split
  · exact hs
  · next r _ _ =>
    rcases selectStep_cases r s with ⟨_, h⟩ | ⟨_, h⟩ | ⟨_, h⟩ <;> rw [h]
    · exact tb
    · clear h
      generalize takeBusAnswer s = w at *
      have hp := tb.oneAtWork.resolve_left hq2
      have hb := tb.busyAtWork.mpr (.inl hq2)
      obtain ⟨a, a1, a2, b, c, d, e, f⟩ := tb
      exact ⟨by simp [hb], .inr hp, a2, b, c, fun _ => d hq2, fun _ => e hq2, f⟩
    · exact nextDevice_blockOk (blockOk_congr tb rfl rfl rfl rfl rfl rfl rfl rfl) hq2
  · next r hq _ =>
    rcases writeStep_cases r s with ⟨_, h⟩ | ⟨_, h⟩ | ⟨_, h⟩ <;> rw [h]
    · exact tb
    · rw [deliver_frame]
      exact nextDevice_blockOk (blockOk_congr tb rfl rfl rfl rfl rfl rfl rfl rfl) hq2
    · exact nextDevice_blockOk (blockOk_congr tb rfl rfl rfl rfl rfl rfl rfl rfl) hq2
  all_goals
    obtain ⟨a, a1, a2, b, c, d, e, f⟩ := hs
    exact ⟨by simp [endWalk, hp], .inr hp, a2, b, c, by simp [endWalk], by simp [endWalk], f⟩

/-! ### The loop -/

@[simp] theorem triggerHighAt_wakePos (p : LoopPos) : triggerHighAt (wakePos p) = triggerHighAt p := by
  cases p <;> rfl

@[simp] theorem strobeHighAt_wakePos (p : LoopPos) : strobeHighAt (wakePos p) = strobeHighAt p := by
  cases p <;> rfl

theorem triggerHighAt_ite (c : Prop) [Decidable c] (p q : LoopPos) :
    triggerHighAt (if c then p else q) = if c then triggerHighAt p else triggerHighAt q := by
  split <;> rfl

theorem strobeHighAt_ite (c : Prop) [Decidable c] (p q : LoopPos) :
    strobeHighAt (if c then p else q) = if c then strobeHighAt p else strobeHighAt q := by
  split <;> rfl

/-- Waking leaves the positions of a walk alone. -/
theorem wakePos_walk {p : LoopPos} (h : p = .top ∨ p = .presetClear) :
    wakePos p = .top ∨ wakePos p = .presetClear := by
  rcases h with h | h <;> simp [h, wakePos]

/-- A command word stands for no mailbox command and no probe (30_encoding R83). -/
theorem decode_command_ne {cw : CommandWord} {i : Instr} (h : decode (.command cw) = .ok i) :
    i ≠ .bulkUpdate ∧ i ≠ .probe := by
  simp only [decode, decodeCommand, requireZero] at h
  constructor <;> (rintro rfl; revert h; split_ifs <;> simp)

/-- A `cmd` stands for no APPLY and no probe (30_encoding R80). -/
theorem decode_mailboxCmd_ne {cmd : Word32} {i : Instr} (h : decode (.mailboxCmd cmd) = .ok i) :
    i ≠ .probe ∧ ∀ p, i ≠ .apply p := by
  simp only [decode, decodeCmd] at h
  constructor
  · rintro rfl
    revert h
    split_ifs <;> simp
  · rintro p rfl
    revert h
    split_ifs <;> simp

/-- Waking leaves the positions of a PRECOMPUTE alone. -/
theorem wakePos_precompute {p : LoopPos} (h : p = .top ∨ p = .mailClear) :
    wakePos p = .top ∨ wakePos p = .mailClear := by
  rcases h with h | h <;> simp [h, wakePos]

/-- Every instruction keeps the lines and the target where they belong; BULK_UPDATE moves the loop, and an APPLY and a
PRECOMPUTE are run where their walks may stand. -/
theorem exec_loopOk {i : Instr} (h : exec i s = .next t)
    (htarget : s.scanTarget = if s.testSequenceActive then s.cfg.scanTarget else 0#8)
    (hlen : s.pb.len.toNat ≤ mailboxPayloadMax) (htr : s.trigger = triggerHighAt s.loopPos)
    (hst : s.strobe = strobeHighAt s.loopPos) (hcx : s.context = .loop ∨ i = .probe)
    (hwalk : s.seqState ≠ .idle → s.loopPos = .top ∨ s.loopPos = .presetClear)
    (hpre : s.precompute ≠ .idle → s.loopPos = .top ∨ s.loopPos = .mailClear)
    (hap : ∀ p, i = .apply p → s.loopPos = .top ∨ s.loopPos = .presetClear)
    (hpc : ∀ n, i = .precompute n → s.loopPos = .top ∨ s.loopPos = .mailClear)
    (hbk : i = .bulkUpdate → triggerHighAt s.loopPos = false ∧ strobeHighAt s.loopPos = false ∧
      s.seqState = .idle ∧ s.precompute = .idle) : LoopOk t := by
  cases i with
  | encode x => rw [execEncode_frame h]; exact ⟨by simpa using hcx, htarget, hlen, htr, hst, hwalk, hpre⟩
  | decode x => rw [execDecode_frame h]; exact ⟨by simpa using hcx, htarget, hlen, htr, hst, hwalk, hpre⟩
  | loadcfg p c x => rw [(execLoadcfg_frame h).2]; exact ⟨by simpa using hcx, htarget, hlen, htr, hst, hwalk, hpre⟩
  | precompute n =>
    rcases execPrecompute_frame h with h | ⟨_, _, h⟩ <;> rw [h]
    · exact ⟨by simpa using hcx, htarget, hlen, htr, hst, hwalk, hpre⟩
    · exact ⟨by simpa using hcx, htarget, hlen, htr, hst, hwalk, fun _ => hpc n rfl⟩
  | get p d => rw [execGet_frame h]; exact ⟨by simpa using hcx, htarget, hlen, htr, hst, hwalk, hpre⟩
  | apply p =>
    rcases execApply_frame h with h | ⟨_, hp, h⟩ <;> rw [h]
    · exact ⟨by simpa using hcx, htarget, hlen, htr, hst, hwalk, hpre⟩
    · exact ⟨by simpa using hcx, htarget, hlen, htr, hst, fun _ => hap p rfl, hpre⟩
  | bulkUpdate =>
    obtain ⟨h1, h2, h3, h4⟩ := hbk rfl
    cases h
    exact ⟨by simpa using hcx, htarget, hlen, htr.trans h1, hst.trans h2, fun h => absurd h3 h, fun h => absurd h4 h⟩
  | presetSelect => rw [execPresetSelect_frame h]; exact ⟨by simpa using hcx, htarget, hlen, htr, hst, hwalk, hpre⟩
  | testSequenceStart =>
    have : t.scanTarget = if t.testSequenceActive then s.cfg.scanTarget else 0#8 := by
      cases h
      show (startSequence s).scanTarget = if (startSequence s).testSequenceActive then s.cfg.scanTarget else 0#8
      cases ha : s.testSequenceActive
      · simp [startSequence, ha]
      · simpa [startSequence, ha] using htarget
    rw [execTestSequenceStart_frame h]
    exact ⟨by simpa using hcx, this, hlen, htr, hst, hwalk, hpre⟩
  | probe =>
    rw [execProbe_frame h]
    exact ⟨rfl, htarget, hlen, by simpa using htr, by simpa using hst, fun h => wakePos_walk (hwalk h),
      fun h => wakePos_precompute (hpre h)⟩

/-- A step of the loop that runs no instruction keeps the lines and the target where they belong. -/
theorem loopStep_done_loopOk (hw : s.cfg.wf = true) (hl : LoopOk s) (hq : s.seqState = .idle)
    (hpi : s.precompute = .idle) (h : loopStep s = .done t) : LoopOk t := by
  have hf := loopStep_done_frame h
  obtain ⟨a, b, c, d, e, f, g⟩ := hl
  have hctx : t.context = .loop := by rw [hf]; exact a
  have hlen : t.pb.len.toNat ≤ mailboxPayloadMax := by rw [hf]; exact c
  have hwk : t.seqState ≠ .idle → t.loopPos = .top ∨ t.loopPos = .presetClear := by
    rw [hf]
    exact fun h => absurd hq h
  have hpk : t.precompute ≠ .idle → t.loopPos = .top ∨ t.loopPos = .mailClear := by
    rw [hf]
    exact fun h => absurd hpi h
  suffices (t.scanTarget = if t.testSequenceActive then s.cfg.scanTarget else 0#8) ∧
      t.trigger = triggerHighAt t.loopPos ∧ t.strobe = strobeHighAt t.loopPos by
    have hc : t.cfg = s.cfg := by rw [hf]
    exact ⟨hctx, by rw [hc]; exact this.1, hlen, this.2.1, this.2.2, hwk, hpk⟩
  clear hf hctx hlen hwk hpk
  unfold loopStep at h
  split at h <;> rename_i hp <;> rw [hp] at d e <;> simp only [triggerHighAt, strobeHighAt] at d e
  case h_1 =>
    unfold topStep at h
    split at h
    · unfold commandStep at h
      split at h <;> cases h
      exact ⟨b, by simp [rejectCommand, hp, d, triggerHighAt], by simp [rejectCommand, hp, e, strobeHighAt]⟩
    · cases h
      refine ⟨b, ?_, ?_⟩
      · simp only [goto_trigger, goto_loopPos, triggerHighAt_ite]
        simp [d, triggerHighAt]
      · simp only [goto_strobe, goto_loopPos, strobeHighAt_ite]
        simp [e, strobeHighAt]
  case h_17 =>
    unfold dispatchStep at h
    split at h <;> cases h
    exact ⟨b, d, e⟩
  case h_18 =>
    unfold bulkStep at h
    split at h
    · split at h <;> cases h
      exact ⟨b, d, e⟩
    · cases h
  case h_15 =>
    cases h
    refine ⟨?_, ?_, ?_⟩
    · simp only [goto_scanTarget, goto_testSequenceActive, countScan]
      split
      · rfl
      · exact b
    · simp [d, triggerHighAt]
    · simp [e, strobeHighAt]
  all_goals first
    | (cases h; done)
    | (cases h; exact ⟨b, d, e⟩)
    | (cases h; rw [lineWrite_triggerLine hw]; exact ⟨b, rfl, e⟩)
    | (cases h; rw [lineWrite_strobeLine hw]; exact ⟨b, d, rfl⟩)
    | (cases h; refine ⟨b, ?_, ?_⟩ <;> simp [d, e, hp, triggerHighAt, strobeHighAt]; done)
    | (cases h
       refine ⟨b, ?_, ?_⟩ <;>
         simp only [goto_trigger, goto_strobe, goto_loopPos, observe_trigger, observe_strobe, afterEcho,
           triggerHighAt_ite, strobeHighAt_ite] <;>
         simp [d, e, triggerHighAt, strobeHighAt])

end Sys2Proof.Machine
end

