-- ==== Sys2Proof/Laws/PerInstr.lean ====
section
/-! SUPPORT. Statements made for each instruction. `TableRow`: the encoder's word has the bits its row of
spec/opcode_table.json fixes. -/

namespace Sys2Proof.Laws

/-- The mask and the match of an instruction's row; PROBE's row has none. -/
def tableRow : Instr → Option (Nat × Nat)
  | .encode _          => some (0xFFFFFFFFFF000000, 0x1000000000000000)
  | .decode _          => some (0xFFFFFFFFFF000000, 0x2000000000000000)
  | .loadcfg _ _ _     => some (0xFFFF000000000000, 0x3000000000000000)
  | .precompute _      => some (0xFFFF0000FFFFFFFF, 0x4000000000000000)
  | .get _ _           => some (0xFFFF000000FFFFFF, 0x5000000000000000)
  | .apply _           => some (0xFFFF0000FFFFFFFF, 0x6000000000000000)
  | .bulkUpdate        => some (0xFFFFFFFF, 2)
  | .presetSelect      => some (0xFFFFFFFF, 3)
  | .testSequenceStart => some (0xFFFFFFFF, 4)
  | .probe             => none

/-- A word has the bits its row fixes. -/
def matchesRow (row : Option (Nat × Nat)) : Encoding → Prop
  | .command cw     => ∃ mask pat, row = some (mask, pat) ∧ cw &&& BitVec.ofNat 64 mask = BitVec.ofNat 64 pat
  | .mailboxCmd cmd => ∃ mask pat, row = some (mask, pat) ∧ cmd &&& BitVec.ofNat 32 mask = BitVec.ofNat 32 pat
  | .invalidMessage => row = none

/-- The family's statement: the encoder agrees with the opcode table. -/
def TableRow.Statement (i : Instr) : Prop := matchesRow (tableRow i) (encode i)

theorem TableRow.encode (x : Cfg24) : TableRow.Statement (.encode x) := by
  refine ⟨_, _, rfl, BitVec.eq_of_getLsbD_eq fun i hi => ?_⟩
  simp only [BitVec.getLsbD_and, getLsbD_packCommand]
  interval_cases i <;> simp

theorem TableRow.decode (c : BitVec 24) : TableRow.Statement (.decode c) := by
  refine ⟨_, _, rfl, BitVec.eq_of_getLsbD_eq fun i hi => ?_⟩
  simp only [BitVec.getLsbD_and, getLsbD_packCommand]
  interval_cases i <;> simp

theorem TableRow.loadcfg (p : PresetIndex) (c : Byte) (x : Cfg24) : TableRow.Statement (.loadcfg p c x) := by
  refine ⟨_, _, rfl, BitVec.eq_of_getLsbD_eq fun i hi => ?_⟩
  simp only [BitVec.getLsbD_and, getLsbD_packCommand]
  interval_cases i <;> simp

theorem TableRow.precompute (n : PresetIndex) : TableRow.Statement (.precompute n) := by
  refine ⟨_, _, rfl, BitVec.eq_of_getLsbD_eq fun i hi => ?_⟩
  simp only [BitVec.getLsbD_and, getLsbD_packCommand]
  interval_cases i <;> simp

theorem TableRow.get (p : PresetIndex) (d : Byte) : TableRow.Statement (.get p d) := by
  refine ⟨_, _, rfl, BitVec.eq_of_getLsbD_eq fun i hi => ?_⟩
  simp only [BitVec.getLsbD_and, getLsbD_packCommand]
  interval_cases i <;> simp

theorem TableRow.apply (p : PresetIndex) : TableRow.Statement (.apply p) := by
  refine ⟨_, _, rfl, BitVec.eq_of_getLsbD_eq fun i hi => ?_⟩
  simp only [BitVec.getLsbD_and, getLsbD_packCommand]
  interval_cases i <;> simp

theorem TableRow.bulkUpdate : TableRow.Statement .bulkUpdate := ⟨_, _, rfl, rfl⟩

theorem TableRow.presetSelect : TableRow.Statement .presetSelect := ⟨_, _, rfl, rfl⟩

theorem TableRow.testSequenceStart : TableRow.Statement .testSequenceStart := ⟨_, _, rfl, rfl⟩

theorem TableRow.probe : TableRow.Statement .probe := rfl

end Sys2Proof.Laws
end

