-- ==== Sys2Proof/Laws/Runs.lean ====
section
/-! SUPPORT. Runs of an undisturbed machine, each packaged as one induction: one device of a walk, a whole walk, the
strobe toggles of a scan step, the groups of a bulk update. -/

namespace Sys2Proof.Machine

/-- The ranges of the sizes (00_scope R5). -/
theorem Config.wf_sizes {cfg : Config} (h : cfg.wf = true) :
    1 ≤ cfg.maxPresets ∧ cfg.maxPresets ≤ 65535 ∧ 1 ≤ cfg.channels ∧ cfg.channels ≤ 256 ∧ 1 ≤ cfg.deviceCount ∧
      cfg.deviceCount ≤ 255 ∧ 1 ≤ cfg.activePresets ∧ cfg.activePresets ≤ cfg.maxPresets := by
  have := (Config.wf_parts h).2.2
  simp [Config.parametersOk, Config.sizesOk] at this
  have : 1 ≤ cfg.channels := by simp [Config.channels]
  omega

theorem Config.deviceMap_ne_nil {cfg : Config} (h : cfg.wf = true) : cfg.deviceMap ≠ [] := by
  have := (Config.wf_sizes h).2.2.2.2.1
  intro h
  simp [Config.deviceCount, h] at this

/-- The steps of one device: after its `selectBus` and, if that answered ok, its `writeRegister`, the walk leaves the
device (42_sequencer R151, R154). -/
theorem device_runs {v : State} {r : DeviceRow} {a : DeviceAnswers} {more : List BusAnswer} (hu : Undisturbed v)
    (hq : v.seqState = .select) (hr : v.cfg.deviceMap[v.devIdx]? = some r)
    (ha : v.busAnswers = answerList [a] ++ more) :
    ∃ q b, runs (answerList [a]).length v (nextDevice { v with
      seqState := q
      selectedBus := b
      out := if a.select && a.write then storeWrite 0#24 v.devIdx (walkPayload v) v.out else v.out
      busAnswers := more
      trace := (walkTrace v.cfg (arenaCell v v.seqPreset.toNat) v.devIdx [r] [a]).reverse ++ v.trace }) := by
  have hi := hu.inputs
  obtain ⟨sel, wr⟩ := a
  cases sel
  · refine ⟨.select, none, runs_one ?_⟩
    rw [step_walk hu.ownTurn (by simp [hq]), hu.setInputs_tail]
    simp only [answerList, Bool.false_eq_true, if_false, List.cons_append, List.nil_append] at ha
    simp only [seqStep, hq, hr, selectStep, nextBusAnswer, ha, takeBusAnswer]
    simp [walkTrace, observe, setBus]
  · refine ⟨.write, some r.bus, ?_⟩
    simp only [answerList, if_true, List.cons_append, List.nil_append] at ha
    have h1 : step v = .next { v with
        seqState := .write
        selectedBus := some r.bus
        busAnswers := busAnswerOf wr :: more
        trace := .selectBus r.bus true :: v.trace } := by
      rw [step_walk hu.ownTurn (by simp [hq]), hu.setInputs_tail]
      simp only [seqStep, hq, hr, selectStep, nextBusAnswer, ha, takeBusAnswer]
      simp [observe, setBus, setSeq]
    refine runs_cons h1 (runs_one ?_)
    have hu2 : Undisturbed { v with
        seqState := .write
        selectedBus := some r.bus
        busAnswers := busAnswerOf wr :: more
        trace := .selectBus r.bus true :: v.trace } := ⟨hu.cfgWf, hu.inputs, hu.context⟩
    rw [step_walk hu2.ownTurn (by simp), hu2.setInputs_tail]
    cases wr
    · simp only [seqStep, hr, writeStep, nextBusAnswer, busAnswerOf, takeBusAnswer]
      simp [walkTrace, observe, writeEvent, walkPayload, arenaCell]
    · simp only [seqStep, hr, writeStep, nextBusAnswer, busAnswerOf, takeBusAnswer]
      simp [walkTrace, observe, writeEvent, walkPayload, arenaCell, deliver, setOut]

/-- A `writeRegister` that answers: the walk leaves the device, whatever the routing (42_sequencer R151, R154). -/
theorem write_step {v : State} {r : DeviceRow} {wr : Bool} {more : List BusAnswer} (hu : Undisturbed v)
    (hq : v.seqState = .write) (hr : v.cfg.deviceMap[v.devIdx]? = some r)
    (ha : v.busAnswers = busAnswerOf wr :: more) :
    ∃ o n, step v = .next (nextDevice { v with
      out := o
      draws := n
      busAnswers := more
      trace := .writeRegister r.addr v.cfg.outputRegId
        (bytes3 v.cfg.payloadByteOrder (arenaCell v v.seqPreset.toNat v.devIdx)) 3 wr :: v.trace }) := by
  rw [step_walk hu.ownTurn (by simp [hq]), hu.setInputs_tail]
  have ht := takeBusAnswer_frame v
  simp only [ha, List.tail_cons] at ht
  cases wr
  · refine ⟨v.out, (takeBusAnswer v).draws, ?_⟩
    simp only [seqStep, hq, hr, writeStep, nextBusAnswer, ha, busAnswerOf]
    rw [ht]
    simp [observe, writeEvent, walkPayload, arenaCell, hq]
  · have hd := deliver_frame r (takeBusAnswer v)
    refine ⟨(deliver r (takeBusAnswer v)).out, (deliver r (takeBusAnswer v)).draws, ?_⟩
    simp only [seqStep, hq, hr, writeStep, nextBusAnswer, ha, busAnswerOf, if_true]
    generalize deliver r (takeBusAnswer v) = w at *
    generalize takeBusAnswer v = y at *
    generalize y.draws = n at ht
    subst ht
    generalize w.out = o at *
    generalize w.draws = k at *
    subst hd
    simp [observe, writeEvent, walkPayload, arenaCell, hq]

/-- The rest of a walk, from SELECT of any device to its end, whatever the collaborators answer (42_sequencer R151,
R152, R154). -/
theorem walk_runs {rest : List BusAnswer} (rows : List DeviceRow) : ∀ (script : List DeviceAnswers) (v : State),
    rows ≠ [] → v.cfg.deviceMap.drop v.devIdx = rows → script.length = rows.length → Undisturbed v →
    v.seqState = .select → v.busAnswers = answerList script ++ rest →
    ∃ u, runs (answerList script).length v u ∧
      (storeWf 0#24 v.out = true →
        (∀ k a, script[k]? = some a → outCell u (v.devIdx + k) =
          if a.select && a.write then arenaCell v v.seqPreset.toNat (v.devIdx + k) else outCell v (v.devIdx + k)) ∧
        ∀ d, d < v.devIdx ∨ v.cfg.deviceCount ≤ d → outCell u d = outCell v d) ∧
      u = { v with
        busy := false
        lastStatus := .ok
        response := responseWord .ok 0#24
        seqState := .idle
        devIdx := v.cfg.deviceCount
        selectedBus := u.selectedBus
        out := u.out
        busAnswers := rest
        trace := .response (responseWord .ok 0#24) ::
          ((walkTrace v.cfg (arenaCell v v.seqPreset.toNat) v.devIdx rows script).reverse ++ v.trace) } := by
  induction rows with
  | nil => intro _ _ h; exact absurd rfl h
  | cons r rows ih =>
    intro script v _ hd hlen hu hq ha
    cases script with
    | nil => simp at hlen
    | cons a script =>
      have hlt : v.devIdx < v.cfg.deviceMap.length := by
        by_contra h
        rw [List.drop_eq_nil_of_le (by omega)] at hd
        cases hd
      rw [List.drop_eq_getElem_cons hlt] at hd
      injection hd with hr hd
      have hr : v.cfg.deviceMap[v.devIdx]? = some r := by rw [List.getElem?_eq_getElem hlt, hr]
      have happ : answerList (a :: script) = answerList [a] ++ answerList script := by
        cases h : a.select <;> simp [answerList, h]
      have htr : ∀ pf, walkTrace v.cfg pf v.devIdx (r :: rows) (a :: script) =
          walkTrace v.cfg pf v.devIdx [r] [a] ++ walkTrace v.cfg pf (v.devIdx + 1) rows script := by
        intro pf
        simp [walkTrace]
      rw [happ, List.append_assoc] at ha
      obtain ⟨q, b, hrun⟩ := device_runs hu hq hr ha
      generalize hwv : ({ v with
        seqState := q, selectedBus := b, out := _, busAnswers := _, trace := _ } : State) = w at hrun
      have ho : storeWf 0#24 v.out = true → ∀ d, outCell w d =
          if d = v.devIdx ∧ (a.select && a.write) then arenaCell v v.seqPreset.toNat v.devIdx
          else outCell v d := by
        intro hw d
        subst hwv
        by_cases h : (a.select && a.write) = true
        · have := outCell_setOut (s := v) (d := v.devIdx) (d' := d) (p := walkPayload v) hw
          simp only [outCell, setOut_out] at this ⊢
          simp only [h, if_true, and_true, this]
          rfl
        · simp [h, outCell]
      have hww : storeWf 0#24 v.out = true → storeWf 0#24 w.out = true := by
        intro hw
        subst hwv
        simp only
        split
        · exact storeWrite_wf hw
        · exact hw
      have hcw : w.cfg = v.cfg := by subst hwv; rfl
      have hdw : w.devIdx = v.devIdx := by subst hwv; rfl
      have hother : ∀ d, d < v.devIdx ∨ v.cfg.deviceCount ≤ d → ¬ (d = v.devIdx ∧ (a.select && a.write) = true) := by
        rintro d hd ⟨rfl, _⟩
        simp only [Config.deviceCount] at hd
        omega
      rw [happ, List.length_append]
      rcases nextDevice_cases w with ⟨hc, he⟩ | ⟨hc, he⟩ <;> rw [he] at hrun <;> rw [hcw, hdw] at hc
      · have hne : rows ≠ [] := by
          rintro rfl
          have := congrArg List.length hd
          simp only [List.length_drop, Config.deviceCount, List.length_nil] at this hc
          omega
        obtain ⟨u, hru, ho12, hue⟩ := ih script (setSeq .select (advanceDevice w)) hne (by subst hwv; exact hd)
          (by simpa using hlen) (by subst hwv; exact ⟨hu.cfgWf, hu.inputs, hu.context⟩) rfl (by subst hwv; rfl)
        refine ⟨u, runs_add hrun hru, fun hw => ?_, ?_⟩
        · have ho := ho hw
          obtain ⟨ho1, ho2⟩ := ho12 (by simpa using hww hw)
          have hsame : ∀ d, outCell (setSeq .select (advanceDevice w)) d = outCell w d := fun _ => rfl
          refine ⟨?_, ?_⟩
          · intro k a' hk
            cases k with
            | zero =>
              cases hk
              rw [Nat.add_zero, ho2 _ (by left; simp [hdw]), hsame, ho]
              simp
            | succ k =>
              have := ho1 k a' hk
              simp only [setSeq_devIdx, advanceDevice_devIdx, hdw, hsame] at this
              have h0 := ho (v.devIdx + 1 + k)
              rw [if_neg (by omega)] at h0
              rw [show v.devIdx + (k + 1) = v.devIdx + 1 + k by omega, this, h0]
              subst hwv
              rfl
          · intro d hd
            rw [ho2 d (by simp [hdw, hcw]; omega), hsame, ho, if_neg (hother d hd)]
        · rw [htr]
          have : walkTrace v.cfg (arenaCell v v.seqPreset.toNat) (v.devIdx + 1) rows script =
              walkTrace (setSeq .select (advanceDevice w)).cfg
                (arenaCell (setSeq .select (advanceDevice w)) (setSeq .select (advanceDevice w)).seqPreset.toNat)
                (setSeq .select (advanceDevice w)).devIdx rows script := by
            subst hwv
            rfl
          rw [this, hue]
          subst hwv
          simp [setSeq, advanceDevice]
      · have hne : rows = [] := by
          rw [← hd]
          exact List.drop_eq_nil_of_le hc
        subst hne
        have hs : script = [] := by simpa using hlen
        subst hs
        have hsame : ∀ d, outCell (endWalk (advanceDevice w)) d = outCell w d := fun _ => rfl
        refine ⟨_, runs_add hrun (runs_zero.mpr rfl), fun hw => ⟨?_, ?_⟩, ?_⟩
        · intro k a' hk
          cases k with
          | zero =>
            cases hk
            rw [Nat.add_zero, hsame, ho hw]
            simp
          | succ k => simp at hk
        · intro d hd
          rw [hsame, ho hw, if_neg (hother d hd)]
        · have : v.devIdx + 1 = v.cfg.deviceCount := by
            simp only [Config.deviceCount] at hc ⊢
            omega
          subst hwv
          simp [endWalk, setSeq, advanceDevice, respond, this, answerList]

/-- The strobe toggles of a scan step (44_control_loop R213). -/
theorem echo_runs (n : Nat) : ∀ v : State, BlockIdle v → Undisturbed v → v.loopPos = .echoHigh (n + 1) →
    v.strobe = false → runs (4 * (n + 1)) v { v with
      loopPos := .scanDelay
      trace := (strobeTrace v.cfg (n + 1)).reverse ++ v.trace } := by
  have first : ∀ (m k : Nat) (v w : State), BlockIdle v → Undisturbed v → v.loopPos = .echoHigh m →
      v.strobe = false →
      runs k { v with
        loopPos := afterEcho (m - 1)
        trace := .delay (.echoLow v.cfg.echoLowDelay) :: .lineWrite v.cfg.strobeLine false ::
          .delay (.echoHigh v.cfg.echoHighDelay) :: .lineWrite v.cfg.strobeLine true :: v.trace } w →
      runs (k + 4) v w := by
    intro m k v w hq hu hl hs hr
    have u : ∀ p st t, Undisturbed { v with loopPos := p, strobe := st, trace := t } :=
      fun _ _ _ => ⟨hu.cfgWf, hu.inputs, hu.context⟩
    have q : ∀ p st t, BlockIdle { v with loopPos := p, strobe := st, trace := t } :=
      fun _ _ _ => ⟨hq.busy, hq.seqState, hq.precompute⟩
    have h1 : step v = .next (goto (.echoHighDelay m) (lineWrite v.cfg.strobeLine true v)) :=
      hu.step_done hq (by simp only [loopStep, hl])
    rw [lineWrite_strobeLine hu.cfgWf] at h1
    refine runs_cons h1 ?_
    refine runs_cons ((u (.echoHighDelay m) true _).step_done (q _ _ _) rfl) ?_
    refine runs_cons ((u (.echoLow m) true _).step_done (q _ _ _) rfl) ?_
    rw [lineWrite_strobeLine (by exact hu.cfgWf)]
    refine runs_cons ((u (.echoLowDelay m) false _).step_done (q _ _ _) rfl) ?_
    convert hr using 1
    cases v
    simp_all [goto, observe]
  induction n with
  | zero =>
    intro v hq hu hl hs
    exact first 1 0 v _ hq hu hl hs (by simp [runs, strobeTrace, afterEcho])
  | succ n ih =>
    intro v hq hu hl hs
    refine first (n + 2) (4 * (n + 1)) v _ hq hu hl hs ?_
    have := ih { v with
      loopPos := .echoHigh (n + 1)
      trace := .delay (.echoLow v.cfg.echoLowDelay) :: .lineWrite v.cfg.strobeLine false ::
        .delay (.echoHigh v.cfg.echoHighDelay) :: .lineWrite v.cfg.strobeLine true :: v.trace }
      ⟨hq.busy, hq.seqState, hq.precompute⟩ ⟨hu.cfgWf, hu.inputs, hu.context⟩ rfl hs
    rw [show afterEcho (n + 2 - 1) = .echoHigh (n + 1) from rfl]
    simpa [strobeTrace] using this

/-- The two steps of a PRECOMPUTE after its count was accepted, with `alloc_ok` true (41_cache R124, R125). -/
theorem precompute_runs {v : State} {n : PresetIndex} (hu : Undisturbed v) (hq : v.seqState = .idle)
    (hp : v.precompute = .resource n) (ha : allocOk v = true) :
    runs 2 v (respond .ok 0#24 (rebuildCache n.toNat (setPrecompute .idle (takeAlloc v)))) := by
  have h1 : step v = .next (setPrecompute (.derive n) (takeAlloc v)) := by
    rw [step_precompute hu.ownTurn hq (by simp [hp]), hu.setInputs_tail]
    simp [precomputeStep, hp, resourceStep, ha]
  have hu2 : Undisturbed (setPrecompute (.derive n) (takeAlloc v)) :=
    ⟨by simpa using hu.cfgWf, by simpa using hu.inputs, by simpa using hu.context⟩
  refine runs_cons h1 (runs_one ?_)
  rw [step_precompute hu2.ownTurn (by simpa using hq) (by simp), hu2.setInputs_tail]
  rfl

/-- The derivation of a PRECOMPUTE, as one record: the arena inside the new bounds is the matrix's (41_cache R125). -/
theorem deriveStep_eq {v : State} {n : PresetIndex} :
    respond .ok 0#24 (rebuildCache n.toNat (setPrecompute .idle (takeAlloc v))) = { v with
      arena := (rebuildCache n.toNat v).arena
      cachedPresets := n.toNat
      cachedDevices := v.cfg.deviceCount
      busy := false
      precompute := .idle
      lastStatus := .ok
      response := responseWord .ok 0#24
      allocAnswers := (takeAlloc v).allocAnswers
      draws := (takeAlloc v).draws
      trace := .response (responseWord .ok 0#24) :: v.trace } := by
  rw [takeAlloc_frame]
  rfl

/-- One group of a bulk update that lies in the matrix: its LOADCFG succeeds (43_command_channel R185). -/
theorem bulkGroup_step {v : State} {g n : Nat} (hu : Undisturbed v) (hb : BlockIdle v)
    (hl : v.loopPos = .bulkGroup g n) (hg : g < n) (hin : g / v.cfg.channels < v.cfg.maxPresets) :
    ∃ x, step v = .next { v with
      matrix := storeWrite zeroCell g (cellOfCfg24 (groupOperand v.pb g)) v.matrix
      lastStatus := .ok
      response := responseWord .ok 0#24
      loopPos := .bulkGroup (g + 1) n
      trace := .response (responseWord .ok 0#24) :: .accept x :: v.trace } := by
  obtain ⟨_, hp, hc1, hc2, _⟩ := Config.wf_sizes hu.cfgWf
  have hmod := Nat.mod_lt g hc1
  have hr : nextAction v = .run (.loadcfg (BitVec.ofNat 16 (groupPreset v.cfg g))
      (BitVec.ofNat 8 (groupChannel v.cfg g)) (groupOperand v.pb g)) (goto (.bulkGroup (g + 1) n) v) := by
    rw [nextAction_loop (hu.loopTurn hb), hu.setInputs_tail]
    simp only [loopStep, hl, bulkStep, hg, if_true, groupPreset, hin]
  have h1 : (BitVec.ofNat 16 (groupPreset v.cfg g)).toNat = g / v.cfg.channels := by
    simp [groupPreset]
    omega
  have h2 : (BitVec.ofNat 8 (groupChannel v.cfg g)).toNat = g % v.cfg.channels := by
    simp [groupChannel]
    omega
  have hk : g / v.cfg.channels * v.cfg.channels + g % v.cfg.channels = g := by
    rw [Nat.mul_comm]
    exact Nat.div_add_mod g _
  generalize BitVec.ofNat 16 (groupPreset v.cfg g) = p at hr h1
  generalize BitVec.ofNat 8 (groupChannel v.cfg g) = c at hr h2
  refine ⟨.loadcfg p c (groupOperand v.pb g), (step_of_run hr).trans ?_⟩
  have ha : Accepts (goto (.bulkGroup (g + 1) n) v) := ⟨hb.busy, hu.context⟩
  have hn : ¬ (v.cfg.maxPresets ≤ p.toNat ∨ v.cfg.channels ≤ c.toNat) := by omega
  simp only [exec, execLoadcfg, operation_of_accepts ha, accept_cfg, goto_cfg, hn, if_false]
  simp only [respond, writeCell, accept, goto, matrixKey, h1, h2, hk]
  have hb := hb.busy
  cases v
  cases hb
  rfl

/-- The groups of a bulk update from the last `k` on (43_command_channel R185). -/
theorem bulk_runs {cfg : Config} {pb : MessageBuffer} (n : Nat) : ∀ (k : Nat) (v : State), k ≤ n →
    v.cfg = cfg → v.pb = pb → Undisturbed v → BlockIdle v → storeWf zeroCell v.matrix = true →
    v.loopPos = .bulkGroup (n - k) n →
    ∃ u ops, runs k v u ∧ storeWf zeroCell u.matrix = true ∧
      (∀ p c, p < cfg.maxPresets → c < cfg.channels → matrixCell cfg u.matrix p c =
        if n - k ≤ p * cfg.channels + c ∧ p * cfg.channels + c < n then
          cellOfCfg24 (groupOperand pb (p * cfg.channels + c))
        else matrixCell cfg v.matrix p c) ∧
      (∀ o ∈ ops, (∃ i, o = .accept i) ∨ ∃ rw, o = .response rw) ∧
      u = { v with
        matrix := u.matrix
        lastStatus := u.lastStatus
        response := u.response
        loopPos := .bulkGroup n n
        trace := ops ++ v.trace } := by
  intro k
  induction k with
  | zero =>
    intro v _ hc hp hu hb hm hl
    refine ⟨v, [], rfl, hm, fun p c _ _ => (if_neg (by omega)).symm, by simp, ?_⟩
    cases v
    simp_all
  | succ k ih =>
    intro v hk hc hp hu hb hm hl
    subst hc hp
    generalize hg : n - (k + 1) = g at *
    have hg' : g < n := by omega
    have hgk : n - k = g + 1 := by omega
    have hch := (Config.wf_sizes hu.cfgWf).2.2.1
    by_cases hin : g / v.cfg.channels < v.cfg.maxPresets
    · obtain ⟨x, hx⟩ := bulkGroup_step hu hb hl hg' hin
      generalize hwv : ({ v with
        matrix := _, lastStatus := _, response := _, loopPos := _, trace := _ } : State) = w at hx
      have hwm : w.matrix = storeWrite zeroCell g (cellOfCfg24 (groupOperand v.pb g)) v.matrix := by subst hwv; rfl
      obtain ⟨u, ops, hu1, hu2, hu3, hu4, hu5⟩ := ih w (by omega) (by subst hwv; rfl) (by subst hwv; rfl)
        (by subst hwv; exact ⟨hu.cfgWf, hu.inputs, hu.context⟩)
        (by subst hwv; exact ⟨hb.busy, hb.seqState, hb.precompute⟩)
        (by rw [hwm]; exact storeWrite_wf hm) (by subst hwv; rw [hgk])
      refine ⟨u, ops ++ [.response (responseWord .ok 0#24), .accept x], runs_cons hx hu1, hu2, ?_, ?_, ?_⟩
      · intro p c hp hc
        rw [hu3 p c hp hc, hgk]
        have hcell : matrixCell v.cfg w.matrix p c = if p * v.cfg.channels + c = g
            then cellOfCfg24 (groupOperand v.pb g) else matrixCell v.cfg v.matrix p c := by
          rw [hwm, matrixCell, matrixKey, storeRead_storeWrite hm]
          rfl
        by_cases he : p * v.cfg.channels + c = g
        · rw [if_neg (by omega), hcell, if_pos he, if_pos (by omega), he]
        · rw [hcell, if_neg he]
          by_cases h : g + 1 ≤ p * v.cfg.channels + c ∧ p * v.cfg.channels + c < n
          · rw [if_pos h, if_pos (by omega)]
          · rw [if_neg h, if_neg (by omega)]
      · intro o ho
        rcases List.mem_append.mp ho with h | h
        · exact hu4 o h
        · simp only [List.mem_cons, List.not_mem_nil, or_false] at h
          rcases h with h | h
          · exact .inr ⟨_, h⟩
          · exact .inl ⟨_, h⟩
      · rw [hu5]
        subst hwv
        simp
    · have hr : nextAction v = .done (goto (.bulkGroup (g + 1) n) v) := by
        rw [nextAction_loop (hu.loopTurn hb), hu.setInputs_tail]
        simp only [loopStep, hl, bulkStep, hg', if_true, groupPreset, hin, if_false]
      obtain ⟨u, ops, hu1, hu2, hu3, hu4, hu5⟩ := ih (goto (.bulkGroup (g + 1) n) v) (by omega) rfl rfl
        ⟨hu.cfgWf, hu.inputs, hu.context⟩ ⟨hb.busy, hb.seqState, hb.precompute⟩ hm (by rw [hgk]; rfl)
      refine ⟨u, ops, runs_cons (step_of_done hr) hu1, hu2, ?_, hu4, by rw [hu5]; simp [goto]⟩
      intro p c hp hc
      rw [hu3 p c hp hc, hgk]
      have : p * v.cfg.channels + c < v.cfg.maxPresets * v.cfg.channels := key_lt hp hc
      have : v.cfg.maxPresets * v.cfg.channels ≤ g := by
        rwa [Nat.not_lt, Nat.le_div_iff_mul_le hch] at hin
      rw [if_neg (by omega), if_neg (by omega)]
      rfl

end Sys2Proof.Machine
end

