-- ==== Sys2Proof/Tests/Slice0.lean ====
section
/-! SUPPORT. The model's own tests, with results taken from 95_test_vectors, and a witness for the hypotheses of every
statement. Every test is one decode, one `exec` or one `step`. -/

namespace Sys2Proof.Tests

open Sys2Proof Sys2Proof.Machine

/-! ### Helpers -/

/-- The next state of an outcome, if there is one. -/
def nextOf (r : Result) : Option State :=
  match r with
  | .next s    => some s
  | .fault _   => none
  | .refused _ => none

/-- The response word of the next state. -/
def respOf (r : Result) : Option ResponseWord := (nextOf r).map State.response

/-- EX1 right after reset. -/
def ex1 : State := State.resetWith Config.example1

/-- The cells of M that the LOADCFG steps of program P2 write. -/
def matrixP2 : Store Cell :=
  [(0, ⟨5#8, 2#8, false⟩), (1, ⟨1#8, 1#8, true⟩), (2, ⟨2#8, 4#8, false⟩), (3, ⟨7#8, 7#8, true⟩),
    (4, ⟨100#8, 9#8, true⟩), (5, ⟨10#8, 3#8, true⟩), (6, ⟨20#8, 6#8, false⟩), (7, ⟨96#8, 3#8, false⟩)]

/-- The state after step 12 of program P2. -/
def cached : State :=
  { ex1 with
    matrix := matrixP2
    arena := [(0, 0x000502#24), (1, 0x204C01#24), (2, 0x000F07#24), (3, 0x000939#24), (4, 0x146A83#24),
      (5, 0x000033#24)]
    cachedPresets := 2
    cachedDevices := 3 }

/-- A valid PRESET_SELECT message in the mailbox (vector L1). -/
def mailed : State :=
  { ex1 with
    mailbox := [(0, 0x58#8), (1, 0x4F#8), (2, 0x42#8), (3, 0x4D#8), (4, 3#8), (8, 1#8), (12, 1#8), (16, 2#8)] }

/-- PB with vector L4's message, about to be dispatched. -/
def bulked : State :=
  { ex1 with
    loopPos := .dispatch
    mailboxMessagePending := true
    pb := { cmd := 2#32, len := 7#32
            payload := [(0, 5#8), (1, 2#8), (3, 1#8), (4, 1#8), (5, 1#8), (6, 0x63#8)] } }

/-- A walk of preset 1 at its first device. -/
def walking : State := { cached with busy := true, seqState := .select, devIdx := 0, seqPreset := 1#16 }

/-- A PRECOMPUTE of one preset before its derivation. -/
def deriving1 : State := { cached with busy := true, precompute := .derive 1#16 }

/-- `alloc_ok` is drawn, and the next one is false. -/
def noStorage : State :=
  { cached with cfg := { Config.example1 with fixedArena := false }, allocAnswers := [false] }

/-- A state whose port holds these words. -/
def called (l : List CommandWord) : State := { ex1 with commands := l }

/-! ### Well-formedness: each check refuses an ill-formed configuration -/

theorem test_wf_example1 : Config.example1.wf = true := by decide

theorem test_wf_refuses_tx_slot :
    { Config.example1 with deviceMap := [⟨0, 0x20, .tx, some 1, none⟩] }.mappingOk = false := by decide

theorem test_wf_refuses_tx_slot_b :
    { Config.example1 with deviceMap := [⟨0, 0x20, .tx, some 0, some 1⟩] }.mappingOk = false := by decide

theorem test_wf_refuses_rx_slot_zero :
    { Config.example1 with deviceMap := [⟨0, 0x20, .tx, some 0, none⟩, ⟨1, 0x21, .rx, some 0, none⟩] }.mappingOk
      = false := by decide

theorem test_wf_refuses_rx_slot_past_n_rx :
    { Config.example1 with deviceMap := [⟨0, 0x20, .tx, some 0, none⟩, ⟨1, 0x21, .rx, none, some 4⟩] }.mappingOk
      = false := by decide

theorem test_wf_refuses_two_tx :
    { Config.example1 with deviceMap := [⟨0, 0x20, .tx, some 0, none⟩, ⟨1, 0x21, .tx, some 0, none⟩] }.mappingOk
      = false := by decide

theorem test_wf_refuses_no_tx :
    { Config.example1 with deviceMap := [⟨1, 0x21, .rx, some 1, none⟩] }.mappingOk = false := by decide

theorem test_wf_refuses_tx_index : { Config.example1 with txDeviceIndex := 1 }.mappingOk = false := by decide

theorem test_wf_refuses_misaligned : { Config.example1 with mailboxBase := 2 }.mailboxAligned = false := by decide

theorem test_wf_refuses_sizes :
    { Config.example1 with maxPresets := 0 }.sizesOk = false ∧
    { Config.example1 with maxPresets := 65536 }.sizesOk = false ∧
    { Config.example1 with nRx := 256 }.sizesOk = false ∧
    { Config.example1 with deviceMap := [] }.sizesOk = false ∧
    { Config.example1 with activePresets := 0 }.sizesOk = false ∧
    { Config.example1 with activePresets := 5 }.sizesOk = false ∧
    { Config.example1 with presetInputBits := 0 }.sizesOk = false ∧
    { Config.example1 with presetInputBits := 9 }.sizesOk = false := by decide

theorem test_wf_refuses_widths :
    { Config.example1 with busIdBits := 0 }.widthsOk = false ∧
    { Config.example1 with devAddrBits := 5 }.widthsOk = false ∧
    { Config.example1 with outputRegId := 256 }.widthsOk = false ∧
    { Config.example1 with muxAddr := 256 }.widthsOk = false ∧
    { Config.example1 with muxStatusReg := 256 }.widthsOk = false := by decide

theorem test_wf_refuses_lines :
    { Config.example1 with strobeLine := 0 }.linesDistinct = false ∧
    { Config.example1 with presetInputLine := 0 }.linesDistinct = false ∧
    { Config.example1 with presetInputLine := 1 }.linesDistinct = false := by decide

theorem test_wf_refuses_probe_return :
    (ProbeReturn.mk (some 510) none none true).ok = false ∧ (ProbeReturn.mk none none (some 0#32) true).ok = false ∧
    (ProbeReturn.mk none none (some 1#32) true).ok = false ∧
    (ProbeReturn.mk (some 509) (some 3#32) (some 2#32) true).ok = true := by decide

/-! ### Decoding: words from 95_test_vectors and the columns of 30_encoding R83 -/

/-- `ENCODE {200,18,3}`, section 4. -/
theorem test_decode_encode : decodeTableWord 64 0x10000000000312C8 = some (.encode ⟨200#8, 18#8, 3#8⟩) := by decide

/-- `DECODE 0xABC`, section 4. -/
theorem test_decode_decode : decodeTableWord 64 0x2000000000000ABC = some (.decode 0xABC#24) := by decide

/-- Step 9 of program P2. -/
theorem test_decode_loadcfg :
    decodeTableWord 64 0x300000010101030A = some (.loadcfg 1#16 1#8 ⟨10#8, 3#8, 1#8⟩) := by decide

/-- Step 13 of program P2. -/
theorem test_decode_precompute : decodeTableWord 64 0x4000000500000000 = some (.precompute 5#16) := by decide

/-- Step 16 of program P2. -/
theorem test_decode_get : decodeTableWord 64 0x5000000102000000 = some (.get 1#16 2#8) := by decide

/-- Step 17 of program P2. -/
theorem test_decode_apply : decodeTableWord 64 0x6000000200000000 = some (.apply 2#16) := by decide

theorem test_decode_bulk_update : decodeTableWord 32 2 = some .bulkUpdate := by decide

theorem test_decode_preset_select : decodeTableWord 32 3 = some .presetSelect := by decide

theorem test_decode_test_sequence_start : decodeTableWord 32 4 = some .testSequenceStart := by decide

/-- A message of zeros is invalid: its notification is a probe (43_command_channel R181, R183). -/
theorem test_decode_probe : decodeTableWord 4224 0 = some .probe := by decide

/-- Vectors Q16, Q17, Q18, a non-zero `rsv`, and a `cmd` outside 2, 3, 4. -/
theorem test_decode_rejects :
    decodeCommand 0x0000000000000000#64 = .error .reservedOp ∧
    decodeCommand 0x4000000200000001#64 = .error .fieldNotZero ∧
    decodeCommand 0x7000000000000000#64 = .error .reservedOp ∧
    decodeCommand 0x2001000000000000#64 = .error .reservedBits ∧
    decodeCmd 9#32 = .error .unrecognisedCmd := by decide

/-- The word is placed as the next call of the bring-up code, and the very next step runs it. -/
theorem test_fetch_word :
    respOf (step (State.reset.withFetchWord 64 0x10000000000312C8)) = some 0x00000892#32 := by decide

/-- The `cmd` is placed at the dispatch, and the very next step runs it. -/
theorem test_fetch_cmd :
    (nextOf (step (State.reset.withFetchWord 32 4))).map State.scanTarget = some 112#8 := by decide

/-! ### The instructions -/

/-- Vectors E30 and E9: out-of-range and in-range fields. -/
theorem test_encode :
    respOf (exec (.encode ⟨200#8, 2#8, 0#8⟩) ex1) = some 0x092#32 ∧
    respOf (exec (.encode ⟨100#8, 9#8, 1#8⟩) ex1) = some 0x939#32 := by decide

/-- Vector E36: flag byte 2 has bit 0 clear. -/
theorem test_encode_flag_bit_zero : respOf (exec (.encode ⟨5#8, 2#8, 2#8⟩) ex1) = some 0x502#32 := by decide

/-- Vectors X12 and X13. -/
theorem test_decode :
    respOf (exec (.decode 0xABC#24) ex1) = some 0x00010C6A#32 ∧
    respOf (exec (.decode 0x001502#24) ex1) = some 0x00000205#32 := by decide

/-- Vector Q13: the cell is written, the cache is not. -/
theorem test_loadcfg :
    (nextOf (exec (.loadcfg 3#16 3#8 ⟨1#8, 1#8, 1#8⟩) cached)).map
      (fun t => (matrixCell t.cfg t.matrix 3 3, t.arena, t.lastStatus)) =
      some (⟨1#8, 1#8, true⟩, cached.arena, .ok) := by decide

/-- Vectors Q14 and Q15. -/
theorem test_loadcfg_out_of_range :
    (nextOf (exec (.loadcfg 4#16 0#8 ⟨1#8, 1#8, 1#8⟩) ex1)).map (fun t => (t.matrix, t.lastStatus)) =
      some ([], .indexOutOfRange) ∧
    (nextOf (exec (.loadcfg 0#16 4#8 ⟨1#8, 1#8, 1#8⟩) ex1)).map (fun t => (t.matrix, t.lastStatus)) =
      some ([], .indexOutOfRange) := by decide

/-- Step 12 of program P2: the six payloads, at the derivation. -/
theorem test_precompute :
    (nextOf (step { ex1 with matrix := matrixP2, busy := true, precompute := .derive 2#16 })).map
      (fun t => (t.arena, t.cachedPresets, t.cachedDevices)) = some (cached.arena, 2, 3) := by decide

/-- Vectors Q7 and Q6: the count is validated first; then `alloc_ok` false empties the cache. -/
theorem test_precompute_errors :
    (nextOf (exec (.precompute 0#16) noStorage)).map (fun t => (t.cachedPresets, t.lastStatus)) =
      some (2, .configError) ∧
    (nextOf (step { noStorage with busy := true, precompute := .resource 2#16 })).map
      (fun t => (t.cachedPresets, t.cachedDevices, t.lastStatus)) = some (0, 0, .resourceError) := by decide

/-- Steps 14 and 16 of program P2. -/
theorem test_get :
    respOf (exec (.get 1#16 1#8) cached) = some 0x00146A83#32 ∧
    respOf (exec (.get 1#16 2#8) cached) = some 0x00000033#32 := by decide

/-- Vectors Q10 and Q11. -/
theorem test_get_not_found :
    respOf (exec (.get 2#16 0#8) cached) = some 0x03000000#32 ∧
    respOf (exec (.get 0#16 3#8) cached) = some 0x03000000#32 := by decide

/-- Vectors A2 and A3. -/
theorem test_apply_errors :
    respOf (exec (.apply 65535#16) ex1) = some 0x04000000#32 ∧
    respOf (exec (.apply 2#16) cached) = some 0x05000000#32 := by decide

/-- Vector A7's write of device 1: the bytes on the bus and OUT[1]. -/
theorem test_apply_write :
    (nextOf (step { walking with
      seqState := .write, devIdx := 1, selectedBus := some 1, busAnswers := [.ok] })).map
      (fun t => (t.out, t.trace.head?, t.devIdx)) =
      some ([(1, 0x146A83#24)], some (.writeRegister 0x21 0x04 [0x83#8, 0x6A#8, 0x14#8] 3 true), 2) := by decide

/-- Vector L4: two groups, the seventh byte ignored. -/
theorem test_bulk_update_starts :
    (nextOf (step bulked)).map State.loopPos = some (.bulkGroup 0 2) := by decide

/-- Vector L4: group 1 is M[0][1] = {1, 1, 1}. -/
theorem test_bulk_update_group :
    (nextOf (step { bulked with loopPos := .bulkGroup 1 2 })).map (fun t => (t.matrix, t.loopPos)) =
      some ([(1, ⟨1#8, 1#8, true⟩)], .bulkGroup 2 2) := by decide

/-- PRESET_SELECT of vector L1's message; with length 0 it is ignored (decision D21). -/
theorem test_preset_select :
    (nextOf (exec .presetSelect { ex1 with pb := ⟨3#32, 1#32, [(0, 2#8)]⟩ })).map
      (fun t => (t.pendingPreset, t.presetChangeRequested, t.pulseRequested)) = some (2#8, true, true) ∧
    (nextOf (exec .presetSelect { ex1 with pb := ⟨3#32, 0#32, [(0, 2#8)]⟩ })).map
      (fun t => (t.pendingPreset, t.presetChangeRequested, t.pulseRequested)) = some (0#8, false, false) := by decide

/-- Steps 1 and 3 of program P6: the second start keeps the count. -/
theorem test_test_sequence_start :
    (nextOf (exec .testSequenceStart ex1)).map
      (fun t => (t.scanCount, t.scanTarget, t.testSequenceActive)) = some (0#8, 112#8, true) ∧
    (nextOf (exec .testSequenceStart
      { ex1 with testSequenceActive := true, scanCount := 41#8, scanTarget := 112#8 })).map
      (fun t => (t.scanCount, t.scanTarget)) = some (41#8, 112#8) := by decide

/-- Vectors L2 and L3: an invalid message is probed; no flag is set and PB is unchanged. -/
theorem test_probe :
    (nextOf (step { ex1 with inputs := [.notify], muxReads := [some 7#16] })).map
      (fun t => (t.mailboxMessagePending, t.pb, t.muxReads)) = some (false, ex1.pb, []) ∧
    (nextOf (step { mailed with
      mailbox := (putMailField .status 2#32 mailed).mailbox, inputs := [.notify], muxReads := [none] })).map
      (fun t => (t.mailboxMessagePending, t.pb, t.context)) = some (false, ex1.pb, .loop) := by decide

/-- A listed status byte, and one that is not listed (30_encoding R92). -/
theorem test_probe_response :
    probeResponse { Config.example1 with probeTable := [(7, 1#8, 2#8, 3#8)], probeElse := (9#8, 9#8, 9#8) } 7#8 =
      (1#8, 2#8, 3#8) ∧
    probeResponse { Config.example1 with probeTable := [(7, 1#8, 2#8, 3#8)], probeElse := (9#8, 9#8, 9#8) } 8#8 =
      (9#8, 9#8, 9#8) := by decide

/-- Vector L1: the copy, the acknowledgement and the flag. -/
theorem test_notify :
    (nextOf (step { mailed with inputs := [.notify] })).map
      (fun t => (t.pb, mailField t .status, t.mailboxMessagePending)) =
      some (⟨3#32, 1#32, [(0, 2#8)]⟩, 2#32, true) := by decide

/-- Vector L9. -/
theorem test_edge :
    (nextOf (step { ex1 with inputs := [.edge 1#8] })).map
      (fun t => (t.pendingPreset, t.presetChangeRequested, t.pulseRequested)) = some (1#8, true, false) := by decide

/-- Vector L6: the count reaches the target, the sequence ends, the target is cleared. -/
theorem test_scan_count :
    (nextOf (step { ex1 with
      loopPos := .scanCount, testSequenceActive := true, scanCount := 111#8, scanTarget := 112#8 })).map
      (fun t => (t.scanCount, t.scanTarget, t.testSequenceActive)) = some (112#8, 0#8, false) := by decide

/-! ### Witnesses: a state and operands that meet the hypotheses of each statement -/

/-- EX1 with other parameters. -/
def cfgBe : Config := { Config.example1 with mailboxByteOrder := .be, mailboxBase := 0x400 }

theorem accepts_cached : Accepts cached := ⟨rfl, rfl⟩

theorem inv_reset : Inv State.reset :=
  ⟨by decide, ⟨by decide, by decide, by decide, by decide, by decide, by decide, by decide, by decide, by decide,
    by decide⟩, ⟨by decide, by decide, (by rintro _ (h | h) <;> cases h), by decide, by decide, by decide, by decide,
    by decide⟩,
    ⟨rfl, rfl, by decide, rfl, rfl, by decide, by decide⟩⟩

theorem inv_walking : Inv walking :=
  ⟨by decide, ⟨by decide, by decide, by decide, by decide, by decide, by decide, by decide, by decide, by decide,
    by decide⟩, ⟨by decide, by decide, (by rintro _ (h | h) <;> cases h), by decide, by decide, by decide, by decide,
    by decide⟩,
    ⟨rfl, rfl, by decide, rfl, rfl, fun _ => .inl rfl, by decide⟩⟩

theorem inv_cached_walking_last : Inv { walking with devIdx := 2, busAnswers := [.fail] } :=
  ⟨by decide, ⟨by decide, by decide, by decide, by decide, by decide, by decide, by decide, by decide, by decide,
    by decide⟩, ⟨by decide, by decide, (by rintro _ (h | h) <;> cases h), by decide, by decide, by decide, by decide,
    by decide⟩,
    ⟨rfl, rfl, by decide, rfl, rfl, fun _ => .inl rfl, by decide⟩⟩

theorem witness_EncodeDecodeAgree :
    decode (.command 0x6000000200000000#64) = .ok (.apply 2#16) ∧ decode (.mailboxCmd 4#32) = .ok .testSequenceStart ∧
    decode .invalidMessage = .ok .probe := by decide

/-- Vectors Q16, Q17, Q18 and a non-zero `rsv`: one word for each way to be reserved. -/
theorem witness_ReservedWordAnswersBadCommand :
    reservedWord 0x0#64 ∧ reservedWord 0x7000000000000000#64 ∧ reservedWord 0xF000000000000000#64 ∧
    reservedWord 0x2001000000000000#64 ∧ reservedWord 0x1000000100000000#64 ∧ reservedWord 0x2000000001000000#64 ∧
    reservedWord 0x4000000200000001#64 ∧ reservedWord 0x6000000001000000#64 ∧ reservedWord 0x5000000000000001#64 ∧
    reservedWord 0x3FFF000000000000#64 ∧ ¬ reservedWord 0x3000FFFFFFFFFFFF#64 ∧
    OwnTurn (called [0x7000000000000000#64]) ∧ BlockIdle (called [0x7000000000000000#64]) ∧
    (called [0x7000000000000000#64]).loopPos = .top ∧
    (called [0x7000000000000000#64]).commands = 0x7000000000000000#64 :: [] := by
  unfold reservedWord
  exact ⟨by decide, by decide, by decide, by decide, by decide, by decide, by decide, by decide, by decide,
    by decide, by decide, ⟨by decide, .inl rfl⟩, ⟨rfl, rfl, rfl⟩, rfl, rfl⟩

theorem witness_StepRunsTheDecodedInstruction :
    (LoopTurn (called [0x2000000000000ABC#64]) ∧ (called [0x2000000000000ABC#64]).loopPos = .top ∧
      decode (.command 0x2000000000000ABC#64) = .ok (.decode 0xABC#24)) ∧
    (LoopTurn bulked ∧ bulked.loopPos = .dispatch ∧ decode (.mailboxCmd bulked.pb.cmd) = .ok .bulkUpdate) ∧
    (LoopTurn { ex1 with loopPos := .presetApply, inputs := [.machine] }) ∧
    (ex1.cfg.wf = true ∧ { ex1 with inputs := [.notify] }.inputs = .notify :: [] ∧
      ¬ (mailField ex1 .magic = ex1.cfg.magic ∧ mailField ex1 .status = 1#32)) :=
  ⟨⟨⟨⟨by decide, .inl rfl⟩, rfl, rfl⟩, rfl, by decide⟩, ⟨⟨⟨by decide, .inl rfl⟩, rfl, rfl⟩, rfl, by decide⟩,
    ⟨⟨by decide, .inr ⟨[], rfl⟩⟩, rfl, rfl⟩, ⟨by decide, rfl, by decide⟩⟩

/-- The end positions of the reversal and of the two fields (vectors E10, E16, E17, E20). -/
theorem witness_EncodePlacesEveryBit :
    encodeChannel 1#8 0#8 false = 0x400#12 ∧ encodeChannel 64#8 0#8 false = 0x010#12 ∧
    encodeChannel 0#8 1#8 false = 0x001#12 ∧ encodeChannel 0#8 8#8 false = 0x008#12 ∧
    encodeChannel 0#8 0#8 true = 0x800#12 := by decide

/-- The corner of the legal ranges (vector E3). -/
theorem witness_EncodeChannelIsBijective :
    (127#8).toNat ≤ 127 ∧ (15#8).toNat ≤ 15 ∧ encodeCell ⟨127#8, 15#8, true⟩ = 0xFFF#12 ∧
    decodeChannel 0xFFF#12 = ⟨127#8, 15#8, true⟩ := by decide

theorem witness_EncodeCompletes : Accepts ex1 := ⟨rfl, rfl⟩

theorem witness_DecodeCompletes : Accepts ex1 := ⟨rfl, rfl⟩

/-- The last cell of the matrix, and the first index past each bound. -/
theorem witness_LoadcfgCompletes :
    Accepts cached ∧ ((3#16).toNat < cached.cfg.maxPresets ∧ (3#8).toNat < cached.cfg.channels) ∧
    ¬ ((4#16).toNat < cached.cfg.maxPresets ∧ (0#8).toNat < cached.cfg.channels) ∧
    ¬ ((0#16).toNat < cached.cfg.maxPresets ∧ (4#8).toNat < cached.cfg.channels) :=
  ⟨accepts_cached, by decide, by decide, by decide⟩

theorem witness_LoadcfgWritesOneCell :
    Accepts cached ∧ storeWf zeroCell cached.matrix = true ∧ (3#16).toNat < cached.cfg.maxPresets ∧
    (3#8).toNat < cached.cfg.channels := ⟨accepts_cached, by decide, by decide, by decide⟩

/-- Both ends: 0 and MAX_PRESETS + 1. -/
theorem witness_PrecomputeValidatesFirst :
    Accepts cached ∧ (0#16).toNat < 1 ∧ cached.cfg.maxPresets < (5#16).toNat := ⟨accepts_cached, by decide, by decide⟩

theorem witness_PrecomputeResourceError :
    (Undisturbed noStorage ∧ BlockIdle noStorage ∧ 1 ≤ (1#16).toNat ∧ (4#16).toNat ≤ noStorage.cfg.maxPresets ∧
      allocOk noStorage = false) ∧
    cached.cfg.fixedArena = true ∧ cached.lastStatus ≠ .resourceError ∧ ∃ t, step deriving1 = .next t :=
  ⟨⟨⟨by decide, rfl, rfl⟩, ⟨rfl, rfl, rfl⟩, by decide, by decide, by decide⟩, rfl, by decide, ⟨_, rfl⟩⟩

/-- Both ends of the count. -/
theorem witness_PrecomputeRebuildsInFull :
    Accepts cached ∧ Undisturbed cached ∧ BlockIdle cached ∧ storeWf 0#24 cached.arena = true ∧ 1 ≤ (1#16).toNat ∧
    (4#16).toNat ≤ cached.cfg.maxPresets ∧ allocOk cached = true :=
  ⟨accepts_cached, ⟨by decide, rfl, rfl⟩, ⟨rfl, rfl, rfl⟩, by decide, by decide, by decide, by decide⟩

/-- The three shapes of a row, and an index past the last row has none. -/
theorem witness_PayloadHasTheTwoSlots :
    Config.example1.deviceMap[0]? = some ⟨0, 0x20, .tx, some 0, none⟩ ∧
    Config.example1.deviceMap[1]? = some ⟨1, 0x21, .rx, some 1, some 2⟩ ∧
    Config.example1.deviceMap[2]? = some ⟨1, 0x22, .rx, some 3, none⟩ ∧
    payloadOf Config.example1 matrixP2 0 1 = 0x204C01#24 := by decide

/-- Another bus, another address and another preset's cells: the same payload. -/
theorem witness_PayloadDependsOnMappedCellsOnly :
    Config.example1.deviceMap[1]? = some ⟨1, 0x21, .rx, some 1, some 2⟩ ∧
    { Config.example1 with deviceMap := [⟨0, 0x20, .tx, some 0, none⟩, ⟨0, 0x55, .rx, some 1, some 2⟩] }.deviceMap[1]?
      = some ⟨0, 0x55, .rx, some 1, some 2⟩ ∧
    (∀ c, some 1 = some c ∨ some 2 = some c →
      matrixCell Config.example1 matrixP2 0 c = matrixCell Config.example1 (matrixP2.take 3) 0 c) := by
  refine ⟨by decide, by decide, ?_⟩
  rintro c (h | h) <;> cases h <;> decide

/-- The last cached cell; then an empty cache and the first index past each bound. -/
theorem witness_GetCompletes :
    Accepts cached ∧ ((1#16).toNat < cached.cachedPresets ∧ (2#8).toNat < cached.cachedDevices) ∧
    Accepts ex1 ∧ ex1.cachedPresets = 0 ∧ cached.cachedPresets ≤ (2#16).toNat ∧ cached.cachedDevices ≤ (3#8).toNat :=
  ⟨accepts_cached, by decide, ⟨rfl, rfl⟩, rfl, by decide, by decide⟩

theorem witness_TxPayloadEndToEnd :
    Undisturbed cached ∧ BlockIdle cached ∧ storeWf 0#24 cached.arena = true ∧ 1 ≤ (1#16).toNat ∧
    (4#16).toNat ≤ cached.cfg.maxPresets ∧ allocOk cached = true ∧
    matrixCell cached.cfg cached.matrix 0 0 = ⟨5#8, 2#8, false⟩ :=
  ⟨⟨by decide, rfl, rfl⟩, ⟨rfl, rfl, rfl⟩, by decide, by decide, by decide, by decide, by decide⟩

/-- The cache of P2 holds the payloads of P2's matrix. -/
theorem cacheOf_cached : CacheOf matrixP2 cached := by
  intro p d hp hd
  have hp : p < 2 := hp
  have hd : d < 3 := hd
  interval_cases p <;> interval_cases d <;> decide

/-- Both outcomes: a step that leaves the cache, and the derivation of a PRECOMPUTE. -/
theorem witness_CacheIsAllOrNothing :
    storeWf 0#24 cached.arena = true ∧ CacheOf matrixP2 cached ∧ (∃ t, step cached = .next t) ∧
    CacheOf matrixP2 deriving1 ∧ deriving1.precompute ≠ .idle ∧ ∃ t, step deriving1 = .next t :=
  ⟨by decide, cacheOf_cached, ⟨_, rfl⟩, cacheOf_cached, by decide, ⟨_, rfl⟩⟩

/-- The empty cache, and the first index past the cached count. -/
theorem witness_ApplyEntryErrors :
    Accepts ex1 ∧ ex1.cachedPresets = 0 ∧ Accepts cached ∧ cached.cachedPresets ≠ 0 ∧
    cached.cachedPresets ≤ (2#16).toNat := ⟨⟨rfl, rfl⟩, rfl, accepts_cached, by decide, by decide⟩

theorem witness_ApplyBeginsTheWalk : Accepts cached ∧ (1#16).toNat < cached.cachedPresets :=
  ⟨accepts_cached, by decide⟩

/-- Vector A5's answers. -/
def scriptA5 : List DeviceAnswers := [⟨true, true⟩, ⟨false, false⟩, ⟨true, false⟩]

theorem witness_ApplyWalkCompletes :
    Undisturbed { cached with busAnswers := [.ok, .ok, .fail, .ok, .fail] } ∧
    BlockIdle { cached with busAnswers := [.ok, .ok, .fail, .ok, .fail] } ∧
    storeWf 0#24 cached.out = true ∧ (1#16).toNat < cached.cachedPresets ∧
    scriptA5.length = cached.cfg.deviceCount ∧ [BusAnswer.ok, .ok, .fail, .ok, .fail] = answerList scriptA5 ++ [] :=
  ⟨⟨by decide, rfl, rfl⟩, ⟨rfl, rfl, rfl⟩, by decide, by decide, by decide, by decide⟩

/-- One state for each row of the table, the first and the last device among them. -/
theorem witness_SequencerTransitions :
    (OwnTurn { walking with busAnswers := [.ok] } ∧
      walking.cfg.deviceMap[0]? = some ⟨0, 0x20, .tx, some 0, none⟩ ∧
      nextBusAnswer { walking with busAnswers := [.ok] } = .ok) ∧
    (nextBusAnswer { walking with busAnswers := [.fail] } = .fail ∧ walking.devIdx + 1 < walking.cfg.deviceCount) ∧
    (walking.cfg.deviceMap[2]? = some ⟨1, 0x22, .rx, some 3, none⟩ ∧ 2 + 1 = walking.cfg.deviceCount) ∧
    (OwnTurn { walking with seqState := .write, busAnswers := [.fail] } ∧
      nextBusAnswer { walking with seqState := .write, busAnswers := [.fail] } ≠ .noAnswer) ∧
    OwnTurn { walking with seqState := .write, devIdx := 2, busAnswers := [.ok] } :=
  ⟨⟨⟨by decide, .inl rfl⟩, rfl, rfl⟩, ⟨rfl, by decide⟩, ⟨rfl, by decide⟩, ⟨⟨by decide, .inl rfl⟩, by decide⟩,
    ⟨by decide, .inl rfl⟩⟩

theorem witness_WriteSetsTheOutputRegister :
    OwnTurn { walking with seqState := .write, devIdx := 2, selectedBus := some 1, busAnswers := [.ok] } ∧
    walking.cfg.deviceMap[2]? = some ⟨1, 0x22, .rx, some 3, none⟩ ∧ storeWf 0#24 walking.out = true ∧
    nextBusAnswer { walking with busAnswers := [.ok] } = .ok ∧
    nextBusAnswer { walking with busAnswers := [.fail] } = .fail := ⟨⟨by decide, .inl rfl⟩, rfl, rfl, rfl, rfl⟩

theorem witness_UnansweredCallHoldsTheBlock :
    OwnTurn { walking with busAnswers := [.noAnswer, .ok] } ∧
    walking.cfg.deviceMap[walking.devIdx]? = some ⟨0, 0x20, .tx, some 0, none⟩ ∧ walking.seqState ≠ .idle :=
  ⟨⟨by decide, .inl rfl⟩, rfl, by decide⟩

/-- One state for each outcome: the call unanswered, the next device, the end. -/
theorem witness_SequencerPositionAdvances :
    Inv { walking with busAnswers := [] } ∧ walking.seqState ≠ .idle ∧
    (nextOf (step { walking with busAnswers := [.ok] })).map State.devIdx = some 0 ∧
    (nextOf (step { walking with busAnswers := [.fail] })).map State.devIdx = some 1 ∧
    Inv { walking with devIdx := 2, busAnswers := [.fail] } ∧
    (nextOf (step { walking with devIdx := 2, busAnswers := [.fail] })).map State.seqState = some .idle :=
  ⟨inv_walking, by decide, by decide, by decide, inv_cached_walking_last, by decide⟩

theorem witness_OverlappingOperationIsRefused :
    (∃ cw, encode (.get 0#16 0#8) = .command cw) ∧ { ex1 with context := .interrupt }.context = .interrupt ∧
    walking.context = .loop ∧ walking.busy = true := ⟨⟨_, rfl⟩, rfl, rfl, rfl⟩

theorem mailed_valid : mailField mailed .magic = mailed.cfg.magic ∧ mailField mailed .status = 1#32 := by decide

theorem witness_NotifyTakesTheMessage :
    { mailed with inputs := [.notify] }.cfg.wf = true ∧ mailed.context = .loop ∧ mailed.mailbox.wf = true ∧
    mailed.pb.payload.wf = true ∧ mailField mailed .magic = mailed.cfg.magic ∧ mailField mailed .status = 1#32 ∧
    (mailField mailed .len).toNat ≤ 512 := by decide

/-- Length 512 is taken, length 513 is refused. -/
theorem witness_OverlongMessageIsRefused :
    mailField (putMailField .len 513#32 mailed) .magic = mailed.cfg.magic ∧
    mailField (putMailField .len 513#32 mailed) .status = 1#32 ∧
    512 < (mailField (putMailField .len 513#32 mailed) .len).toNat ∧
    (mailField (putMailField .len 512#32 mailed) .len).toNat ≤ 512 := by decide

theorem witness_PresetSelectCompletes :
    1 ≤ { ex1 with pb := ⟨3#32, 1#32, [(0, 2#8)]⟩ }.pb.len.toNat ∧ ex1.pb.len.toNat = 0 := by decide

theorem witness_TestSequenceStartCompletes :
    ex1.testSequenceActive = false ∧ { ex1 with testSequenceActive := true }.testSequenceActive = true := by decide

theorem witness_BulkUpdateCompletes :
    Undisturbed bulked ∧ BlockIdle bulked ∧ allocOk bulked = true ∧ storeWf zeroCell bulked.matrix = true ∧
    storeWf 0#24 bulked.arena = true := ⟨⟨by decide, rfl, rfl⟩, ⟨rfl, rfl, rfl⟩, rfl, rfl, rfl⟩

/-- The last group of the matrix, the first past it, and the end. -/
theorem witness_BulkUpdateRound :
    LoopTurn { bulked with loopPos := .bulkGroup 15 17 } ∧
    (15 < 17 ∧ 15 / bulked.cfg.channels < bulked.cfg.maxPresets) ∧
    (16 < 17 ∧ bulked.cfg.maxPresets ≤ 16 / bulked.cfg.channels) ∧ 17 ≤ 17 :=
  ⟨⟨⟨by decide, .inl rfl⟩, rfl, rfl⟩, by decide, by decide, by decide⟩

/-- Vector L7. -/
theorem witness_UnrecognisedCmdDoesNothing :
    Undisturbed { bulked with pb := ⟨9#32, 0#32, []⟩ } ∧ BlockIdle { bulked with pb := ⟨9#32, 0#32, []⟩ } ∧
    (9#32 : Word32) ≠ 2#32 ∧ (9#32 : Word32) ≠ 3#32 ∧ (9#32 : Word32) ≠ 4#32 :=
  ⟨⟨by decide, rfl, rfl⟩, ⟨rfl, rfl, rfl⟩, by decide, by decide, by decide⟩

/-- Both byte orders: the most significant byte is at the highest, or the lowest, of the four addresses. -/
theorem witness_HostFieldReadsBack :
    ex1.cfg.wf = true ∧ ex1.mailbox.wf = true ∧ cfgBe.wf = true ∧
    (nextOf (step { ex1 with inputs := [.hostField .len 0x01020304#32] })).map
      (fun t => (t.mailbox.read 8, t.mailbox.read 11)) = some (4#8, 1#8) ∧
    (nextOf (step { State.resetWith cfgBe with inputs := [.hostField .len 0x01020304#32] })).map
      (fun t => (t.mailbox.read 0x408, t.mailbox.read 0x40B)) = some (1#8, 4#8) := by decide

/-- The last byte of the payload, and the first index past it. -/
theorem witness_HostPayloadStore :
    ex1.cfg.wf = true ∧ ex1.mailbox.wf = true ∧ 511 < 512 ∧
    (nextOf (step { ex1 with inputs := [.hostPayload 511 7#8] })).map (fun t => t.mailbox.read 527) = some 7#8 ∧
    (nextOf (step { ex1 with inputs := [.hostPayload 512 7#8] })).map (fun t => t.mailbox.read 528) = none := by
  decide

theorem witness_PulseItemDrivesOnePulse :
    Undisturbed { ex1 with loopPos := .pulseTest, pulseRequested := true } ∧
    BlockIdle { ex1 with loopPos := .pulseTest, pulseRequested := true } := ⟨⟨by decide, rfl, rfl⟩, ⟨rfl, rfl, rfl⟩⟩

theorem witness_ScanItemRunsOneScanStep :
    Undisturbed { ex1 with loopPos := .scanTest, testSequenceActive := true, scanTarget := 112#8, scanCount := 111#8 } ∧
    BlockIdle { ex1 with loopPos := .scanTest, testSequenceActive := true, scanTarget := 112#8, scanCount := 111#8 } ∧
    ex1.strobe = false ∧ ¬ (111#8 + 1#8 < 112#8) ∧ (110#8 + 1#8 < 112#8) :=
  ⟨⟨by decide, rfl, rfl⟩, ⟨rfl, rfl, rfl⟩, rfl, by decide, by decide⟩

/-- No flag, one flag, and the suspended loop. -/
theorem witness_LoopSuspendsWhenNothingIsPending :
    LoopTurn { ex1 with loopPos := .endTest } ∧ { ex1 with loopPos := .endTest }.presetChangeRequested = false ∧
    LoopTurn { ex1 with loopPos := .endTest, testSequenceActive := true } ∧
    LoopTurn { ex1 with loopPos := .suspended } :=
  ⟨⟨⟨by decide, .inl rfl⟩, rfl, rfl⟩, rfl, ⟨⟨by decide, .inl rfl⟩, rfl, rfl⟩, ⟨⟨by decide, .inl rfl⟩, rfl, rfl⟩⟩

theorem witness_EveryInterruptWakesTheLoop :
    (nextOf (step { ex1 with loopPos := .suspended, inputs := [.notify], muxReads := [none] })).map State.loopPos =
      some .top ∧
    (nextOf (step { ex1 with loopPos := .suspended, inputs := [.edge 0#8] })).map State.loopPos = some .top := by
  decide

/-- A step that stays in its item, one that goes to the next, and one that begins again. -/
theorem witness_ItemsFollowTheFixedOrder :
    LoopTurn { ex1 with loopPos := .pulseHold } ∧
    (nextOf (step { ex1 with loopPos := .pulseHold })).map State.loopPos = some .pulseLow ∧
    (nextOf (step { ex1 with loopPos := .scanTest })).map State.loopPos = some .mailTest ∧
    (nextOf (step { ex1 with loopPos := .endTest, pulseRequested := true })).map State.loopPos = some .top :=
  ⟨⟨⟨by decide, .inl rfl⟩, rfl, rfl⟩, by decide, by decide, by decide⟩

theorem witness_PresetSelectIterationAppliesAndPulsesOnce :
    Undisturbed { cached with
      pendingPreset := 1#8, presetChangeRequested := true, pulseRequested := true,
      busAnswers := [.ok, .ok, .fail, .ok, .fail] } ∧
    BlockIdle cached ∧ cached.loopPos = .top ∧ cached.commands = [] ∧ cached.mailboxMessagePending = false ∧
    cached.testSequenceActive = false ∧ (1#8).toNat < cached.cachedPresets ∧
    scriptA5.length = cached.cfg.deviceCount ∧
    [BusAnswer.ok, .ok, .fail, .ok, .fail] = answerList scriptA5 ++ [] ∧
    cached.cachedPresets ≤ (2#8).toNat ∧ ex1.cachedPresets ≤ (0#8).toNat :=
  ⟨⟨by decide, rfl, rfl⟩, ⟨rfl, rfl, rfl⟩, rfl, rfl, rfl, rfl, by decide, by decide, by decide, by decide, by decide⟩

theorem witness_EdgeRecordsTheRequest :
    ex1.cfg.wf = true ∧ ex1.context = .loop ∧ { ex1 with inputs := [.edge 255#8] }.inputs = .edge 255#8 :: [] := by
  decide

/-- Inside the walk: before the `selectBus` of the first device of three, before the `writeRegister` of the last. -/
def edgeInWalk (q : SeqState) (d : Nat) (answers : List BusAnswer) : State :=
  { walking with
    loopPos := .presetClear, seqState := q, devIdx := d, inputs := [.edge 1#8], busAnswers := answers }

theorem witness_EdgeBeforeTheClearIsLost :
    (cached.cfg.wf = true ∧ cached.context = .loop ∧ BlockIdle { cached with loopPos := .presetClear } ∧
      { cached with inputs := [.edge 1#8, .machine] }.inputs = .edge 1#8 :: .machine :: []) ∧
    (∃ s, s = edgeInWalk .select 0 [.ok, .ok, .fail, .ok, .fail] ∧ s.cfg.wf = true ∧ s.context = .loop ∧
      s.loopPos = .presetClear ∧ s.precompute = .idle ∧ s.inputs = [.edge 1#8] ∧ scriptA5 ≠ [] ∧
      s.devIdx + scriptA5.length = s.cfg.deviceCount ∧ s.seqState = .select ∧
      s.busAnswers = (answerList scriptA5).drop 0 ++ []) ∧
    ∃ s, s = edgeInWalk .write 2 [.fail] ∧ s.cfg.wf = true ∧ s.context = .loop ∧
      s.loopPos = .presetClear ∧ s.precompute = .idle ∧ s.inputs = [.edge 1#8] ∧
      [(⟨true, false⟩ : DeviceAnswers)] ≠ [] ∧
      s.devIdx + [(⟨true, false⟩ : DeviceAnswers)].length = s.cfg.deviceCount ∧ s.seqState = .write ∧
      [(⟨true, false⟩ : DeviceAnswers)].head?.map DeviceAnswers.select = some true ∧
      s.busAnswers = (answerList [⟨true, false⟩]).drop 1 ++ [] :=
  ⟨⟨by decide, rfl, ⟨rfl, rfl, rfl⟩, rfl⟩,
    ⟨_, rfl, by decide, rfl, rfl, rfl, rfl, by decide, by decide, rfl, by decide⟩,
    ⟨_, rfl, by decide, rfl, rfl, rfl, rfl, by decide, by decide, rfl, by decide, by decide⟩⟩

theorem witness_MessageBeforeTheClearIsLost :
    mailed.cfg.wf = true ∧ mailed.context = .loop ∧
    BlockIdle { mailed with loopPos := .mailClear, inputs := [.notify, .machine] } ∧
    mailField mailed .magic = mailed.cfg.magic ∧ mailField mailed .status = 1#32 ∧
    (mailField mailed .len).toNat ≤ 512 :=
  ⟨by decide, rfl, ⟨rfl, rfl, rfl⟩, by decide, by decide, by decide⟩

/-- A valid message and an invalid one. -/
theorem witness_InterruptOrderDoesNotMatter :
    mailed.cfg.wf = true ∧ mailed.context = .loop ∧ mailField mailed .magic = mailed.cfg.magic ∧
    mailField mailed .status = 1#32 ∧ (mailField mailed .len).toNat ≤ 512 ∧
    ex1.cfg.wf = true ∧ ex1.context = .loop ∧ mailField ex1 .magic ≠ ex1.cfg.magic := by decide

/-- An edge, a valid message and an invalid one. -/
theorem witness_HandlersTouchNoDeviceAndNoCache :
    (∃ t, step { ex1 with inputs := [.edge 1#8] } = .next t) ∧
    (∃ t, step { mailed with inputs := [.notify] } = .next t) ∧ ∃ t, step { ex1 with inputs := [.notify] } = .next t :=
  ⟨⟨_, rfl⟩, ⟨_, rfl⟩, ⟨_, rfl⟩⟩

theorem witness_ConfigurationIsConstant : ∃ t, step ex1 = .next t := ⟨_, rfl⟩

theorem witness_OnlyLoadcfgWritesTheMatrix :
    (nextOf (step (called [0x3000000000000205#64]))).map (fun t => decide (t.matrix ≠ ex1.matrix)) = some true := by
  decide

theorem witness_OnlyPrecomputeWritesTheCache :
    (nextOf (step deriving1)).map (fun t => decide (t.cachedPresets ≠ deriving1.cachedPresets)) = some true := by
  decide

theorem witness_OutputsChangeOnlyInAWrite :
    (nextOf (step { walking with seqState := .write, selectedBus := some 0, busAnswers := [.ok] })).map
      (fun t => decide (t.out ≠ walking.out)) = some true := by decide

theorem witness_IllFormedConfigurationIsRefused :
    { Config.example1 with deviceMap := [] }.mappingOk = false ∧ Config.example1.mappingOk = true ∧
    { Config.example1 with mailboxBase := 3 }.mailboxBase % 4 ≠ 0 := by decide

theorem witness_FirstIterationSuspends : Config.example1.wf = true ∧ cfgBe.wf = true := by decide

theorem witness_ResetSatisfiesTheInvariant : Config.example1.wf = true := by decide

theorem witness_EveryStepKeepsTheInvariant : Inv State.reset ∧ ∃ t, step State.reset = .next t := ⟨inv_reset, ⟨_, rfl⟩⟩

end Sys2Proof.Tests
end

/-! PROOFS of the statements about the state (10_state): which step can write the configuration, the matrix and the
cache, how the walk's position moves, what a write leaves in OUT, which operations and configurations are refused, and
what reset leaves. -/

namespace Sys2Proof.Machine

variable {s t u : State}

/-! ### What a step leaves of the configuration, the matrix and the cache -/

/-- The state an instruction runs at and the state it leaves agree with the step's on the configuration and the cache;
the matrix differs only after a LOADCFG. -/
theorem run_frame {i : Instr} (hn : nextAction s = .run i u) (hx : exec i u = .next t) :
    t.cfg = s.cfg ∧ (t.matrix = s.matrix ∨ ∃ p c x, i = .loadcfg p c x) ∧
      t.arena = s.arena ∧ t.cachedPresets = s.cachedPresets ∧ t.cachedDevices = s.cachedDevices := by
  obtain ⟨hcfg, -, -, -, -, -, -, harena, hpresets, hdevices, hmatrix⟩ := exec_frame hx
  rw [nextAction_run_frame hn] at hcfg harena hpresets hdevices hmatrix
  exact ⟨hcfg, hmatrix, harena, hpresets, hdevices⟩

/-- No step writes the configuration; only a LOADCFG writes M; only a step of a running PRECOMPUTE, on the machine's
own turn, writes the arena and its bounds (10_state R10, R12 to R14, R16, R31). -/
theorem step_frame (h : step s = .next t) :
    t.cfg = s.cfg ∧
    (t.matrix = s.matrix ∨ ∃ p c x u, nextAction s = .run (.loadcfg p c x) u) ∧
    (t.arena = s.arena ∧ t.cachedPresets = s.cachedPresets ∧ t.cachedDevices = s.cachedDevices ∨
      OwnTurn s ∧ s.seqState = .idle ∧ s.precompute ≠ .idle ∧ t = precomputeStep (setInputs s.inputs.tail s)) := by
  obtain ⟨-, ⟨i, u, hn, hx⟩ | ⟨-, -, rfl⟩ | ⟨hown, hseq, hpre, rfl⟩ | ⟨-, hd⟩ | ⟨v, rest, -, rfl⟩ |
    ⟨rest, -, -, -, rfl⟩ | ⟨f, v, rest, -, rfl⟩ | ⟨i, b, rest, -, -, rfl⟩⟩ := step_cases h
  · obtain ⟨hcfg, hmatrix, hcache⟩ := run_frame hn hx
    refine ⟨hcfg, hmatrix.imp_right ?_, .inl hcache⟩
    rintro ⟨p, c, x, rfl⟩
    exact ⟨p, c, x, u, hn⟩
  · rw [seqStep_frame]; exact ⟨rfl, .inl rfl, .inl ⟨rfl, rfl, rfl⟩⟩
  · refine ⟨?_, .inl ?_, .inr ⟨hown, hseq, hpre, rfl⟩⟩ <;> rw [precomputeStep_frame] <;> rfl
  · rw [loopStep_done_frame hd]; exact ⟨rfl, .inl rfl, .inl ⟨rfl, rfl, rfl⟩⟩
  · rw [edgeHandler_frame]; exact ⟨rfl, .inl rfl, .inl ⟨rfl, rfl, rfl⟩⟩
  · rw [takeMessage_frame]; exact ⟨rfl, .inl rfl, .inl ⟨rfl, rfl, rfl⟩⟩
  · exact ⟨rfl, .inl rfl, .inl ⟨rfl, rfl, rfl⟩⟩
  · exact ⟨rfl, .inl rfl, .inl ⟨rfl, rfl, rfl⟩⟩

/-- A LOADCFG is run on the control loop's turn only: no operation of the block is then under way (10_state R18). -/
theorem loopTurn_of_run_loadcfg {p : PresetIndex} {c : Byte} {x : Cfg24} (h : nextAction s = .run (.loadcfg p c x) u) :
    LoopTurn s := by
  obtain ⟨hl, -⟩ | ⟨_, -, -, hi, -⟩ := nextAction_run h
  · exact hl
  · cases hi

/-! ### LOADCFG -/

/-- An in-range LOADCFG writes its cell and answers OK (41_cache R120). -/
theorem exec_loadcfg_of_lt {p : PresetIndex} {c : Byte} {x : Cfg24} (ha : Accepts s) (hp : p.toNat < s.cfg.maxPresets)
    (hc : c.toNat < s.cfg.channels) :
    exec (.loadcfg p c x) s =
      .next (respond .ok 0#24 (writeCell p.toNat c.toNat (cellOfCfg24 x) (accept (.loadcfg p c x) s))) := by
  have hrange : ¬ (s.cfg.maxPresets ≤ p.toNat ∨ s.cfg.channels ≤ c.toNat) := by omega
  rw [exec, execLoadcfg, operation_of_accepts ha]
  exact congrArg _ (if_neg hrange)

/-! ### The cache under a step of a PRECOMPUTE -/

/-- With empty bounds the cache holds the payloads of every matrix content (10_state R15 a). -/
theorem cacheOf_of_empty {m : Store Cell} (h : s.cachedPresets = 0) : CacheOf m s := by
  intro p d hp
  omega

/-- The derivation leaves the payloads of the matrix as it stands (41_cache R125). -/
theorem cacheOf_rebuildCache {n : Nat} (hwf : storeWf 0#24 s.arena = true) : CacheOf s.matrix (rebuildCache n s) :=
  fun _ _ hp hd => arenaCell_rebuildCache hwf hp hd

/-- A step of a PRECOMPUTE leaves the cache as it was, or empty, or holding the matrix as it stands after the
derivation (41_cache R124, R125, R128). -/
theorem cacheOf_precomputeStep {m : Store Cell} (hwf : storeWf 0#24 s.arena = true) (hm : CacheOf m s) :
    CacheOf m (precomputeStep s) ∨ (∃ n, s.precompute = .derive n) ∧ CacheOf s.matrix (precomputeStep s) := by
  obtain ⟨n, -, -, h⟩ | ⟨n, -, -, h⟩ | ⟨n, hp, h⟩ | ⟨-, h⟩ := precomputeStep_cases s <;> rw [h]
  · exact .inl ((cacheOf_congr (by simp) (by simp) (by simp) (by simp)).mpr hm)
  · exact .inl (cacheOf_of_empty rfl)
  · refine .inr ⟨⟨n, hp⟩, (cacheOf_congr rfl rfl rfl rfl).mpr (cacheOf_rebuildCache (n := n.toNat) hwf)⟩
  · exact .inl hm

/-! ### The walk -/

/-- How a step from `s` to `t` moves the position of a walk: it stays with the device, selects the next one, or ends at
DEVICE_COUNT with status OK (10_state R20). -/
def PositionAdvances (s t : State) : Prop :=
  (t.devIdx = s.devIdx ∧ t.seqState ≠ .idle) ∨
  (t.devIdx = s.devIdx + 1 ∧ t.devIdx < t.cfg.deviceCount ∧ t.seqState = .select) ∨
  (t.devIdx = s.devIdx + 1 ∧ t.devIdx = t.cfg.deviceCount ∧ t.seqState = .idle ∧ t.lastStatus = .ok)

/-- A step that leaves the position alone keeps the device and goes on with it. -/
theorem positionAdvances_of_eq (hs : s.seqState ≠ .idle) (hd : t.devIdx = s.devIdx) (hq : t.seqState = s.seqState) :
    PositionAdvances s t :=
  .inl ⟨hd, hq ▸ hs⟩

/-- Leaving a device selects the next one or ends the walk at DEVICE_COUNT (42_sequencer R159). -/
theorem positionAdvances_nextDevice (hlt : s.devIdx < s.cfg.deviceCount) (hd : u.devIdx = s.devIdx)
    (hc : u.cfg = s.cfg) : PositionAdvances s (nextDevice u) := by
  rw [← hd, ← hc] at hlt
  obtain ⟨hmore, h⟩ | ⟨hlast, h⟩ := nextDevice_cases u <;> rw [h]
  · exact .inr (.inl ⟨congrArg (· + 1) hd, hmore, rfl⟩)
  · exact .inr (.inr ⟨congrArg (· + 1) hd, Nat.le_antisymm hlt hlast, rfl, rfl⟩)

theorem seqStep_select {r : DeviceRow} (hq : s.seqState = .select) (hr : s.cfg.deviceMap[s.devIdx]? = some r) :
    seqStep s = selectStep r s := by
  simp [seqStep, hq, hr]

theorem seqStep_write {r : DeviceRow} (hq : s.seqState = .write) (hr : s.cfg.deviceMap[s.devIdx]? = some r) :
    seqStep s = writeStep r s := by
  simp [seqStep, hq, hr]

theorem positionAdvances_selectStep (r : DeviceRow) (hs : s.seqState ≠ .idle)
    (hlt : s.devIdx < s.cfg.deviceCount) : PositionAdvances s (selectStep r s) := by
  obtain ⟨-, h⟩ | ⟨-, h⟩ | ⟨-, h⟩ := selectStep_cases r s <;> rw [h]
  · exact positionAdvances_of_eq hs (by simp) (by simp)
  · exact .inl ⟨by simp, by simp⟩
  · exact positionAdvances_nextDevice hlt (by simp) (by simp)

theorem positionAdvances_writeStep (r : DeviceRow) (hs : s.seqState ≠ .idle)
    (hlt : s.devIdx < s.cfg.deviceCount) : PositionAdvances s (writeStep r s) := by
  obtain ⟨-, h⟩ | ⟨-, h⟩ | ⟨-, h⟩ := writeStep_cases r s <;> rw [h]
  · exact positionAdvances_of_eq hs (by simp) (by simp)
  · rw [deliver_frame]
    exact positionAdvances_nextDevice hlt (by simp) (by simp)
  · exact positionAdvances_nextDevice hlt (by simp) (by simp)

/-- A step of the sequencer on a device of the mapping advances the position (10_state R20). -/
theorem positionAdvances_seqStep (hs : s.seqState ≠ .idle) (hlt : s.devIdx < s.cfg.deviceCount) :
    PositionAdvances s (seqStep s) := by
  obtain ⟨r, hr⟩ := row_of_lt hlt
  cases hq : s.seqState with
  | idle => exact absurd hq hs
  | select => rw [seqStep_select hq hr]; exact positionAdvances_selectStep r hs hlt
  | write => rw [seqStep_write hq hr]; exact positionAdvances_writeStep r hs hlt

/-- While an APPLY walks, the only instruction a step can run is the PROBE of a notification, which leaves the position
alone (42_sequencer R156, 43_command_channel R183). -/
theorem run_in_walk_position {i : Instr} (hs : s.seqState ≠ .idle) (hn : nextAction s = .run i u)
    (hx : exec i u = .next t) : t.devIdx = s.devIdx ∧ t.seqState = s.seqState := by
  obtain ⟨hl, -⟩ | ⟨rest, -, -, rfl, rfl⟩ := nextAction_run hn
  · exact absurd hl.seqState hs
  · rw [execProbe_frame hx]
    exact ⟨rfl, rfl⟩

@[simp] theorem nextDevice_out (s : State) : (nextDevice s).out = s.out := by
  rw [nextDevice_frame]

theorem writeStep_ok_out {r : DeviceRow} (ha : nextBusAnswer s = .ok) (hb : s.selectedBus = some r.bus) :
    (writeStep r s).out = (setOut s.devIdx (walkPayload s) s).out := by
  simp [writeStep, ha, deliver, hb, walkPayload, arenaCell]

theorem writeStep_fail_out {r : DeviceRow} (ha : nextBusAnswer s = .fail) : (writeStep r s).out = s.out := by
  simp [writeStep, ha]

theorem outCell_congr {d : Nat} (h : t.out = s.out) : outCell t d = outCell s d := by
  simp [outCell, h]

/-! ### Refusals -/

theorem operation_of_interrupt {i : Instr} {run : State → State} (h : s.context = .interrupt) :
    operation i s run = .refused .interruptContext := by
  simp [operation, h]

theorem operation_of_busy {i : Instr} {run : State → State} (hc : s.context = .loop) (hb : s.busy = true) :
    operation i s run = .refused .blockBusy := by
  simp [operation, hc, hb]

/-- The instructions with a command word are the block's six operations, each issued through `operation`
(30_encoding R83). -/
theorem exec_of_command {i : Instr} {cw : CommandWord} (h : encode i = .command cw) (s : State) :
    ∃ run, exec i s = operation i s run := by
  cases i with
  | encode x => exact ⟨_, by rw [exec, execEncode]⟩
  | decode c => exact ⟨_, by rw [exec, execDecode]⟩
  | loadcfg p c x => exact ⟨_, by rw [exec, execLoadcfg]⟩
  | precompute n => exact ⟨_, by rw [exec, execPrecompute]⟩
  | get p d => exact ⟨_, by rw [exec, execGet]⟩
  | apply p => exact ⟨_, by rw [exec, execApply]⟩
  | bulkUpdate => cases h
  | presetSelect => cases h
  | testSequenceStart => cases h
  | probe => cases h

theorem step_of_refuse {r : Refusal} (h : nextAction s = .refuse r) : step s = .refused r := by
  simp [step, h]

/-! ### Reset -/

theorem word32OfBytes_zero : word32OfBytes 0#8 0#8 0#8 0#8 = 0#32 := by decide

/-- Every field of the message reads 0 after reset; for `status` this is EMPTY (10_state R32). -/
theorem mailField_resetWith (cfg : Config) (f : MailField) : mailField (State.resetWith cfg) f = 0#32 :=
  word32OfBytes_zero

theorem storesOk_resetWith (cfg : Config) : StoresOk (State.resetWith cfg) := by
  constructor <;> rfl

theorem blockOk_resetWith (cfg : Config) : BlockOk (State.resetWith cfg) where
  busyAtWork := by simp [State.resetWith]
  oneAtWork := .inl rfl
  countInRange := by simp [State.resetWith]
  presetsBound := Nat.zero_le _
  devicesBound := rfl
  walkPreset := absurd rfl
  walkDevice := absurd rfl
  devIdxBound := Nat.zero_le _

theorem loopOk_resetWith (cfg : Config) : LoopOk (State.resetWith cfg) where
  contextLoop := rfl
  targetFollows := rfl
  bufferLength := Nat.zero_le _
  triggerPulse := rfl
  strobeEcho := rfl
  walkPos := absurd rfl
  precomputePos := absurd rfl

/-! ### The obligations -/

/-- Settles O22: the arena and its bounds change in a step of a PRECOMPUTE only, which keeps them, empties them or
rebuilds them from M; and the only writer of M, LOADCFG, is run on a loop turn, when no PRECOMPUTE runs. -/
theorem cacheIsAllOrNothing : Obligations.CacheIsAllOrNothing := by
  refine ⟨fun s t m hwf hm h => ?_, fun s t hp h => ?_⟩
  · obtain ⟨hcfg, -, ⟨harena, hpresets, hdevices⟩ | ⟨-, -, -, rfl⟩⟩ := step_frame h
    · exact .inl ((cacheOf_congr hcfg harena hpresets hdevices).mpr hm)
    · exact cacheOf_precomputeStep (s := setInputs s.inputs.tail s) hwf ((cacheOf_congr rfl rfl rfl rfl).mpr hm)
  · obtain ⟨-, hmatrix | ⟨p, c, x, u, hn⟩, -⟩ := step_frame h
    · exact hmatrix
    · exact absurd (loopTurn_of_run_loadcfg hn).precompute hp

/-- Settles O14: an in-range LOADCFG is one write of a cell, read back by `matrixCell_writeCell`. -/
theorem loadcfgWritesOneCell : Obligations.LoadcfgWritesOneCell := by
  intro s p c x ha hwf hp hc
  refine ⟨_, exec_loadcfg_of_lt ha hp hc, ?_, fun p' c' hc' hne => ?_⟩
  · exact (matrixCell_writeCell (s := s) hwf hc hc).trans (if_pos ⟨rfl, rfl⟩)
  · exact (matrixCell_writeCell (s := s) hwf hc hc').trans (if_neg hne)

/-- Settles O27, by the two answers `writeRegister` can return. -/
theorem writeSetsTheOutputRegister : Obligations.WriteSetsTheOutputRegister := by
  intro s r ho hr hq hwf
  have hstep : step s = .next (writeStep r (setInputs s.inputs.tail s)) := by
    rw [step_walk ho (by simp [hq])]
    exact congrArg _ (seqStep_write hq hr)
  refine ⟨fun ha hb => ⟨_, hstep, ?_⟩, fun ha => ⟨_, hstep, writeStep_fail_out ha⟩⟩
  have hout : ∀ d, outCell (writeStep r (setInputs s.inputs.tail s)) d =
      if d = s.devIdx then walkPayload s else outCell s d := fun d =>
    (outCell_congr (writeStep_ok_out (s := setInputs s.inputs.tail s) ha hb)).trans (outCell_setOut hwf)
  exact ⟨(hout _).trans (if_pos rfl), fun d hd => (hout d).trans (if_neg hd)⟩

/-- Settles O29: the sequencer's step advances the position, and every other step that a walk allows leaves it alone. -/
theorem sequencerPositionAdvances : Obligations.SequencerPositionAdvances := by
  intro s t hinv hs h
  change PositionAdvances s t
  have hlt := hinv.block.walkDevice hs
  obtain ⟨-, ⟨i, u, hn, hx⟩ | ⟨-, -, rfl⟩ | ⟨-, hidle, -, -⟩ | ⟨hl, -⟩ | ⟨v, rest, -, rfl⟩ |
    ⟨rest, -, -, -, rfl⟩ | ⟨f, v, rest, -, rfl⟩ | ⟨i, b, rest, -, -, rfl⟩⟩ := step_cases h
  · obtain ⟨hd, hq⟩ := run_in_walk_position hs hn hx
    exact positionAdvances_of_eq hs hd hq
  · exact positionAdvances_seqStep (s := setInputs s.inputs.tail s) hs hlt
  · exact absurd hidle hs
  · exact absurd hl.seqState hs
  · rw [edgeHandler_frame]; exact positionAdvances_of_eq hs rfl rfl
  · rw [takeMessage_frame]; exact positionAdvances_of_eq hs rfl rfl
  · exact positionAdvances_of_eq hs rfl rfl
  · exact positionAdvances_of_eq hs rfl rfl

/-- Settles O52, by the frame of a step. -/
theorem configurationIsConstant : Obligations.ConfigurationIsConstant := fun _ _ h => (step_frame h).1

/-- Settles O53, by the frame of a step. -/
theorem onlyLoadcfgWritesTheMatrix : Obligations.OnlyLoadcfgWritesTheMatrix := by
  intro s t h hne
  obtain ⟨-, hmatrix, -⟩ := step_frame h
  exact hmatrix.resolve_left hne

/-- Settles O54, by the frame of a step. -/
theorem onlyPrecomputeWritesTheCache : Obligations.OnlyPrecomputeWritesTheCache := by
  intro s t h hne
  obtain ⟨-, -, ⟨harena, hpresets, hdevices⟩ | ⟨hown, hseq, hpre, -⟩⟩ := step_frame h
  · simp [harena, hpresets, hdevices] at hne
  · exact ⟨hown, hseq, hpre⟩

/-- Settles O30: each of the six operations is issued through `operation`, which refuses. -/
theorem overlappingOperationIsRefused : Obligations.OverlappingOperationIsRefused := by
  rintro s i ⟨cw, hcw⟩
  obtain ⟨run, hexec⟩ := exec_of_command hcw s
  rw [hexec]
  exact ⟨operation_of_interrupt, operation_of_busy⟩

/-- Settles O56: the checks of `nextAction` in their order. -/
theorem illFormedConfigurationIsRefused : Obligations.IllFormedConfigurationIsRefused := by
  refine fun s => ⟨fun hmap => step_of_refuse ?_, fun hmap hbase => step_of_refuse ?_⟩
  · simp [nextAction, hmap]
  · simp [nextAction, hmap, Config.mailboxAligned, hbase]

/-- Settles O57: the reset values are `State.resetWith`'s own but for the mailbox status, read from its four bytes. -/
theorem resetValues : Obligations.ResetValues := by
  intro cfg
  refine ⟨rfl, rfl, rfl, fun _ _ => rfl, rfl, rfl, rfl, rfl, rfl, rfl, rfl, rfl, rfl, rfl, rfl, rfl, rfl, ?_,
    rfl, rfl, rfl, rfl, rfl⟩
  exact mailField_resetWith cfg .status

/-- Settles O59, one part of the invariant at a time. -/
theorem resetSatisfiesTheInvariant : Obligations.ResetSatisfiesTheInvariant := fun cfg hwf =>
  ⟨hwf, storesOk_resetWith cfg, blockOk_resetWith cfg, loopOk_resetWith cfg⟩

end Sys2Proof.Machine

/-! PROOFS of the statements about the memory (20_memory): every step keeps the invariant, one kind of step at a time,
and what a host store leaves in the mailbox region. -/

namespace Sys2Proof.Machine

variable {s t u : State}

/-! ### The invariant under the updates -/

/-- The stores' part after a change of the mailbox region alone. -/
theorem storesOk_of_mailboxOk (h : StoresOk s) (hm : MailboxOk t) (hcfg : t.cfg = s.cfg) (hmatrix : t.matrix = s.matrix)
    (harena : t.arena = s.arena) (hout : t.out = s.out) (hpb : t.pb = s.pb) : StoresOk t := by
  simp only [MailboxOk, hcfg] at hm
  obtain ⟨_, _⟩ := hm
  obtain ⟨_, _, _, _, _, _, -, -, _, _⟩ := h
  constructor <;> simpa only [hcfg, hmatrix, harena, hout, hpb]

/-- The loop's part depends on these fields only. -/
theorem loopOk_congr (h : LoopOk s) (hcfg : t.cfg = s.cfg) (hcontext : t.context = s.context)
    (htarget : t.scanTarget = s.scanTarget) (hactive : t.testSequenceActive = s.testSequenceActive) (hpb : t.pb = s.pb)
    (htrigger : t.trigger = s.trigger) (hstrobe : t.strobe = s.strobe) (hpos : t.loopPos = s.loopPos)
    (hseq : t.seqState = s.seqState) (hpre : t.precompute = s.precompute) : LoopOk t := by
  obtain ⟨_, _, _, _, _, _, _⟩ := h
  constructor <;> simpa only [hcfg, hcontext, htarget, hactive, hpb, htrigger, hstrobe, hpos, hseq, hpre]

/-- With the block idle, the loop moves between positions that drive the same levels. -/
theorem loopOk_goto {p : LoopPos} (h : LoopOk s) (hseq : s.seqState = .idle) (hpre : s.precompute = .idle)
    (htrigger : triggerHighAt p = triggerHighAt s.loopPos) (hstrobe : strobeHighAt p = strobeHighAt s.loopPos) :
    LoopOk (goto p s) where
  contextLoop := h.contextLoop
  targetFollows := h.targetFollows
  bufferLength := h.bufferLength
  triggerPulse := h.triggerPulse.trans htrigger.symm
  strobeEcho := h.strobeEcho.trans hstrobe.symm
  walkPos := absurd hseq
  precomputePos := absurd hpre

theorem setInputs_loopOk (l : List Input) (h : LoopOk s) : LoopOk (setInputs l s) :=
  loopOk_congr h rfl rfl rfl rfl rfl rfl rfl rfl rfl rfl

theorem inv_setInputs (l : List Input) (h : Inv s) : Inv (setInputs l s) where
  cfgWf := h.cfgWf
  stores := storesOk_congr h.stores rfl rfl rfl rfl rfl rfl
  block := blockOk_congr h.block rfl rfl rfl rfl rfl rfl rfl rfl
  loop := setInputs_loopOk l h.loop

/-! ### The invariant under a step of the block -/

/-- A step of the walk keeps the loop where an APPLY left it. -/
theorem seqStep_loopOk (h : LoopOk s) (hq : s.seqState ≠ .idle) : LoopOk (seqStep s) := by
  rw [seqStep_frame]
  exact ⟨h.contextLoop, h.targetFollows, h.bufferLength, h.triggerPulse, h.strobeEcho, fun _ => h.walkPos hq,
    h.precomputePos⟩

/-- A step of a PRECOMPUTE keeps the loop where the PRECOMPUTE left it. -/
theorem precomputeStep_loopOk (h : LoopOk s) (hp : s.precompute ≠ .idle) : LoopOk (precomputeStep s) := by
  rw [precomputeStep_frame]
  exact ⟨h.contextLoop, h.targetFollows, h.bufferLength, h.triggerPulse, h.strobeEcho, h.walkPos,
    fun _ => h.precomputePos hp⟩

theorem inv_seqStep (h : Inv s) (hq : s.seqState ≠ .idle) : Inv (seqStep s) where
  cfgWf := by rw [seqStep_frame]; exact h.cfgWf
  stores := seqStep_storesOk h.stores h.block.walkDevice
  block := seqStep_blockOk h.block hq
  loop := seqStep_loopOk h.loop hq

theorem inv_precomputeStep (h : Inv s) (hp : s.precompute ≠ .idle) : Inv (precomputeStep s) where
  cfgWf := by rw [precomputeStep_frame]; exact h.cfgWf
  stores := precomputeStep_storesOk h.stores h.block
  block := precomputeStep_blockOk h.block hp
  loop := precomputeStep_loopOk h.loop hp

/-! ### The invariant under a step of the loop -/

/-- An idle block is not busy (10_state R18). -/
theorem BlockOk.not_busy (h : BlockOk s) (hseq : s.seqState = .idle) (hpre : s.precompute = .idle) :
    s.busy = false := by
  have := h.busyAtWork
  simpa [hseq, hpre] using this

/-- A step of the loop that runs no instruction leaves an idle block idle: the rejection of a reserved word clears
`busy`, the other lines do not touch it. -/
theorem loopStep_done_busy (h : loopStep s = .done t) (hb : s.busy = false) : t.busy = false := by
  unfold loopStep at h
  split at h
  case h_1 =>
    unfold topStep commandStep at h
    split at h
    · split at h <;> cases h
      rfl
    · cases h; exact hb
  case h_15 => cases h; simpa using hb
  case h_17 => unfold dispatchStep at h; split at h <;> cases h; exact hb
  case h_18 => unfold bulkStep at h; split_ifs at h; cases h; exact hb
  all_goals cases h
  all_goals exact hb

theorem inv_loopStep_done (h : Inv s) (hseq : s.seqState = .idle) (hpre : s.precompute = .idle)
    (hd : loopStep s = .done t) : Inv t := by
  have hbusy := h.block.not_busy hseq hpre
  have hloop := loopStep_done_loopOk h.cfgWf h.loop hseq hpre hd
  have hbusy' := loopStep_done_busy hd hbusy
  have hf := loopStep_done_frame hd
  refine ⟨?_, ?_, ?_, hloop⟩
  · rw [hf]; exact h.cfgWf
  · rw [hf]; exact storesOk_congr h.stores rfl rfl rfl rfl rfl rfl
  · have hb : t.busy = s.busy := hbusy'.trans hbusy.symm
    rw [hf]
    exact blockOk_congr h.block rfl hb rfl rfl rfl rfl rfl rfl

/-! ### The invariant under an instruction -/

/-- The state the loop runs an instruction at has its lines where they belong; it stands where an APPLY, a PRECOMPUTE
and a BULK_UPDATE may begin, and no line is high there. -/
theorem loopStep_run_loopOk {i : Instr} (h : LoopOk s) (hseq : s.seqState = .idle) (hpre : s.precompute = .idle)
    (hr : loopStep s = .run i u) :
    LoopOk u ∧ (∀ p, i = .apply p → u.loopPos = .top ∨ u.loopPos = .presetClear) ∧
      (∀ n, i = .precompute n → u.loopPos = .top ∨ u.loopPos = .mailClear) ∧
      triggerHighAt u.loopPos = false ∧ strobeHighAt u.loopPos = false := by
  obtain ⟨cw, rest, hp, -, -, rfl⟩ | ⟨hp, rfl, rfl⟩ | ⟨hp, hdec, rfl⟩ | ⟨g, n, hp, -, -, rfl, rfl⟩ |
    ⟨g, n, hp, -, rfl, rfl⟩ := loopStep_run hr
  · have hpos : (setCommands rest s).loopPos = .top := hp
    refine ⟨loopOk_congr h rfl rfl rfl rfl rfl rfl rfl rfl rfl rfl, fun _ _ => .inl hp, fun _ _ => .inl hp, ?_, ?_⟩
    · rw [hpos]; rfl
    · rw [hpos]; rfl
  · exact ⟨loopOk_goto h hseq hpre (by rw [hp]; rfl) (by rw [hp]; rfl), fun _ _ => .inr rfl, nofun, rfl, rfl⟩
  · exact ⟨loopOk_goto h hseq hpre (by rw [hp]; rfl) (by rw [hp]; rfl),
      fun p hi => absurd hi ((decode_mailboxCmd_ne hdec).2 p), fun _ _ => .inr rfl, rfl, rfl⟩
  · exact ⟨loopOk_goto h hseq hpre (by rw [hp]; rfl) (by rw [hp]; rfl), nofun, nofun, rfl, rfl⟩
  · exact ⟨loopOk_goto h hseq hpre (by rw [hp]; rfl) (by rw [hp]; rfl), nofun, fun _ _ => .inr rfl, rfl, rfl⟩

/-- The validation reads of the NOTIFY handler touch the context and the trace only (43_command_channel R181). -/
theorem beginNotify_eq (s : State) :
    beginNotify s = { s with context := .interrupt, trace := .memRead 12 4 :: .memRead 0 4 :: s.trace } := rfl

/-- The PROBE of a notification keeps the loop where it was, or wakes it (43_command_channel R183). -/
theorem probe_loopOk (h : LoopOk s) (hx : exec .probe (beginNotify s) = .next t) : LoopOk t := by
  rw [beginNotify_eq] at hx
  exact exec_loopOk hx h.targetFollows h.bufferLength h.triggerPulse h.strobeEcho (.inr rfl) h.walkPos h.precomputePos
    nofun nofun nofun

/-- An instruction a step runs keeps the lines and the target where they belong: the loop runs it with the block idle,
or it is the PROBE of a notification. -/
theorem run_loopOk {i : Instr} (h : LoopOk s) (hn : nextAction s = .run i u) (hx : exec i u = .next t) : LoopOk t := by
  obtain ⟨hturn, hr⟩ | ⟨rest, -, -, rfl, rfl⟩ := nextAction_run hn
  · have hidle : u.seqState = .idle ∧ u.precompute = .idle := by
      rw [nextAction_run_frame hn]
      exact ⟨hturn.seqState, hturn.precompute⟩
    obtain ⟨hu, hap, hpc, htr, hst⟩ :=
      loopStep_run_loopOk (setInputs_loopOk s.inputs.tail h) hturn.seqState hturn.precompute hr
    exact exec_loopOk hx hu.targetFollows hu.bufferLength hu.triggerPulse hu.strobeEcho (.inl hu.contextLoop) hu.walkPos
      hu.precomputePos hap hpc fun _ => ⟨htr, hst, hidle⟩
  · exact probe_loopOk (setInputs_loopOk rest h) hx

/-- An instruction a step runs keeps the block's bounds. -/
theorem run_blockOk {i : Instr} (hw : s.cfg.wf = true) (h : BlockOk s) (hn : nextAction s = .run i u)
    (hx : exec i u = .next t) : BlockOk t := by
  have hf := nextAction_run_frame hn
  have hu : BlockOk u := by rw [hf]; exact blockOk_congr h rfl rfl rfl rfl rfl rfl rfl rfl
  have hidle : u.seqState = .idle ∧ u.precompute = .idle ∨ i = .probe := by
    obtain ⟨hturn, -⟩ | ⟨_, -, -, hi, -⟩ := nextAction_run hn
    · rw [hf]; exact .inl ⟨hturn.seqState, hturn.precompute⟩
    · exact .inr hi
  have hdevices : 1 ≤ u.cfg.deviceCount := by
    obtain ⟨-, -, -, -, hd, -⟩ := Config.wf_sizes hw
    rw [hf]; exact hd
  exact exec_blockOk hx hu hidle hdevices

theorem run_storesOk {i : Instr} (hw : s.cfg.wf = true) (h : StoresOk s) (hn : nextAction s = .run i u)
    (hx : exec i u = .next t) : StoresOk t := by
  have hf := nextAction_run_frame hn
  refine exec_storesOk ?_ hx ?_ <;> rw [hf]
  · exact hw
  · exact storesOk_congr h rfl rfl rfl rfl rfl rfl

theorem inv_run {i : Instr} (h : Inv s) (hn : nextAction s = .run i u) (hx : exec i u = .next t) : Inv t where
  cfgWf := (run_frame hn hx).1 ▸ h.cfgWf
  stores := run_storesOk h.cfgWf h.stores hn hx
  block := run_blockOk h.cfgWf h.block hn hx
  loop := run_loopOk h.loop hn hx

/-! ### The invariant under an outside event -/

theorem edgeHandler_loopOk {v : Byte} (h : LoopOk s) : LoopOk (edgeHandler v s) := by
  rw [edgeHandler_frame]
  exact ⟨rfl, h.targetFollows, h.bufferLength, by simpa using h.triggerPulse, by simpa using h.strobeEcho,
    fun hq => wakePos_walk (h.walkPos hq), fun hp => wakePos_precompute (h.precomputePos hp)⟩

theorem inv_edgeHandler {v : Byte} (h : Inv s) : Inv (edgeHandler v s) where
  cfgWf := by rw [edgeHandler_frame]; exact h.cfgWf
  stores := by rw [edgeHandler_frame]; exact storesOk_congr h.stores rfl rfl rfl rfl rfl rfl
  block := by rw [edgeHandler_frame]; exact blockOk_congr h.block rfl rfl rfl rfl rfl rfl rfl rfl
  loop := edgeHandler_loopOk h.loop

/-- A message of legal length keeps the region's form, and the buffer's. -/
theorem takeMessage_storesOk (h : StoresOk s) (hlen : (mailField s .len).toNat ≤ mailboxPayloadMax) :
    StoresOk (takeMessage (beginNotify s)) := by
  rw [takeMessage_frame]
  obtain ⟨hmailboxWf, hmailboxWithin⟩ := putMailField_ok (f := .status) (v := 2#32) h.mailboxOk
  obtain ⟨hbufferWf, hbufferWithin⟩ := copyPayload_ok hlen h.bufferWf h.bufferWithin
  exact ⟨h.matrixWf, h.matrixWithin, h.arenaWf, h.arenaWithin, h.outWf, h.outWithin, hmailboxWf, hmailboxWithin,
    hbufferWf, hbufferWithin⟩

theorem takeMessage_loopOk (h : LoopOk s) (hlen : (mailField s .len).toNat ≤ mailboxPayloadMax) :
    LoopOk (takeMessage (beginNotify s)) := by
  rw [takeMessage_frame]
  exact ⟨rfl, h.targetFollows, hlen, by simpa using h.triggerPulse, by simpa using h.strobeEcho,
    fun hq => wakePos_walk (h.walkPos hq), fun hp => wakePos_precompute (h.precomputePos hp)⟩

theorem inv_takeMessage (h : Inv s) (hlen : (mailField s .len).toNat ≤ mailboxPayloadMax) :
    Inv (takeMessage (beginNotify s)) where
  cfgWf := by rw [takeMessage_frame]; exact h.cfgWf
  stores := takeMessage_storesOk h.stores hlen
  block := by rw [takeMessage_frame]; exact blockOk_congr h.block rfl rfl rfl rfl rfl rfl rfl rfl
  loop := takeMessage_loopOk h.loop hlen

theorem inv_putMailField {f : MailField} {v : Word32} (h : Inv s) : Inv (putMailField f v s) where
  cfgWf := h.cfgWf
  stores := storesOk_of_mailboxOk h.stores (putMailField_ok h.stores.mailboxOk) rfl rfl rfl rfl rfl
  block := blockOk_congr h.block rfl rfl rfl rfl rfl rfl rfl rfl
  loop := loopOk_congr h.loop rfl rfl rfl rfl rfl rfl rfl rfl rfl rfl

theorem inv_putMailPayload {i : Nat} {b : Byte} (h : Inv s) (hi : i < mailboxPayloadMax) :
    Inv (putMailPayload i b s) where
  cfgWf := h.cfgWf
  stores := storesOk_of_mailboxOk h.stores (putMailPayload_ok hi h.stores.mailboxOk) rfl rfl rfl rfl rfl
  block := blockOk_congr h.block rfl rfl rfl rfl rfl rfl rfl rfl
  loop := loopOk_congr h.loop rfl rfl rfl rfl rfl rfl rfl rfl rfl rfl

/-! ### Host stores -/

/-- Byte `i` of a 4-byte value in plain arithmetic (30_encoding R78). -/
theorem word32Byte_eq (w : Word32) (i : Nat) : word32Byte w i = BitVec.ofNat 8 (w.toNat / 2 ^ (8 * i)) := by
  rw [← Nat.shiftRight_eq_div_pow]
  rfl

/-- The byte order is its own inverse on the four lanes of a field (20_memory R52). -/
theorem byteLane_byteLane (o : ByteOrder) {i : Nat} (h : i < 4) : byteLane o (byteLane o i) = i := by
  cases o
  · rfl
  · simp only [byteLane]; omega

/-- A stored 4-byte field holds, at lane `i` of its value, byte `i` (20_memory R52). -/
theorem memPutWord_read_lane {o : ByteOrder} {mem : Memory} {a i : Nat} {w : Word32} (hwf : mem.wf = true)
    (hi : i < 4) : (memPutWord o mem a w).read (a + byteLane o i) = word32Byte w i := by
  have hlane : ∀ j, j < 4 → (a + byteLane o i = a + byteLane o j ↔ i = j) := fun j hj =>
    ⟨fun he => byteLane_inj o hi hj (by omega), fun he => by rw [he]⟩
  rw [memPutWord, Memory.read_write (Memory.write_wf (Memory.write_wf (Memory.write_wf hwf))),
    Memory.read_write (Memory.write_wf (Memory.write_wf hwf)), Memory.read_write (Memory.write_wf hwf),
    Memory.read_write hwf]
  simp only [hlane 0, hlane 1, hlane 2, hlane 3, Nat.reduceLT]
  interval_cases i <;> rfl

/-- The 4-byte field at offset `i` holds the byte the byte order puts there (20_memory R52). -/
theorem memPutWord_read_offset {o : ByteOrder} {mem : Memory} {a i : Nat} {w : Word32} (hwf : mem.wf = true)
    (hi : i < 4) :
    (memPutWord o mem a w).read (a + i) = BitVec.ofNat 8 (w.toNat / 2 ^ (8 * byteLane o i)) := by
  rw [← word32Byte_eq, ← memPutWord_read_lane hwf (byteLane_lt o i hi), byteLane_byteLane o hi]

/-! ### The obligations -/

/-- Settles O60: a step is an instruction, a step of the walk, of a PRECOMPUTE or of the loop, or an outside event, and
each keeps the invariant. -/
theorem everyStepKeepsTheInvariant : Obligations.EveryStepKeepsTheInvariant := by
  intro s t h hs
  obtain ⟨-, ⟨i, u, hn, hx⟩ | ⟨-, hq, rfl⟩ | ⟨-, -, hp, rfl⟩ | ⟨hl, hd⟩ | ⟨v, rest, -, rfl⟩ |
    ⟨rest, -, -, hlen, rfl⟩ | ⟨f, v, rest, -, rfl⟩ | ⟨i, b, rest, -, hi, rfl⟩⟩ := step_cases hs
  · exact inv_run h hn hx
  · exact inv_seqStep (inv_setInputs s.inputs.tail h) hq
  · exact inv_precomputeStep (inv_setInputs s.inputs.tail h) hp
  · exact inv_loopStep_done (inv_setInputs s.inputs.tail h) hl.seqState hl.precompute hd
  · exact inv_edgeHandler (inv_setInputs rest h)
  · exact inv_takeMessage (inv_setInputs rest h) hlen
  · exact inv_putMailField (inv_setInputs rest h)
  · exact inv_putMailPayload (inv_setInputs rest h) hi

/-- Settles O39: the host's store is `putMailField`, whose bytes stand in the lanes of the byte order. -/
theorem hostFieldReadsBack : Obligations.HostFieldReadsBack := by
  intro s f v rest hcfg hwf hin
  have hstep : step s = .next (putMailField f v (setInputs rest s)) := step_of_done (nextAction_input hcfg hin)
  have hread (g : MailField) : mailField (putMailField f v (setInputs rest s)) g = if g = f then v else mailField s g :=
    mailField_putMailField (s := setInputs rest s) hwf
  refine ⟨_, hstep, (hread f).trans (if_pos rfl), fun g hg => (hread g).trans (if_neg hg),
    fun i => mailPayload_putMailField (s := setInputs rest s), fun i hi => ?_, rfl⟩
  exact memPutWord_read_offset hwf hi

/-- Settles O40: the host's store inside the payload is one byte write of the region; past it `hostPayloadStep`
faults. -/
theorem hostPayloadStore : Obligations.HostPayloadStore := by
  intro s i b rest hcfg hwf hin
  have hnext : nextAction s = hostPayloadStep i b (setInputs rest s) := nextAction_input hcfg hin
  refine ⟨fun hi => ?_, fun hi => ?_⟩
  · have hstep : step s = .next (putMailPayload i b (setInputs rest s)) :=
      step_of_done (hnext.trans (if_pos hi))
    have haddr : mailboxAddr s.cfg (mailboxHeaderBytes + i) = s.cfg.mailboxBase + 16 + i :=
      (Nat.add_assoc _ _ _).symm
    refine ⟨_, hstep, ?_, fun a ha => ?_, rfl⟩
    · rw [← haddr]; exact Memory.read_write_same hwf
    · exact Memory.read_write_other (haddr ▸ ha)
  · have hfault : nextAction s = .fault .outsideMailbox := hnext.trans (if_neg (Nat.not_lt.mpr hi))
    simp [step, hfault]

end Sys2Proof.Machine

/-! PROOFS of the statements about the encoding (30_encoding): what the decoder of the port accepts, that it and the
encoder agree, how a reserved word is answered, where a step meets an instruction, and the layout of response words,
channel words and payloads. -/

namespace Sys2Proof

variable {cw : CommandWord} {cmd : Word32} {i : Instr}

/-! ### What the decoders accept -/

theorem requireZero_eq_ok {z : Bool} {j : Instr} : requireZero z j = .ok i ↔ z = true ∧ i = j := by
  cases z <;> simp [requireZero, eq_comm]

/-- The words the decoder of the port accepts, one row of 30_encoding R83 each, and what each decodes to. -/
theorem decodeCommand_eq_ok : decodeCommand cw = .ok i ↔ rsvField cw = 0#12 ∧
    (opField cw = 1#4 ∧ (fieldA cw = 0#16 ∧ fieldB cw = 0#8) ∧ i = .encode (cfg24OfBits (fieldC cw)) ∨
    opField cw = 2#4 ∧ (fieldA cw = 0#16 ∧ fieldB cw = 0#8) ∧ i = .decode (fieldC cw) ∨
    opField cw = 3#4 ∧ i = .loadcfg (fieldA cw) (fieldB cw) (cfg24OfBits (fieldC cw)) ∨
    opField cw = 4#4 ∧ (fieldB cw = 0#8 ∧ fieldC cw = 0#24) ∧ i = .precompute (fieldA cw) ∨
    opField cw = 5#4 ∧ fieldC cw = 0#24 ∧ i = .get (fieldA cw) (fieldB cw) ∨
    opField cw = 6#4 ∧ (fieldB cw = 0#8 ∧ fieldC cw = 0#24) ∧ i = .apply (fieldA cw)) := by
  unfold decodeCommand
  generalize opField cw = op
  split_ifs with hr h1 h2 h3 h4 h5 h6
  · simp [hr]
  all_goals rw [not_not] at hr
  · simp [hr, h1, requireZero_eq_ok]
  · simp [hr, h2, requireZero_eq_ok]
  · simp [hr, h3, eq_comm]
  · simp [hr, h4, requireZero_eq_ok]
  · simp [hr, h5, requireZero_eq_ok]
  · simp [hr, h6, requireZero_eq_ok]
  · simp [h1, h2, h3, h4, h5, h6]

/-- The `cmd` values the decoder of a message accepts (30_encoding R80). -/
theorem decodeCmd_eq_ok : decodeCmd cmd = .ok i ↔
    cmd = 2#32 ∧ i = .bulkUpdate ∨ cmd = 3#32 ∧ i = .presetSelect ∨ cmd = 4#32 ∧ i = .testSequenceStart := by
  unfold decodeCmd
  split_ifs with h2 h3 h4
  · simp [h2, eq_comm]
  · simp [h3, eq_comm]
  · simp [h4, eq_comm]
  · simp [h2, h3, h4]

/-! ### The fields in plain arithmetic -/

theorem opField_toNat : (opField cw).toNat = cw.toNat / 2 ^ 60 := by
  rw [opField, BitVec.extractLsb'_toNat, Nat.shiftRight_eq_div_pow]
  exact Nat.mod_eq_of_lt (by omega)

theorem rsvField_toNat : (rsvField cw).toNat = cw.toNat / 2 ^ 48 % 2 ^ 12 := by
  rw [rsvField, BitVec.extractLsb'_toNat, Nat.shiftRight_eq_div_pow]

theorem fieldA_toNat : (fieldA cw).toNat = cw.toNat / 2 ^ 32 % 2 ^ 16 := by
  rw [fieldA, BitVec.extractLsb'_toNat, Nat.shiftRight_eq_div_pow]

theorem fieldB_toNat : (fieldB cw).toNat = cw.toNat / 2 ^ 24 % 2 ^ 8 := by
  rw [fieldB, BitVec.extractLsb'_toNat, Nat.shiftRight_eq_div_pow]

theorem fieldC_toNat : (fieldC cw).toNat = cw.toNat % 2 ^ 24 := by
  rw [fieldC, BitVec.extractLsb'_toNat, Nat.shiftRight_zero]

/-- The decoder of the port rejects exactly the reserved words (30_encoding R86). -/
theorem reservedWord_iff_rejected : Machine.reservedWord cw ↔ ∀ i, decodeCommand cw ≠ .ok i := by
  simp only [Machine.reservedWord, ← opField_toNat, ← rsvField_toNat, ← fieldA_toNat, ← fieldB_toNat, ← fieldC_toNat]
  rw [← not_exists]
  simp only [decodeCommand_eq_ok, exists_and_left, exists_or, exists_eq, and_true, ← BitVec.toNat_inj,
    BitVec.toNat_ofNat, Nat.reducePow, Nat.reduceMod]
  omega

end Sys2Proof

namespace Sys2Proof.Machine

variable {s : State} {cw : CommandWord}

/-! ### Calls at the port -/

/-- A waiting call at the top of an iteration is the step's command word (LOG 4). -/
theorem nextAction_call {rest : List CommandWord} (h : LoopTurn s) (hp : s.loopPos = .top)
    (hc : s.commands = cw :: rest) :
    nextAction s = commandStep cw (setCommands rest (setInputs s.inputs.tail s)) := by
  simp [nextAction_loop h, loopStep, topStep, hp, hc]

theorem commandStep_of_ok {i : Instr} (h : decode (.command cw) = .ok i) : commandStep cw s = .run i s := by
  simp [commandStep, h]

theorem commandStep_of_reserved (h : reservedWord cw) : commandStep cw s = .done (rejectCommand s) := by
  cases hd : decode (.command cw) with
  | ok i => exact absurd hd (reservedWord_iff_rejected.mp h i)
  | error e => simp [commandStep, hd]

/-- The rejection on an idle block writes `last_status` and the response only (30_encoding R86). -/
theorem rejectCommand_eq (hb : s.busy = false) : rejectCommand s = { s with
    lastStatus := .badCommand, response := 0x06000000#32, trace := .response 0x06000000#32 :: s.trace } := by
  have hw : responseWord .badCommand 0#24 = 0x06000000#32 := rfl
  simp [rejectCommand, respond, hw, hb]

theorem dispatchStep_of_ok {i : Instr} (h : decode (.mailboxCmd s.pb.cmd) = .ok i) :
    dispatchStep s = .run i (goto .mailClear s) := by
  simp [dispatchStep, h]

theorem notifyStep_of_invalid (h : messageValid s = false) : notifyStep s = .run .probe (beginNotify s) := by
  simp [notifyStep, h]

/-! ### Words put together from fields -/

/-- A response word in plain arithmetic (30_encoding R85). -/
theorem responseWord_toNat (st : Status) (data : Payload) :
    (responseWord st data).toNat = (statusCode st).toNat * 2 ^ 24 + data.toNat := by
  have hcode : (statusCode st).toNat <<< 24 < 2 ^ 32 := by
    rw [Nat.shiftLeft_eq]
    omega
  rw [responseWord, BitVec.toNat_or, BitVec.toNat_shiftLeft, BitVec.toNat_setWidth_of_le (by omega),
    BitVec.toNat_setWidth_of_le (by omega), Nat.mod_eq_of_lt hcode, ← Nat.shiftLeft_add_eq_or_of_lt data.isLt,
    Nat.shiftLeft_eq]

/-- A payload in plain arithmetic (30_encoding R72). -/
theorem packPayload_toNat (wa wb : ChannelWord) : (packPayload wa wb).toNat = wb.toNat * 2 ^ 12 + wa.toNat := by
  rw [packPayload, BitVec.toNat_append, ← Nat.shiftLeft_add_eq_or_of_lt wa.isLt, Nat.shiftLeft_eq]

theorem payloadOf_of_row {cfg : Config} {m : Store Cell} {p d : Nat} {r : DeviceRow}
    (h : cfg.deviceMap[d]? = some r) : payloadOf cfg m p d = rowPayload cfg m p r := by
  simp [payloadOf, h]

/-! ### The obligations -/

/-- Settles O1: the fields of a packed word are the operands it was packed from, so its row of `decodeCommand_eq_ok`
gives the instruction back. -/
theorem decodeEncodeAgree : Obligations.DecodeEncodeAgree := by
  intro i
  cases i with
  | bulkUpdate | presetSelect | testSequenceStart | probe => rfl
  | encode | decode | loadcfg | precompute | get | apply =>
    exact decodeCommand_eq_ok.mpr (by
      simp [opField_packCommand, rsvField_packCommand, fieldA_packCommand, fieldB_packCommand, fieldC_packCommand,
        cfg24OfBits_cfg24ToBits])

/-- Settles O2: a word that decodes has reserved bits 0, so it is its fields packed again, and the fields its
instruction does not carry are 0. -/
theorem encodeDecodeAgree : Obligations.EncodeDecodeAgree := by
  intro e i h
  cases e with
  | command cw =>
    obtain ⟨hrsv, hrow⟩ := decodeCommand_eq_ok.mp h
    rw [← packCommand_fields hrsv]
    obtain ⟨hop, ⟨ha, hb⟩, rfl⟩ | ⟨hop, ⟨ha, hb⟩, rfl⟩ | ⟨hop, rfl⟩ | ⟨hop, ⟨hb, hc⟩, rfl⟩ | ⟨hop, hc, rfl⟩ |
      ⟨hop, ⟨hb, hc⟩, rfl⟩ := hrow
    · rw [hop, ha, hb, encode, cfg24ToBits_cfg24OfBits]
    · rw [hop, ha, hb, encode]
    · rw [hop, encode, cfg24ToBits_cfg24OfBits]
    · rw [hop, hb, hc, encode]
    · rw [hop, hc, encode]
    · rw [hop, hb, hc, encode]
  | mailboxCmd cmd =>
    obtain ⟨rfl, rfl⟩ | ⟨rfl, rfl⟩ | ⟨rfl, rfl⟩ := decodeCmd_eq_ok.mp h <;> rfl
  | invalidMessage => cases h; rfl

/-- Settles O4: the decoder's rejections are the reserved words, and the port answers one with `rejectCommand`. -/
theorem reservedWordAnswersBadCommand : Obligations.ReservedWordAnswersBadCommand := by
  refine ⟨fun cw => reservedWord_iff_rejected, fun s cw rest hown hidle hp hc hres => ?_⟩
  have hturn : LoopTurn s := ⟨hown, hidle.seqState, hidle.precompute⟩
  rw [step_of_done ((nextAction_call hturn hp hc).trans (commandStep_of_reserved hres)),
    rejectCommand_eq (s := setCommands rest (setInputs s.inputs.tail s)) hidle.busy]
  rfl

/-- Settles O5: the code stands above the 24 bits of the data, and a raised status has data 0. -/
theorem responseWordLayout : Obligations.ResponseWordLayout :=
  ⟨⟨rfl, rfl, rfl, rfl, rfl, rfl, rfl⟩, responseWord_toNat, fun st s => by simp [responseWord_toNat]⟩

/-- Settles O8: `packChannel` places the fields, and `rev7` reverses the tuning. -/
theorem encodePlacesEveryBit : Obligations.EncodePlacesEveryBit := by
  intro tuning matching detune
  refine ⟨fun j hj => ?_, fun j hj => ?_, ?_⟩
  · have hnot : ¬ 4 + j < 4 := by omega
    have hmid : 4 + j < 11 := by omega
    rw [encodeChannel, getLsbD_packChannel, if_neg hnot, if_pos hmid, Nat.add_sub_cancel_left,
      getLsbD_rev7 (by omega)]
    simp [show 6 - j < 7 by omega]
  · have hlow : j < 4 := by omega
    simp [encodeChannel, getLsbD_packChannel, hlow]
  · rw [encodeChannel, getLsbD_packChannel]
    simp

/-- Settles O18: a payload is its slots' channel words one above the other, whichever slots are mapped. -/
theorem payloadHasTheTwoSlots : Obligations.PayloadHasTheTwoSlots := by
  intro cfg m p d r hrow
  rw [payloadOf_of_row hrow, rowPayload, packPayload_toNat]
  cases r.slotA <;> cases r.slotB <;> rfl

/-- Settles O3: each word is the encoding of its operation. -/
theorem wordsOfTheVectorsDecode : Obligations.WordsOfTheVectorsDecode :=
  ⟨decodeEncodeAgree (.encode ⟨200#8, 18#8, 3#8⟩), decodeEncodeAgree (.decode 0xABC#24),
    decodeEncodeAgree (.loadcfg 1#16 1#8 ⟨10#8, 3#8, 1#8⟩), decodeEncodeAgree (.precompute 5#16),
    decodeEncodeAgree (.get 1#16 2#8), decodeEncodeAgree (.apply 2#16), decodeEncodeAgree .bulkUpdate,
    decodeEncodeAgree .presetSelect, decodeEncodeAgree .testSequenceStart⟩

/-- Settles O6: the action of each of the four places is the instruction, at the state the place leaves. -/
theorem stepRunsTheDecodedInstruction : Obligations.StepRunsTheDecodedInstruction := by
  refine ⟨fun s cw rest i hturn hp hc hd => ?_, fun s i hturn hp hd => ?_, fun s hturn hp => ?_,
    fun s rest hwf hin hinvalid => ?_⟩
  · exact step_of_run ((nextAction_call hturn hp hc).trans (commandStep_of_ok hd))
  · have hloop : loopStep (setInputs s.inputs.tail s) = dispatchStep (setInputs s.inputs.tail s) := by
      simp [loopStep, hp]
    exact step_of_run ((nextAction_loop hturn).trans (hloop.trans (dispatchStep_of_ok hd)))
  · have hloop : loopStep (setInputs s.inputs.tail s) =
        .run (.apply (BitVec.setWidth 16 s.pendingPreset)) (goto .presetClear (setInputs s.inputs.tail s)) := by
      simp [loopStep, hp]
    exact step_of_run ((nextAction_loop hturn).trans hloop)
  · have hv : messageValid (setInputs rest s) = false := by
      rw [messageValid_setInputs, Bool.eq_false_iff]
      exact mt messageValid_iff.mp hinvalid
    exact step_of_run ((nextAction_input hwf hin).trans (notifyStep_of_invalid hv))

end Sys2Proof.Machine
/-! PROOFS of the statements about the codec (40_codec): the fields of a channel word and the word of its fields, the
masks on raw bytes, and what ENCODE and DECODE answer. -/

namespace Sys2Proof.Machine

variable {s : State} {u : BitVec 7} {m : BitVec 4} {d : Bool} {x : Cell}

/-! ### The bit reversal -/

/-- 6 - (6 - i) = i (40_codec R100). -/
theorem rev7_rev7 : rev7 (rev7 u) = u := by
  apply BitVec.eq_of_getLsbD_eq
  intro i hi
  rw [getLsbD_rev7 hi, getLsbD_rev7 (by omega), Nat.sub_sub_self (by omega)]

/-! ### The fields of a channel word -/

theorem extractLsb'_matching_packChannel : (packChannel u m d).extractLsb' 0 4 = m :=
  BitVec.extractLsb'_append_eq_right

theorem extractLsb'_tuning_packChannel : (packChannel u m d).extractLsb' 4 7 = rev7 u := by
  rw [packChannel, BitVec.extractLsb'_append_eq_of_le (Nat.le_refl 4)]
  exact BitVec.extractLsb'_append_eq_right

theorem getLsbD_detune_packChannel : (packChannel u m d).getLsbD 11 = d := by
  rw [getLsbD_packChannel]
  simp

/-- A channel word is its own three fields packed again (30_encoding R70). -/
theorem packChannel_fields (w : ChannelWord) :
    packChannel (rev7 (w.extractLsb' 4 7)) (w.extractLsb' 0 4) (w.getLsbD 11) = w := by
  have hdetune : BitVec.ofBool (w.getLsbD 11) = w.extractLsb' 11 1 := by
    apply BitVec.eq_of_getLsbD_eq
    intro i hi
    simp [show i = 0 by omega]
  rw [packChannel, rev7_rev7, hdetune,
    BitVec.extractLsb'_append_extractLsb'_eq_extractLsb' (show 11 = 4 + 7 from rfl),
    BitVec.extractLsb'_append_extractLsb'_eq_extractLsb' (show 4 = 0 + 4 from rfl)]
  exact BitVec.extractLsb'_eq_self

/-- `decode` reverses the tuning a second time (40_codec R104). -/
theorem decodeChannel_packChannel : decodeChannel (packChannel u m d) =
    { tuning := BitVec.setWidth 8 u, matching := BitVec.setWidth 8 m, detune := d } := by
  rw [decodeChannel, extractLsb'_tuning_packChannel, extractLsb'_matching_packChannel, getLsbD_detune_packChannel,
    rev7_rev7]

/-- Zero-extending the decoded fields loses nothing, so `encode` packs them again (40_codec R108). -/
theorem encodeCell_decodeChannel (w : ChannelWord) : encodeCell (decodeChannel w) = w := by
  rw [encodeCell, encodeChannel, decodeChannel, BitVec.extractLsb'_setWidth_of_le (by decide),
    BitVec.extractLsb'_setWidth_of_le (by decide), BitVec.extractLsb'_eq_self, BitVec.extractLsb'_eq_self]
  exact packChannel_fields w

theorem decodeChannel_inRange (w : ChannelWord) :
    (decodeChannel w).tuning.toNat ≤ 127 ∧ (decodeChannel w).matching.toNat ≤ 15 := by
  simp only [decodeChannel, BitVec.toNat_setWidth_of_le (show 7 ≤ 8 by decide),
    BitVec.toNat_setWidth_of_le (show 4 ≤ 8 by decide)]
  omega

/-! ### The masks -/

/-- The low `k` bits of a byte, zero-extended, are the byte under the mask of `k` ones (40_codec R101). -/
theorem setWidth_extractLsb'_eq_and (b : Byte) {k : Nat} (hk : k ≤ 8) :
    BitVec.setWidth 8 (b.extractLsb' 0 k) = b &&& BitVec.ofNat 8 (2 ^ k - 1) := by
  have hpow : 2 ^ k ≤ 2 ^ 8 := Nat.pow_le_pow_right (by decide) hk
  have hmask : 2 ^ k - 1 < 2 ^ 8 := by omega
  apply BitVec.eq_of_toNat_eq
  rw [BitVec.toNat_setWidth_of_le hk, BitVec.extractLsb'_toNat, BitVec.toNat_and, BitVec.toNat_ofNat,
    Nat.mod_eq_of_lt hmask, Nat.and_two_pow_sub_one_eq_mod, Nat.shiftRight_zero]

/-- A value of `k` bits is kept by the mask of `k` ones. -/
theorem and_mask_of_le {b : Byte} {k : Nat} (hb : b.toNat ≤ 2 ^ k - 1) (hk : k ≤ 8) :
    b &&& BitVec.ofNat 8 (2 ^ k - 1) = b := by
  rw [← setWidth_extractLsb'_eq_and b hk]
  apply BitVec.eq_of_toNat_eq
  rw [BitVec.toNat_setWidth_of_le hk, BitVec.extractLsb'_toNat, Nat.shiftRight_zero]
  exact Nat.mod_eq_of_lt (Nat.lt_of_le_pred (Nat.two_pow_pos k) hb)

theorem decodeChannel_encodeCell (x : Cell) : decodeChannel (encodeCell x) =
    { tuning := x.tuning &&& 0x7F#8, matching := x.matching &&& 0x0F#8, detune := x.detune } := by
  rw [encodeCell, encodeChannel, decodeChannel_packChannel, setWidth_extractLsb'_eq_and _ (by decide),
    setWidth_extractLsb'_eq_and _ (by decide)]
  rfl

/-- The round trip of an in-range configuration (40_codec R106). -/
theorem decodeChannel_encodeCell_of_inRange (ht : x.tuning.toNat ≤ 127) (hm : x.matching.toNat ≤ 15) :
    decodeChannel (encodeCell x) = x := by
  have htuning : x.tuning &&& 0x7F#8 = x.tuning := and_mask_of_le (k := 7) ht (by decide)
  have hmatching : x.matching &&& 0x0F#8 = x.matching := and_mask_of_le (k := 4) hm (by decide)
  rw [decodeChannel_encodeCell, htuning, hmatching]

/-! ### The answers of the two operations -/

/-- `cfg24` in plain arithmetic: its three bytes are disjoint (30_encoding R75). -/
theorem cfg24ToBits_toNat (y : Cfg24) :
    (cfg24ToBits y).toNat = y.detuneFlag.toNat * 2 ^ 16 + y.matching.toNat * 2 ^ 8 + y.tuning.toNat := by
  have happend : cfg24ToBits y = y.detuneFlag ++ y.matching ++ y.tuning := by
    apply BitVec.eq_of_getLsbD_eq
    intro i hi
    simp only [getLsbD_cfg24ToBits, BitVec.getLsbD_append]
    interval_cases i <;> simp
  rw [happend, BitVec.toNat_append, BitVec.toNat_append, ← Nat.shiftLeft_add_eq_or_of_lt y.tuning.isLt,
    ← Nat.shiftLeft_add_eq_or_of_lt y.matching.isLt, Nat.shiftLeft_eq, Nat.shiftLeft_eq]
  omega

/-- A decoded configuration as DECODE answers it (40_codec R105). -/
theorem cellToCfg24_toNat (x : Cell) :
    (cellToCfg24 x).toNat = x.detune.toNat * 2 ^ 16 + x.matching.toNat * 2 ^ 8 + x.tuning.toNat := by
  rw [cellToCfg24, cfg24ToBits_toNat, BitVec.toNat_setWidth_of_le (by decide), BitVec.toNat_ofBool]

/-- An operation that only answers writes `last_status` and the response, and leaves the block idle. -/
theorem operation_respond_of_accepts {i : Instr} (h : Accepts s) (st : Status) (data : Payload) :
    operation i s (respond st data) = .next { s with
      lastStatus := st
      response := responseWord st data
      trace := .response (responseWord st data) :: .accept i :: s.trace } := by
  rw [operation_of_accepts h]
  simp [respond, accept, h.busy]

/-! ### The obligations -/

/-- Settles O9: unpacking gives the low bits of the raw bytes back, which are the bytes under the masks. -/
theorem decodeChannelOfEncode : Obligations.DecodeChannelOfEncode := decodeChannel_encodeCell

/-- Settles O10: `decode` is a left inverse of `encode` on the in-range configurations and a right inverse on all
words, and its values are in range. -/
theorem encodeChannelIsBijective : Obligations.EncodeChannelIsBijective := by
  refine ⟨fun x y hxt hxm hyt hym h => ?_, fun w => ⟨encodeCell_decodeChannel w, decodeChannel_inRange w⟩⟩
  calc x = decodeChannel (encodeCell x) := (decodeChannel_encodeCell_of_inRange hxt hxm).symm
    _ = decodeChannel (encodeCell y) := by rw [h]
    _ = y := decodeChannel_encodeCell_of_inRange hyt hym

/-- Settles O12: the data is the decoded configuration as `cfg24`; C[11:0] is C modulo 2^12. -/
theorem decodeCompletes : Obligations.DecodeCompletes := by
  intro s c h
  have hword : BitVec.ofNat 12 c.toNat = c.extractLsb' 0 12 := rfl
  rw [hword]
  exact ⟨_, cellToCfg24_toNat _, operation_respond_of_accepts h .ok _⟩

/-- Settles O7, by `getLsbD_rev7`. -/
theorem rev7ReversesTheBits : Obligations.Rev7ReversesTheBits :=
  ⟨fun _ _ hi => getLsbD_rev7 (Nat.lt_succ_of_le hi), fun _ => rev7_rev7⟩

/-- Settles O11: ENCODE is an operation that only answers. -/
theorem encodeCompletes : Obligations.EncodeCompletes := fun _ _ h => operation_respond_of_accepts h .ok _

end Sys2Proof.Machine

/-! PROOFS of the statements about the cache (41_cache): what LOADCFG, PRECOMPUTE and GET answer, the steps of a
PRECOMPUTE with and without storage, which steps can leave ResourceError, and what a payload depends on. -/

namespace Sys2Proof.Machine

variable {s t u : State} {st : Status} {data : Payload} {p : Nat}

/-! ### An operation that answers at once -/

theorem BlockIdle.accepts (hb : BlockIdle s) (hu : Undisturbed s) : Accepts s := ⟨hb.busy, hu.context⟩

/-- Acceptance and response on an idle block write `last_status` and the response only (10_state R18, R19). -/
theorem respond_accept {i : Instr} (hb : s.busy = false) : respond st data (accept i s) = { s with
    lastStatus := st
    response := responseWord st data
    trace := .response (responseWord st data) :: .accept i :: s.trace } := by
  simp [respond, accept, hb]

/-- An operation whose run only answers at the accepted state; which answer may depend on the state. -/
theorem operation_of_answer {i : Instr} {run : State → State} (h : Accepts s)
    (hrun : run (accept i s) = respond st data (accept i s)) :
    operation i s run = .next { s with
      lastStatus := st
      response := responseWord st data
      trace := .response (responseWord st data) :: .accept i :: s.trace } := by
  rw [operation_of_accepts h, hrun, respond_accept h.busy]

/-! ### The steps of a PRECOMPUTE -/

/-- A legal count is accepted: `busy` stays 1 and the resource check is next (41_cache R123). -/
theorem exec_precompute_of_legal {n : PresetIndex} (h : Accepts s) (h1 : 1 ≤ n.toNat)
    (hn : n.toNat ≤ s.cfg.maxPresets) :
    exec (.precompute n) s = .next (setPrecompute (.resource n) (accept (.precompute n) s)) := by
  have hlegal : ¬ (n.toNat < 1 ∨ s.cfg.maxPresets < n.toNat) := by omega
  rw [exec, execPrecompute, operation_of_accepts h]
  exact congrArg _ (if_neg hlegal)

theorem undisturbed_accepted {i : Instr} {q : PrecomputeStage} (h : Undisturbed s) :
    Undisturbed (setPrecompute q (accept i s)) :=
  ⟨h.cfgWf, h.inputs, h.context⟩

/-- The resource check without storage, as one step (41_cache R124). -/
theorem step_resource_of_noStorage {n : PresetIndex} (hu : Undisturbed s) (hq : s.seqState = .idle)
    (hp : s.precompute = .resource n) (ha : allocOk s = false) : step s = .next { s with
      cachedPresets := 0
      cachedDevices := 0
      busy := false
      precompute := .idle
      lastStatus := .resourceError
      response := responseWord .resourceError 0#24
      allocAnswers := (takeAlloc s).allocAnswers
      draws := (takeAlloc s).draws
      trace := .response (responseWord .resourceError 0#24) :: s.trace } := by
  have hstep : precomputeStep s = respond .resourceError 0#24 (emptyCache (setPrecompute .idle (takeAlloc s))) := by
    simp [precomputeStep, hp, resourceStep, ha]
  rw [step_precompute hu.ownTurn hq (by simp [hp]), hu.setInputs_tail, hstep, takeAlloc_frame]
  rfl

/-! ### Which steps can leave ResourceError -/

theorem allocOk_of_fixedArena (h : s.cfg.fixedArena = true) : allocOk s = true := by
  simp [allocOk, h]

/-- An operation does not answer ResourceError if its run does not. -/
theorem operation_lastStatus_ne {i : Instr} {run : State → State} (h : operation i s run = .next t)
    (hs : s.lastStatus ≠ .resourceError)
    (hrun : ∀ v : State, v.lastStatus ≠ .resourceError → (run v).lastStatus ≠ .resourceError) :
    t.lastStatus ≠ .resourceError := by
  obtain ⟨-, -, rfl⟩ := operation_next.mp h
  exact hrun _ hs

/-- No instruction answers ResourceError: PRECOMPUTE leaves that to its resource check (41_cache R124). -/
theorem exec_lastStatus_ne {i : Instr} (h : exec i s = .next t) (hs : s.lastStatus ≠ .resourceError) :
    t.lastStatus ≠ .resourceError := by
  cases i with
  | encode x => exact operation_lastStatus_ne h hs fun v _ => by simp
  | decode c => exact operation_lastStatus_ne h hs fun v _ => by simp
  | loadcfg p c x =>
    rw [exec, execLoadcfg] at h
    exact operation_lastStatus_ne h hs fun v _ => by split <;> simp
  | precompute n =>
    rw [exec, execPrecompute] at h
    refine operation_lastStatus_ne h hs fun v hv => ?_
    split
    · nofun
    · exact hv
  | get p d =>
    rw [exec, execGet] at h
    exact operation_lastStatus_ne h hs fun v _ => by split <;> simp
  | apply p =>
    rw [exec, execApply] at h
    refine operation_lastStatus_ne h hs fun v hv => ?_
    split
    · nofun
    · split
      · nofun
      · exact hv
  | bulkUpdate => cases h; exact hs
  | presetSelect => rw [execPresetSelect_frame h]; exact hs
  | testSequenceStart => rw [execTestSequenceStart_frame h]; exact hs
  | probe => rw [execProbe_frame h]; exact hs

theorem nextDevice_lastStatus_ne (hs : s.lastStatus ≠ .resourceError) :
    (nextDevice s).lastStatus ≠ .resourceError := by
  obtain ⟨-, h⟩ | ⟨-, h⟩ := nextDevice_cases s <;> rw [h]
  · exact hs
  · nofun

@[simp] theorem deliver_lastStatus (r : DeviceRow) (s : State) : (deliver r s).lastStatus = s.lastStatus := by
  rw [deliver_frame]

theorem selectStep_lastStatus_ne (r : DeviceRow) (hs : s.lastStatus ≠ .resourceError) :
    (selectStep r s).lastStatus ≠ .resourceError := by
  obtain ⟨-, h⟩ | ⟨-, h⟩ | ⟨-, h⟩ := selectStep_cases r s <;> rw [h]
  · simpa using hs
  · simpa using hs
  · exact nextDevice_lastStatus_ne (by simpa using hs)

theorem writeStep_lastStatus_ne (r : DeviceRow) (hs : s.lastStatus ≠ .resourceError) :
    (writeStep r s).lastStatus ≠ .resourceError := by
  obtain ⟨-, h⟩ | ⟨-, h⟩ | ⟨-, h⟩ := writeStep_cases r s <;> rw [h]
  · simpa using hs
  · exact nextDevice_lastStatus_ne (by simpa using hs)
  · exact nextDevice_lastStatus_ne (by simpa using hs)

/-- A walk answers OK or nothing (42_sequencer R152). -/
theorem seqStep_lastStatus_ne (hs : s.lastStatus ≠ .resourceError) : (seqStep s).lastStatus ≠ .resourceError := by
  unfold seqStep
  split
  · exact hs
  · exact selectStep_lastStatus_ne _ hs
  · exact writeStep_lastStatus_ne _ hs
  · nofun
  · nofun

/-- With the fixed arena the resource check finds its storage (41_cache R124). -/
theorem precomputeStep_lastStatus_ne (hfixed : s.cfg.fixedArena = true) (hs : s.lastStatus ≠ .resourceError) :
    (precomputeStep s).lastStatus ≠ .resourceError := by
  obtain ⟨n, -, -, h⟩ | ⟨n, -, ha, -⟩ | ⟨n, -, h⟩ | ⟨-, h⟩ := precomputeStep_cases s
  · rw [h]; simpa using hs
  · rw [allocOk_of_fixedArena hfixed] at ha; cases ha
  · rw [h]; nofun
  · rw [h]; exact hs

/-- The loop's own lines answer BadCommand to a reserved word (30_encoding R86) and leave `last_status` alone
otherwise. -/
theorem loopStep_done_lastStatus (h : loopStep s = .done t) :
    t.lastStatus = s.lastStatus ∨ t.lastStatus = .badCommand := by
  unfold loopStep at h
  split at h
  case h_1 =>
    unfold topStep commandStep at h
    split at h
    · split at h <;> cases h
      exact .inr rfl
    · cases h; exact .inl rfl
  case h_15 => cases h; exact .inl (by simp)
  case h_17 => unfold dispatchStep at h; split at h <;> cases h; exact .inl rfl
  case h_18 => unfold bulkStep at h; split_ifs at h; cases h; exact .inl rfl
  all_goals cases h
  all_goals exact .inl rfl

theorem run_lastStatus_ne {i : Instr} (hn : nextAction s = .run i u) (hx : exec i u = .next t)
    (hs : s.lastStatus ≠ .resourceError) : t.lastStatus ≠ .resourceError := by
  refine exec_lastStatus_ne hx ?_
  rw [nextAction_run_frame hn]
  exact hs

/-- With the fixed arena no step answers ResourceError (41_cache R124). -/
theorem step_lastStatus_ne (hfixed : s.cfg.fixedArena = true) (hs : s.lastStatus ≠ .resourceError)
    (h : step s = .next t) : t.lastStatus ≠ .resourceError := by
  obtain ⟨-, ⟨i, u, hn, hx⟩ | ⟨-, -, rfl⟩ | ⟨-, -, -, rfl⟩ | ⟨-, hd⟩ | ⟨v, rest, -, rfl⟩ |
    ⟨rest, -, -, -, rfl⟩ | ⟨f, v, rest, -, rfl⟩ | ⟨i, b, rest, -, -, rfl⟩⟩ := step_cases h
  · exact run_lastStatus_ne hn hx hs
  · exact seqStep_lastStatus_ne (s := setInputs s.inputs.tail s) hs
  · exact precomputeStep_lastStatus_ne (s := setInputs s.inputs.tail s) hfixed hs
  · obtain hkept | hbad := loopStep_done_lastStatus hd
    · rw [hkept]; exact hs
    · rw [hbad]; nofun
  · rw [edgeHandler_frame]; exact hs
  · rw [takeMessage_frame]; exact hs
  · exact hs
  · exact hs

/-! ### Payloads -/

/-- A slot's word depends on the cell of its channel only, and on none where it is unmapped (41_cache R121). -/
theorem slotWord_congr {cfg cfg' : Config} {m m' : Store Cell} {slot : Option Nat}
    (h : ∀ c, slot = some c → matrixCell cfg m p c = matrixCell cfg' m' p c) :
    slotWord cfg m p slot = slotWord cfg' m' p slot := by
  cases slot with
  | none => rfl
  | some c => exact congrArg encodeCell (h c rfl)

/-- The row at TX_DEVICE_INDEX of a well-formed mapping has slot A = channel 0 and slot B = NONE (10_state R17). -/
theorem Config.tx_row {cfg : Config} (h : cfg.mappingOk = true) :
    ∃ r, cfg.deviceMap[cfg.txDeviceIndex]? = some r ∧ r.slotA = some 0 ∧ r.slotB = none := by
  simp only [Config.mappingOk, Bool.and_eq_true, List.all_eq_true, decide_eq_true_eq] at h
  obtain ⟨⟨hrows, -⟩, htx⟩ := h
  obtain ⟨r, hr, hkind⟩ := Option.map_eq_some_iff.mp htx
  have hslots := hrows r (List.mem_of_getElem? hr)
  simp only [DeviceRow.slotsOk, hkind, Bool.and_eq_true, decide_eq_true_eq] at hslots
  exact ⟨r, hr, hslots⟩

theorem Config.txDeviceIndex_lt {cfg : Config} (h : cfg.mappingOk = true) : cfg.txDeviceIndex < cfg.deviceCount := by
  obtain ⟨r, hr, -⟩ := Config.tx_row h
  obtain ⟨hlt, -⟩ := List.getElem?_eq_some_iff.mp hr
  exact hlt

/-- The TX device's payload is the channel word of channel 0 (41_cache R132). -/
theorem payloadOf_tx {cfg : Config} {m : Store Cell} (h : cfg.mappingOk = true) :
    payloadOf cfg m p cfg.txDeviceIndex = packPayload (encodeCell (matrixCell cfg m p 0)) 0#12 := by
  obtain ⟨r, hr, hA, hB⟩ := Config.tx_row h
  rw [payloadOf_of_row hr, rowPayload, hA, hB]
  rfl

/-! ### The obligations -/

/-- Settles O19: the two rows have the same slots, and a slot's word depends on its cell only. -/
theorem payloadDependsOnMappedCellsOnly : Obligations.PayloadDependsOnMappedCellsOnly := by
  intro cfg cfg' m m' p d r r' hr hr' hA hB hcells
  rw [payloadOf_of_row hr, payloadOf_of_row hr', rowPayload, rowPayload, hA, hB,
    slotWord_congr fun c hc => hcells c (.inl hc), slotWord_congr fun c hc => hcells c (.inr hc)]

/-- Settles O13: in range LOADCFG answers at the state with its one cell written, else at the state as it was. -/
theorem loadcfgCompletes : Obligations.LoadcfgCompletes := by
  refine fun s p c x h => ⟨fun ⟨hp, hc⟩ => ?_, fun hout => ?_⟩
  · rw [exec_loadcfg_of_lt h hp hc]
    exact congrArg _ (respond_accept (s := writeCell p.toNat c.toNat (cellOfCfg24 x) s) h.busy)
  · have hrange : s.cfg.maxPresets ≤ p.toNat ∨ s.cfg.channels ≤ c.toNat := by omega
    rw [exec, execLoadcfg]
    exact operation_of_answer h (if_pos hrange)

/-- Settles O15: the count check is PRECOMPUTE's first, and it answers at once. -/
theorem precomputeValidatesFirst : Obligations.PrecomputeValidatesFirst := by
  intro s n h hbad
  rw [exec, execPrecompute]
  exact operation_of_answer h (if_pos hbad)

/-- Settles O20: GET only answers; an index below its bound excludes the empty cache. -/
theorem getCompletes : Obligations.GetCompletes := by
  refine fun s p d h => ⟨fun ⟨hp, hd⟩ => ?_, fun hout => ?_⟩ <;> rw [exec, execGet]
  · have hin : ¬ (s.cachedPresets = 0 ∨ s.cachedPresets ≤ p.toNat ∨ s.cachedDevices ≤ d.toNat) := by omega
    exact operation_of_answer h (if_neg hin)
  · exact operation_of_answer h (if_pos hout)

/-- Settles O16: the resource check without storage is one step; and with the fixed arena every kind of step leaves
another status. -/
theorem precomputeResourceError : Obligations.PrecomputeResourceError := by
  refine ⟨fun s n hu hb h1 hn ha => ?_, fun s t => step_lastStatus_ne⟩
  refine ⟨_, _, exec_precompute_of_legal (hb.accepts hu) h1 hn,
    runs_one (step_resource_of_noStorage (undisturbed_accepted hu) hb.seqState rfl ha), ?_⟩
  simp [setPrecompute, accept, hb.busy, hb.precompute]

/-- Settles O17: the two later steps are the resource check and the derivation, which fills the new bounds from M. -/
theorem precomputeRebuildsInFull : Obligations.PrecomputeRebuildsInFull := by
  refine ⟨fun s n => exec_precompute_of_legal, fun s n hu hb hwf h1 hn ha => ?_⟩
  have hrun := precompute_runs (n := n) (undisturbed_accepted (i := .precompute n) hu) hb.seqState rfl ha
  rw [deriveStep_eq] at hrun
  refine ⟨_, _, exec_precompute_of_legal (hb.accepts hu) h1 hn, hrun, fun p d hp hd => ?_, ?_⟩
  · exact arenaCell_rebuildCache (s := s) hwf hp hd
  · simp [setPrecompute, accept, hb.busy, hb.precompute]

/-- Settles O21: the PRECOMPUTE leaves the TX row's payload in the cache, and GET answers with it. -/
theorem txPayloadEndToEnd : Obligations.TxPayloadEndToEnd := by
  intro s n hu hb hwf h1 hn ha hcell
  obtain ⟨t, u, ht, hrun, harena, hu'⟩ := precomputeRebuildsInFull.2 s n hu hb hwf h1 hn ha
  obtain ⟨hmap, -, -⟩ := Config.wf_parts hu.cfgWf
  have htx := Config.txDeviceIndex_lt hmap
  obtain ⟨-, -, -, -, -, hdevs, -, -⟩ := Config.wf_sizes hu.cfgWf
  have hindex : (BitVec.ofNat 8 s.cfg.txDeviceIndex).toNat = s.cfg.txDeviceIndex := by
    rw [BitVec.toNat_ofNat]
    exact Nat.mod_eq_of_lt (by omega)
  have hpayload : arenaCell u 0 s.cfg.txDeviceIndex = 0x000502#24 := by
    rw [harena 0 _ h1 htx, payloadOf_tx hmap, hcell]
    decide
  have hbusy : u.busy = false := (congrArg State.busy hu').trans hb.busy
  have hcontext : u.context = .loop := (congrArg State.context hu').trans hu.context
  have hpresets : u.cachedPresets = n.toNat := congrArg State.cachedPresets hu'
  have hdevices : u.cachedDevices = s.cfg.deviceCount := congrArg State.cachedDevices hu'
  have hget := (getCompletes u 0#16 (BitVec.ofNat 8 s.cfg.txDeviceIndex) ⟨hbusy, hcontext⟩).1
    ⟨by rw [hpresets]; exact h1, by rw [hdevices, hindex]; exact htx⟩
  refine ⟨t, u, _, ht, hrun, hget, rfl, ?_⟩
  change responseWord .ok (arenaCell u 0 (BitVec.ofNat 8 s.cfg.txDeviceIndex).toNat) = _
  rw [hindex, hpayload]
  rfl

end Sys2Proof.Machine

/-! PROOFS of the statements about the sequencer (42_sequencer): what APPLY answers at its entry, the walk it begins,
the transitions of the walk's position, and which step can write an output register. -/

namespace Sys2Proof.Machine

variable {s : State} {r : DeviceRow} {p : PresetIndex}

/-! ### The entry of an APPLY -/

/-- An APPLY of a cached index is accepted and stands at the first device of its walk (42_sequencer R151). -/
theorem exec_apply_of_cached (ha : Accepts s) (hp : p.toNat < s.cachedPresets) :
    exec (.apply p) s = .next (startWalk p (accept (.apply p) s)) := by
  have hne : s.cachedPresets ≠ 0 := by omega
  rw [exec, execApply, operation_of_accepts ha]
  exact congrArg _ ((if_neg hne).trans (if_neg (Nat.not_le_of_lt hp)))

theorem undisturbed_startWalk (h : Undisturbed s) : Undisturbed (startWalk p (accept (.apply p) s)) :=
  ⟨h.cfgWf, h.inputs, h.context⟩

@[simp] theorem arenaCell_startWalk (p : PresetIndex) (s : State) : arenaCell (startWalk p s) = arenaCell s := rfl
@[simp] theorem arenaCell_accept (i : Instr) (s : State) : arenaCell (accept i s) = arenaCell s := rfl
@[simp] theorem outCell_startWalk (p : PresetIndex) (s : State) : outCell (startWalk p s) = outCell s := rfl
@[simp] theorem outCell_accept (i : Instr) (s : State) : outCell (accept i s) = outCell s := rfl

/-! ### The bytes of a payload on the bus -/

/-- The three bytes of `b2 b1 b0`, high byte first, read back one by one (30_encoding R74). -/
theorem payloadByte_append (b0 b1 b2 : Byte) :
    payloadByte (b2 ++ b1 ++ b0 : BitVec 24) 0 = b0 ∧ payloadByte (b2 ++ b1 ++ b0 : BitVec 24) 1 = b1 ∧
      payloadByte (b2 ++ b1 ++ b0 : BitVec 24) 2 = b2 :=
  have upper : ∀ k, 8 ≤ k → (b2 ++ b1 ++ b0).extractLsb' k 8 = (b2 ++ b1).extractLsb' (k - 8) 8 := fun _ =>
    BitVec.extractLsb'_append_eq_of_le
  ⟨BitVec.extractLsb'_append_eq_right, (upper 8 (by omega)).trans BitVec.extractLsb'_append_eq_right,
    (upper 16 (by omega)).trans BitVec.extractLsb'_append_eq_left⟩

/-! ### The transitions of the walk -/

theorem step_select (ho : OwnTurn s) (hq : s.seqState = .select) (hr : s.cfg.deviceMap[s.devIdx]? = some r) :
    step s = .next (selectStep r (setInputs s.inputs.tail s)) := by
  rw [step_walk ho (by simp [hq])]
  exact congrArg _ (seqStep_select hq hr)

theorem step_write (ho : OwnTurn s) (hq : s.seqState = .write) (hr : s.cfg.deviceMap[s.devIdx]? = some r) :
    step s = .next (writeStep r (setInputs s.inputs.tail s)) := by
  rw [step_walk ho (by simp [hq])]
  exact congrArg _ (seqStep_write hq hr)

theorem nextDevice_of_more (h : s.devIdx + 1 < s.cfg.deviceCount) :
    nextDevice s = setSeq .select (advanceDevice s) := if_pos h

theorem nextDevice_of_last (h : s.devIdx + 1 = s.cfg.deviceCount) :
    nextDevice s = endWalk (advanceDevice s) := if_neg (Nat.not_lt_of_le h.ge)

theorem selectStep_of_ok (h : nextBusAnswer s = .ok) : selectStep r s =
    setSeq .write (observe (.selectBus r.bus true) (setBus (some r.bus) (takeBusAnswer s))) := by
  simp [selectStep, h]

theorem selectStep_of_fail (h : nextBusAnswer s = .fail) : selectStep r s =
    nextDevice (observe (.selectBus r.bus false) (setBus none (takeBusAnswer s))) := by
  simp [selectStep, h]

/-- A `writeRegister` that answers, ok or fail, leaves its device (42_sequencer R151). -/
theorem writeStep_of_answer (h : nextBusAnswer s ≠ .noAnswer) :
    ∃ u, writeStep r s = nextDevice u ∧ u.devIdx = s.devIdx ∧ u.cfg = s.cfg := by
  obtain ⟨hnone, -⟩ | ⟨-, heq⟩ | ⟨-, heq⟩ := writeStep_cases r s
  · exact absurd hnone h
  · refine ⟨_, heq, ?_, ?_⟩ <;> rw [deliver_frame] <;> simp
  · exact ⟨_, heq, by simp, by simp⟩

/-! ### The output registers -/

/-- `selectBus` writes no output register, whatever it answers (10_state R29). -/
@[simp] theorem selectStep_out (r : DeviceRow) (s : State) : (selectStep r s).out = s.out := by
  obtain ⟨-, h⟩ | ⟨-, h⟩ | ⟨-, h⟩ := selectStep_cases r s <;> rw [h] <;> simp

/-- Outside its WRITE position the sequencer writes no output register (42_sequencer R151). -/
theorem seqStep_out_of_ne_write (hq : s.seqState ≠ .write) : (seqStep s).out = s.out := by
  unfold seqStep
  split
  · rfl
  · exact selectStep_out _ s
  · contradiction
  · rfl
  · rfl

/-! ### The obligations -/

/-- Settles O25: APPLY stands at SELECT of the first device, from which `walk_runs` follows the walk to its end. -/
theorem applyWalkCompletes : Obligations.ApplyWalkCompletes := by
  refine ⟨fun b0 b1 b2 => ?_, fun s p script rest hu hb hwf hp hlen hans => ?_⟩
  · obtain ⟨h0, h1, h2⟩ := payloadByte_append b0 b1 b2
    simp [bytes3, h0, h1, h2]
  · obtain ⟨u, hrun, hout, hend⟩ := walk_runs s.cfg.deviceMap script (startWalk p (accept (.apply p) s))
      (Config.deviceMap_ne_nil hu.cfgWf) rfl hlen (undisturbed_startWalk hu) rfl hans
    obtain ⟨hserved, hothers⟩ := hout hwf
    refine ⟨_, u, exec_apply_of_cached (hb.accepts hu) hp, hrun, fun d a hd => ?_, fun d hd => ?_, ?_⟩
    · simpa using hserved d a hd
    · exact hothers d (.inr hd)
    · rw [hend]
      simp [hb.busy, hb.seqState]

/-- Settles O26, by the answer of the call at each position and whether a device is left. -/
theorem sequencerTransitions : Obligations.SequencerTransitions := by
  intro s r ho hr
  refine ⟨fun hq ha => ⟨_, step_select ho hq hr, ?_⟩, fun hq ha hmore => ⟨_, step_select ho hq hr, ?_⟩,
    fun hq ha hlast => ⟨_, step_select ho hq hr, ?_⟩, fun hq ha hmore => ⟨_, step_write ho hq hr, ?_⟩,
    fun hq ha hlast => ⟨_, step_write ho hq hr, ?_⟩⟩
  · rw [selectStep_of_ok (s := setInputs s.inputs.tail s) ha]
    simp
  · rw [selectStep_of_fail (s := setInputs s.inputs.tail s) ha, nextDevice_of_more (by simpa using hmore)]
    simp
  · rw [selectStep_of_fail (s := setInputs s.inputs.tail s) ha, nextDevice_of_last (by simpa using hlast)]
    simp [endWalk, hlast]
  · obtain ⟨u, hu, hd, hc⟩ := writeStep_of_answer (r := r) (s := setInputs s.inputs.tail s) ha
    rw [hu, nextDevice_of_more (by simpa [hd, hc] using hmore)]
    simp [hd]
  · obtain ⟨u, hu, hd, hc⟩ := writeStep_of_answer (r := r) (s := setInputs s.inputs.tail s) ha
    rw [hu, nextDevice_of_last (by simpa [hd, hc] using hlast)]
    simp [endWalk, hd, hlast]

/-- Settles O55: of the kinds of step only the sequencer's writes an output register, and only in WRITE. -/
theorem outputsChangeOnlyInAWrite : Obligations.OutputsChangeOnlyInAWrite := by
  intro s t h hne
  obtain ⟨-, ⟨i, u, hn, hx⟩ | ⟨ho, -, rfl⟩ | ⟨-, -, -, rfl⟩ | ⟨-, hd⟩ | ⟨v, rest, -, rfl⟩ |
    ⟨rest, -, -, -, rfl⟩ | ⟨f, v, rest, -, rfl⟩ | ⟨i, b, rest, -, -, rfl⟩⟩ := step_cases h
  · obtain ⟨-, hout, -⟩ := exec_frame hx
    rw [nextAction_run_frame hn] at hout
    exact absurd hout hne
  · refine ⟨?_, ho⟩
    by_contra hq
    exact hne (seqStep_out_of_ne_write (s := setInputs s.inputs.tail s) hq)
  · rw [precomputeStep_frame] at hne; exact absurd rfl hne
  · rw [loopStep_done_frame hd] at hne; exact absurd rfl hne
  · rw [edgeHandler_frame] at hne; exact absurd rfl hne
  · rw [takeMessage_frame] at hne; exact absurd rfl hne
  · exact absurd rfl hne
  · exact absurd rfl hne

/-- Settles O23: both checks answer at once, the empty one first. -/
theorem applyEntryErrors : Obligations.ApplyEntryErrors := by
  refine fun s p h => ⟨fun hempty => ?_, fun hne hp => ?_⟩ <;> rw [exec, execApply]
  · exact operation_of_answer h (if_pos hempty)
  · exact operation_of_answer h ((if_neg hne).trans (if_pos hp))

/-- Settles O24: a walk that begins is an accepted APPLY at (SELECT, 0). -/
theorem applyBeginsTheWalk : Obligations.ApplyBeginsTheWalk := fun _ _ ha hp => exec_apply_of_cached ha hp

end Sys2Proof.Machine

/-! PROOFS of the statements about the command channel (43_command_channel): the message the NOTIFY handler takes, the
one it refuses and the one that is lost, the answer of a probe, and the three commands of a dispatch. -/

namespace Sys2Proof.Machine

variable {s t u : State} {b : ProbeBytes} {f : MailField} {rest : List Input}

/-! ### NOTIFY of a valid message -/

/-- A valid message of legal length is taken in one step (43_command_channel R181, R182). -/
theorem step_notify_of_valid (hw : s.cfg.wf = true) (hin : s.inputs = .notify :: rest) (hv : messageValid s = true)
    (hlen : (mailField s .len).toNat ≤ 512) : step s = .next (takeMessage (beginNotify (setInputs rest s))) := by
  have hlen : ¬ mailboxPayloadMax < (mailField s .len).toNat := Nat.not_lt.mpr hlen
  refine step_of_done ((nextAction_input hw hin).trans ?_)
  simp [inputStep, notifyStep, hv, hlen]

/-- A longer one is refused (43_command_channel R189). -/
theorem step_notify_of_overlong (hw : s.cfg.wf = true) (hin : s.inputs = .notify :: rest) (hv : messageValid s = true)
    (hlen : 512 < (mailField s .len).toNat) : step s = .refused .mailboxLengthOver512 := by
  have hlen : mailboxPayloadMax < (mailField s .len).toNat := hlen
  refine step_of_refuse ((nextAction_input hw hin).trans ?_)
  simp [inputStep, notifyStep, hv, hlen]

@[simp] theorem takeMessage_cfg (s : State) : (takeMessage (beginNotify s)).cfg = s.cfg := by
  rw [takeMessage_frame]

@[simp] theorem takeMessage_inputs (s : State) : (takeMessage (beginNotify s)).inputs = s.inputs := by
  rw [takeMessage_frame]

@[simp] theorem takeMessage_seqState (s : State) : (takeMessage (beginNotify s)).seqState = s.seqState := by
  rw [takeMessage_frame]

@[simp] theorem takeMessage_precompute (s : State) : (takeMessage (beginNotify s)).precompute = s.precompute := by
  rw [takeMessage_frame]

@[simp] theorem takeMessage_loopPos (s : State) : (takeMessage (beginNotify s)).loopPos = wakePos s.loopPos := by
  rw [takeMessage_frame]

@[simp] theorem takeMessage_pb (s : State) : (takeMessage (beginNotify s)).pb =
    { cmd := mailField s .cmd, len := mailField s .len, payload := copyPayload (mailField s .len).toNat s } := by
  rw [takeMessage_frame]

@[simp] theorem takeMessage_mailbox (s : State) :
    (takeMessage (beginNotify s)).mailbox = (putMailField .status 2#32 s).mailbox := by
  rw [takeMessage_frame]

/-- In the shared region the handler writes `status` only (43_command_channel R182). -/
theorem mailField_takeMessage (hwf : s.mailbox.wf = true) (f : MailField) :
    mailField (takeMessage (beginNotify s)) f = if f = .status then 2#32 else mailField s f := by
  rw [← mailField_putMailField hwf]
  exact mailField_congr (takeMessage_cfg s) (takeMessage_mailbox s)

theorem mailPayload_takeMessage (s : State) (i : Nat) :
    mailPayload (takeMessage (beginNotify s)) i = mailPayload s i := by
  rw [← mailPayload_putMailField (f := .status) (v := 2#32) (s := s)]
  exact mailPayload_congr (takeMessage_cfg s) (takeMessage_mailbox s)

theorem payloadReads_eq (n : Nat) :
    payloadReads n = ((List.range n).map fun i => .memRead (16 + i) 1).reverse := List.map_reverse

/-! ### What a probe returns to the host -/

/-- An event by which a probe hands its bytes over: a store in the message, or the notification (30_encoding R92). -/
def ProbeReturnEvent (o : Obs) : Prop :=
  o = .notifyPeer ∨ (∃ f v, o = .memWrite (fieldOffset f) 4 v) ∨ ∃ i v, o = .memWrite (mailboxHeaderBytes + i) 1 v

/-- From `s` to `t` the trace grows by such events only. -/
def ProbeReturns (s t : State) : Prop := ∃ sent, (∀ o ∈ sent, ProbeReturnEvent o) ∧ t.trace = sent ++ s.trace

theorem ProbeReturns.refl (s : State) : ProbeReturns s s := ⟨[], by simp, rfl⟩

theorem ProbeReturns.observe {o : Obs} (h : ProbeReturns s t) (ho : ProbeReturnEvent o) :
    ProbeReturns s (observe o t) := by
  obtain ⟨sent, hsent, htrace⟩ := h
  exact ⟨o :: sent, List.forall_mem_cons.mpr ⟨ho, hsent⟩, congrArg (o :: ·) htrace⟩

theorem ProbeReturns.coreWriteByte {i : Nat} {x : Byte} (h : ProbeReturns s t) :
    ProbeReturns s (coreWriteByte i x t) :=
  ProbeReturns.observe (t := putMailPayload i x t) h (.inr (.inr ⟨i, _, rfl⟩))

theorem ProbeReturns.probeStore (h : ProbeReturns s t) : ∀ at? : Option Nat, ProbeReturns s (probeStore at? b t)
  | none => h
  | some _ => h.coreWriteByte.coreWriteByte.coreWriteByte

theorem ProbeReturns.probeField (h : ProbeReturns s t) : ∀ v? : Option Word32, ProbeReturns s (probeField f v? t)
  | none => h
  | some v => ProbeReturns.observe (t := putMailField f v t) h (.inr (.inl ⟨f, v, rfl⟩))

theorem ProbeReturns.probeNotify (h : ProbeReturns s t) : ∀ notify : Bool, ProbeReturns s (probeNotify notify t)
  | false => h
  | true => h.observe (.inl rfl)

/-- The response goes out first, then what the parameter PROBE_RESPONSE adds (43_command_channel R183, LOG 13). -/
theorem probeReturns_returnProbe (b : ProbeBytes) (s : State) :
    ProbeReturns (observe (.probeResponse b.1 b.2.1 b.2.2) s) (returnProbe b s) :=
  ((((ProbeReturns.refl _).probeStore _).probeField _).probeField _).probeNotify _

/-! ### Where a probe writes in the mailbox -/

@[simp] theorem probeNotify_mailbox (notify : Bool) (s : State) : (probeNotify notify s).mailbox = s.mailbox := by
  cases notify <;> rfl

@[simp] theorem probeField_cfg (f : MailField) (v? : Option Word32) (s : State) :
    (probeField f v? s).cfg = s.cfg := by
  cases v? <;> rfl

@[simp] theorem coreWriteByte_cfg (i : Nat) (x : Byte) (s : State) : (coreWriteByte i x s).cfg = s.cfg := rfl

@[simp] theorem probeStore_cfg (at? : Option Nat) (b : ProbeBytes) (s : State) :
    (probeStore at? b s).cfg = s.cfg := by
  cases at? with
  | none => rfl
  | some i => simp [probeStore]

theorem coreWriteByte_read_other {i a : Nat} {x : Byte} (h : a ≠ mailboxAddr s.cfg (16 + i)) :
    (coreWriteByte i x s).mailbox.read a = s.mailbox.read a := by
  rw [coreWriteByte, observe_mailbox, putMailPayload_mailbox]
  exact Memory.read_write_other h

theorem probeStore_read_other {at? : Option Nat} {a : Nat} (h : ∀ i, at? = some i →
      a < mailboxAddr s.cfg (16 + i) ∨ mailboxAddr s.cfg (16 + i) + 3 ≤ a) :
    (probeStore at? b s).mailbox.read a = s.mailbox.read a := by
  cases at? with
  | none => rfl
  | some i =>
    have hout := h i rfl
    have hne (k : Nat) (hk : k < 3) : a ≠ mailboxAddr s.cfg (16 + (i + k)) := by
      simp only [mailboxAddr] at hout ⊢
      omega
    rw [probeStore, coreWriteByte_read_other, coreWriteByte_read_other, coreWriteByte_read_other]
    · exact hne 0 (by omega)
    · exact hne 1 (by omega)
    · exact hne 2 (by omega)

theorem probeField_read_other {v? : Option Word32} {a : Nat} (h : v? ≠ none →
      a < mailboxAddr s.cfg (fieldOffset f) ∨ mailboxAddr s.cfg (fieldOffset f) + 4 ≤ a) :
    (probeField f v? s).mailbox.read a = s.mailbox.read a := by
  cases v? with
  | none => rfl
  | some v => exact memPutWord_read_other (h nofun)

/-- A probe's response leaves every byte of the region that PROBE_RESPONSE names no place for (30_encoding R92). -/
theorem returnProbe_read_other {a : Nat}
    (hbytes : ∀ i, s.cfg.probeReturn.payloadAt = some i →
      a < mailboxAddr s.cfg (16 + i) ∨ mailboxAddr s.cfg (16 + i) + 3 ≤ a)
    (hlen : s.cfg.probeReturn.len ≠ none → a < mailboxAddr s.cfg 8 ∨ mailboxAddr s.cfg 8 + 4 ≤ a)
    (hstatus : s.cfg.probeReturn.status ≠ none → a < mailboxAddr s.cfg 12 ∨ mailboxAddr s.cfg 12 + 4 ≤ a) :
    (returnProbe b s).mailbox.read a = s.mailbox.read a := by
  rw [returnProbe, probeNotify_mailbox, probeField_read_other (by simpa [fieldOffset] using hstatus),
    probeField_read_other (by simpa [fieldOffset] using hlen), probeStore_read_other (by simpa using hbytes),
    observe_mailbox]

/-! ### PROBE -/

theorem probeBytes_of_read {cfg : Config} {answer : Option (BitVec 16)} {v : BitVec 16} (h : answer = some v)
    (draws : Nat) : probeBytes cfg answer draws = probeResponse cfg (Config.muxStatusByte v) := by
  rw [h, probeBytes]

/-- PROBE reads the mux once, then the response goes out, then the rest of it, then the barrier (43_command_channel
R183, LOG 13). -/
theorem execProbe_trace (h : execProbe s = .next t) (hb : probeBytes s.cfg (nextMuxRead s) s.draws = b) :
    ∃ sent, (∀ o ∈ sent, ProbeReturnEvent o) ∧ t.trace = .barrier :: (sent ++ .probeResponse b.1 b.2.1 b.2.2 ::
      .readRegister16 s.cfg.muxAddr s.cfg.muxStatusReg (nextMuxRead s) :: s.trace) := by
  obtain ⟨sent, hsent, htrace⟩ := probeReturns_returnProbe b (readMux s)
  cases h
  refine ⟨sent, hsent, ?_⟩
  rw [returnFromInterrupt_trace, hb, htrace]
  simp [readMux]

theorem execProbe_read_other {a : Nat} (h : execProbe s = .next t)
    (hbytes : ∀ i, s.cfg.probeReturn.payloadAt = some i →
      a < mailboxAddr s.cfg (16 + i) ∨ mailboxAddr s.cfg (16 + i) + 3 ≤ a)
    (hlen : s.cfg.probeReturn.len ≠ none → a < mailboxAddr s.cfg 8 ∨ mailboxAddr s.cfg 8 + 4 ≤ a)
    (hstatus : s.cfg.probeReturn.status ≠ none → a < mailboxAddr s.cfg 12 ∨ mailboxAddr s.cfg 12 + 4 ≤ a) :
    t.mailbox.read a = s.mailbox.read a := by
  have hcfg : (readMux s).cfg = s.cfg := by simp [readMux]
  have hmailbox : (readMux s).mailbox = s.mailbox := by simp [readMux]
  cases h
  rw [returnFromInterrupt_mailbox, ← hmailbox]
  rw [← hcfg] at hbytes hlen hstatus
  exact returnProbe_read_other hbytes hlen hstatus

/-! ### The two branches of a command -/

theorem execPresetSelect_of_byte (h : 1 ≤ s.pb.len.toNat) :
    execPresetSelect s = .next (requestPulse true (requestPreset (s.pb.payload.read 0) s)) := if_pos h

theorem execPresetSelect_of_empty (h : s.pb.len.toNat = 0) : execPresetSelect s = .next s := if_neg (by omega)

theorem startSequence_of_inactive (h : s.testSequenceActive = false) : startSequence s =
    { s with scanCount := 0#8, scanTarget := s.cfg.scanTarget, testSequenceActive := true } :=
  if_neg (by simp [h])

theorem startSequence_of_active (h : s.testSequenceActive = true) : startSequence s = s := if_pos h

/-! ### The loop's steps of item 4 -/

/-- An unrecognised `cmd` leads straight to the clear (43_command_channel R188). -/
theorem dispatchStep_of_unrecognised (h2 : s.pb.cmd ≠ 2#32) (h3 : s.pb.cmd ≠ 3#32) (h4 : s.pb.cmd ≠ 4#32) :
    dispatchStep s = .done (goto .mailClear s) := by
  cases hd : decode (.mailboxCmd s.pb.cmd) with
  | ok i =>
    obtain ⟨h, -⟩ | ⟨h, -⟩ | ⟨h, -⟩ := decodeCmd_eq_ok.mp hd
    · exact absurd h h2
    · exact absurd h h3
    · exact absurd h h4
  | error e => simp [dispatchStep, hd]

/-- The clear takes the flag as it finds it, whatever arrived since the dispatch (44_control_loop R214). -/
theorem step_mailClear (h : LoopTurn s) (hp : s.loopPos = .mailClear) :
    step s = .next (goto .endTest (clearMailPending (setInputs s.inputs.tail s))) :=
  step_loop_done h (by simp [loopStep, hp])

/-- A round of the bulk update is `bulkStep` on PB as it stands (43_command_channel R185). -/
theorem nextAction_bulkGroup {g groups : Nat} (h : LoopTurn s) (hp : s.loopPos = .bulkGroup g groups) :
    nextAction s = bulkStep g groups (setInputs s.inputs.tail s) := by
  simp [nextAction_loop h, loopStep, hp]

/-- After the last group the PRECOMPUTE of ACTIVE_PRESETS is issued (43_command_channel R185). -/
theorem step_bulk_precompute {g groups : Nat} (h : LoopTurn s) (hp : s.loopPos = .bulkGroup g groups)
    (hg : groups ≤ g) : step s = exec (.precompute (BitVec.ofNat 16 s.cfg.activePresets))
      (goto .mailClear (setInputs s.inputs.tail s)) :=
  step_of_run ((nextAction_bulkGroup h hp).trans (if_neg (Nat.not_lt.mpr hg)))

/-! ### A bulk update from its start to its end -/

/-- The groups of a bulk update from the first on (43_command_channel R185). -/
theorem bulk_groups_runs (hu : Undisturbed s) (hb : BlockIdle s) (hmatrix : storeWf zeroCell s.matrix = true) :
    ∃ v ops, runs (groupCount s.pb) (goto (.bulkGroup 0 (groupCount s.pb)) s) v ∧
      (∀ p c, p < s.cfg.maxPresets → c < s.cfg.channels → matrixCell s.cfg v.matrix p c =
        if p * s.cfg.channels + c < groupCount s.pb then cellOfCfg24 (groupOperand s.pb (p * s.cfg.channels + c))
        else matrixCell s.cfg s.matrix p c) ∧
      (∀ o ∈ ops, (∃ i, o = .accept i) ∨ ∃ rw, o = .response rw) ∧
      v = { s with
        matrix := v.matrix
        lastStatus := v.lastStatus
        response := v.response
        loopPos := .bulkGroup (groupCount s.pb) (groupCount s.pb)
        trace := ops ++ s.trace } := by
  have hstart : (goto (.bulkGroup 0 (groupCount s.pb)) s).loopPos =
      .bulkGroup (groupCount s.pb - groupCount s.pb) (groupCount s.pb) := by simp
  obtain ⟨v, ops, hrun, -, hcells, hops, hv⟩ := bulk_runs (cfg := s.cfg) (pb := s.pb) (groupCount s.pb)
    (groupCount s.pb) (goto (.bulkGroup 0 (groupCount s.pb)) s) (Nat.le_refl _) rfl rfl
    ⟨hu.cfgWf, hu.inputs, hu.context⟩ ⟨hb.busy, hb.seqState, hb.precompute⟩ hmatrix hstart
  exact ⟨v, ops, hrun, by simpa using hcells, hops, hv⟩

theorem allocOk_congr (hc : t.cfg = s.cfg) (ha : t.allocAnswers = s.allocAnswers) (hd : t.draws = s.draws) :
    allocOk t = allocOk s := by
  simp only [allocOk, hc, ha, hd]

/-- ACTIVE_PRESETS is a legal count, and its operand holds it (00_scope R5). -/
theorem activePresets_operand {cfg : Config} (h : cfg.wf = true) :
    (BitVec.ofNat 16 cfg.activePresets).toNat = cfg.activePresets ∧ 1 ≤ cfg.activePresets ∧
      cfg.activePresets ≤ cfg.maxPresets := by
  obtain ⟨-, hmax, -, -, -, -, hactive, hle⟩ := Config.wf_sizes h
  refine ⟨?_, hactive, hle⟩
  rw [BitVec.toNat_ofNat]
  exact Nat.mod_eq_of_lt (by omega)

/-- After the last group the three steps of the PRECOMPUTE rebuild the cache from M as the groups left it
(43_command_channel R185, 41_cache R125). -/
theorem bulk_precompute_runs {n : Nat} (hu : Undisturbed s) (hb : BlockIdle s) (hp : s.loopPos = .bulkGroup n n)
    (ha : allocOk s = true) (hwf : storeWf 0#24 s.arena = true) :
    ∃ u, runs 3 s u ∧ CacheOf s.matrix u ∧ u = { s with
      arena := u.arena
      cachedPresets := s.cfg.activePresets
      cachedDevices := s.cfg.deviceCount
      allocAnswers := u.allocAnswers
      draws := u.draws
      lastStatus := .ok
      response := responseWord .ok 0#24
      loopPos := .mailClear
      trace := .response (responseWord .ok 0#24) ::
        .accept (.precompute (BitVec.ofNat 16 s.cfg.activePresets)) :: s.trace } := by
  obtain ⟨hop, hactive, hle⟩ := activePresets_operand hu.cfgWf
  have hstep := step_bulk_precompute (hu.loopTurn hb) hp (Nat.le_refl n)
  rw [hu.setInputs_tail] at hstep
  obtain ⟨t, u, ht, hrun, harena, hend⟩ := precomputeRebuildsInFull.2 (goto .mailClear s)
    (BitVec.ofNat 16 s.cfg.activePresets) ⟨hu.cfgWf, hu.inputs, hu.context⟩ ⟨hb.busy, hb.seqState, hb.precompute⟩
    hwf (by rwa [hop]) (by rwa [hop]) ha
  rw [hop] at harena hend
  refine ⟨u, runs_cons (hstep.trans ht) hrun, ?_, hend⟩
  have hcfg : u.cfg = s.cfg := by rw [hend]; rfl
  have hpresets : u.cachedPresets = s.cfg.activePresets := by rw [hend]
  have hdevices : u.cachedDevices = s.cfg.deviceCount := by rw [hend]; rfl
  intro p d hp hd
  rw [hpresets] at hp
  rw [hdevices] at hd
  rw [hcfg]
  exact harena p d hp hd

/-! ### The obligations -/

/-- Settles O31: the handler is `takeMessage`, whose one store is the acknowledgement and whose copy is
`copyPayload`. -/
theorem notifyTakesTheMessage : Obligations.NotifyTakesTheMessage := by
  intro s rest hcfg hctx hmail hbuf hin hmagic hstatus hlen
  have hfield := mailField_takeMessage (s := setInputs rest s) hmail
  have hpayload := mailPayload_takeMessage (setInputs rest s)
  have hpb := takeMessage_pb (setInputs rest s)
  have hframe := takeMessage_frame (setInputs rest s)
  rw [payloadReads_eq] at hframe
  have hstep := step_notify_of_valid hcfg hin (messageValid_iff.mpr ⟨hmagic, hstatus⟩) hlen
  generalize takeMessage (beginNotify (setInputs rest s)) = t at *
  refine ⟨t, hstep, congrArg MessageBuffer.cmd hpb, congrArg MessageBuffer.len hpb, fun i hi => ?_,
    hfield .status, hfield .magic, hfield .cmd, hfield .len, hpayload, ?_⟩
  · rw [hpb]
    exact (copyPayload_read (s := setInputs rest s) hbuf).trans (if_pos hi)
  · rw [hframe]
    simp [hctx]

/-- Settles O33: the bytes go out after the one read, and what follows them is a `ProbeReturnEvent` each. -/
theorem probeCompletes : Obligations.ProbeCompletes := by
  intro s
  obtain ⟨t, ht⟩ : ∃ t, execProbe s = .next t := ⟨_, rfl⟩
  obtain ⟨sent, hsent, htrace⟩ := execProbe_trace ht rfl
  have hframe := execProbe_frame ht
  rw [htrace] at hframe
  exact ⟨t, _, _, _, sent, ht, fun v hv => probeBytes_of_read hv s.draws, hsent, fun a => execProbe_read_other ht,
    hframe⟩

/-- Settles O36: the run of the groups, then that of the PRECOMPUTE, which starts where the last group ended. -/
theorem bulkUpdateCompletes : Obligations.BulkUpdateCompletes := by
  refine ⟨fun s => rfl, fun s hu hb ha hmatrix harena => ?_⟩
  obtain ⟨v, ops, hgroups, hcells, hops, hv⟩ := bulk_groups_runs hu hb hmatrix
  have hprecompute := bulk_precompute_runs (s := v) (n := groupCount s.pb)
  generalize v.matrix = m at hcells hv hprecompute
  generalize v.lastStatus = st at hv
  generalize v.response = r at hv
  subst hv
  obtain ⟨u, hend, hcache, hu'⟩ := hprecompute ⟨hu.cfgWf, hu.inputs, hu.context⟩
    ⟨hb.busy, hb.seqState, hb.precompute⟩ rfl ((allocOk_congr rfl rfl rfl).trans ha) harena
  have hm : u.matrix = m := by rw [hu']
  refine ⟨_, u, .response (responseWord .ok 0#24) ::
    .accept (.precompute (BitVec.ofNat 16 s.cfg.activePresets)) :: ops, rfl, runs_add hgroups hend, ?_⟩
  rw [hm]
  exact ⟨hcells, hcache, by simpa using hops, hu'⟩

/-- Settles O37, by the three branches of `bulkStep`. -/
theorem bulkUpdateRound : Obligations.BulkUpdateRound := by
  refine fun s g groups h hp => ⟨fun hg hin => ?_, fun hg hout => ?_, step_bulk_precompute h hp⟩
  · exact step_of_run ((nextAction_bulkGroup h hp).trans ((if_pos hg).trans (if_pos hin)))
  · exact step_of_done ((nextAction_bulkGroup h hp).trans ((if_pos hg).trans (if_neg (Nat.not_lt.mpr hout))))

/-- Settles O49: the handler keeps the loop before the clear, which takes the new message's flag with the old one's. -/
theorem messageBeforeTheClearIsLost : Obligations.MessageBeforeTheClearIsLost := by
  intro s rest hcfg hctx hb hp hin hmagic hstatus hlen
  have hfirst := step_notify_of_valid hcfg hin (messageValid_iff.mpr ⟨hmagic, hstatus⟩) hlen
  have hturn : LoopTurn (takeMessage (beginNotify (setInputs (.machine :: rest) s))) :=
    ⟨⟨by simpa using hcfg, .inr ⟨rest, by simp⟩⟩, by simpa using hb.seqState, by simpa using hb.precompute⟩
  have hclear := step_mailClear hturn (by simp [hp, wakePos])
  exact ⟨_, runs_cons hfirst (runs_one hclear), by simp, rfl, rfl⟩

/-- Settles O32: the length check of the NOTIFY handler comes before the copy. -/
theorem overlongMessageIsRefused : Obligations.OverlongMessageIsRefused :=
  fun _ _ hcfg hin hmagic hstatus => step_notify_of_overlong hcfg hin (messageValid_iff.mpr ⟨hmagic, hstatus⟩)

/-- Settles O34, by the two branches of R186. -/
theorem presetSelectCompletes : Obligations.PresetSelectCompletes := by
  refine fun s => ⟨fun h => (execPresetSelect_of_byte h).trans ?_, execPresetSelect_of_empty⟩
  simp [requestPulse, requestPreset]

/-- Settles O35, by the two branches of `startSequence`. -/
theorem testSequenceStartCompletes : Obligations.TestSequenceStartCompletes :=
  fun _ => ⟨fun h => congrArg _ (startSequence_of_inactive h), fun h => congrArg _ (startSequence_of_active h)⟩

/-- Settles O38: the dispatch moves the loop only, and the clear is the next step. -/
theorem unrecognisedCmdDoesNothing : Obligations.UnrecognisedCmdDoesNothing := by
  intro s hu hb hp h2 h3 h4
  have hdispatch : loopStep s = .done (goto .mailClear s) := by
    simp only [loopStep, hp, dispatchStep_of_unrecognised h2 h3 h4]
  have hu' : Undisturbed (goto .mailClear s) := ⟨hu.cfgWf, hu.inputs, hu.context⟩
  have hb' : BlockIdle (goto .mailClear s) := ⟨hb.busy, hb.seqState, hb.precompute⟩
  have hclear := step_mailClear (hu'.loopTurn hb') rfl
  rw [hu'.setInputs_tail] at hclear
  exact runs_cons (hu.step_done hb hdispatch) (runs_one hclear)

end Sys2Proof.Machine

/-! PROOFS of the statements about the control loop (44_control_loop): the pulse of item 2, the scan step of item 3, the
order of the items, the iteration after a PRESET_SELECT, the suspend test, and the edge handler. -/

namespace Sys2Proof.Machine

variable {s t u v : State} {n : Nat}

/-! ### Runs of the loop's own lines -/

/-- A line of the loop that runs no instruction leaves the machine undisturbed and the block idle, so that the run goes
on with the next line. -/
theorem runs_cons_done (hu : Undisturbed s) (hb : BlockIdle s) (hd : loopStep s = .done v)
    (hr : Undisturbed v → BlockIdle v → runs n v t) : runs (n + 1) s t := by
  have hbusy := loopStep_done_busy hd hb.busy
  have hframe := loopStep_done_frame hd
  refine runs_cons (hu.step_done hb hd) (hr ?_ ?_)
  · rw [hframe]; exact ⟨hu.cfgWf, hu.inputs, hu.context⟩
  · exact ⟨hbusy, by rw [hframe]; exact hb.seqState, by rw [hframe]; exact hb.precompute⟩

/-! ### The order of the items -/

/-- What the loop's own turn is: an instruction, or a line that runs none. -/
theorem step_loop_cases (h : LoopTurn s) (hs : step s = .next t) :
    (∃ i u, loopStep (setInputs s.inputs.tail s) = .run i u ∧ exec i u = .next t) ∨
      loopStep (setInputs s.inputs.tail s) = .done t := by
  have hn := nextAction_loop h
  cases hl : loopStep (setInputs s.inputs.tail s) with
  | run i u => exact .inl ⟨i, u, rfl, by rwa [step_of_run (hn.trans hl)] at hs⟩
  | done u => rw [step_of_done (hn.trans hl)] at hs; cases hs; exact .inr rfl
  | fault f => simp [step, hn, hl] at hs
  | refuse r => simp [step, hn, hl] at hs

/-- Only BULK_UPDATE and PROBE move the loop. -/
theorem exec_loopPos {i : Instr} (h : exec i s = .next t) (hbulk : i ≠ .bulkUpdate) (hprobe : i ≠ .probe) :
    t.loopPos = s.loopPos := by
  cases i with
  | encode x => rw [execEncode_frame h]
  | decode c => rw [execDecode_frame h]
  | loadcfg p c x => rw [(execLoadcfg_frame h).2]
  | precompute n => obtain h | ⟨-, -, h⟩ := execPrecompute_frame h <;> rw [h]
  | get p d => rw [execGet_frame h]
  | apply p => obtain h | ⟨-, -, h⟩ := execApply_frame h <;> rw [h]
  | bulkUpdate => exact absurd rfl hbulk
  | presetSelect => rw [execPresetSelect_frame h]
  | testSequenceStart => rw [execTestSequenceStart_frame h]
  | probe => exact absurd rfl hprobe

/-- The items in their order: `q` is in the item of `p` or in the next, or the iteration is over and begins again
(44_control_loop R210, R218). -/
def ItemAdvances (p q : LoopPos) : Prop :=
  itemOf q = itemOf p ∨ itemOf q = itemOf p + 1 ∨ (p = .endTest ∧ q = .top)

theorem itemOf_afterEcho (n : Nat) : itemOf (afterEcho n) = 3 := by
  cases n <;> rfl

/-- A line that runs no instruction: the tests choose between their own item and the next, the last line of an item
leads to the next. -/
theorem loopStep_done_item (h : loopStep s = .done t) : ItemAdvances s.loopPos t.loopPos := by
  cases hp : s.loopPos <;> simp only [loopStep, hp] at h
  case top =>
    unfold topStep at h
    split at h
    · unfold commandStep at h
      split at h <;> cases h
      exact .inl (congrArg itemOf hp)
    · cases h
      cases s.presetChangeRequested
      · exact .inr (.inl rfl)
      · exact .inl rfl
  case pulseTest =>
    cases h
    cases s.pulseRequested
    · exact .inr (.inl rfl)
    · exact .inl rfl
  case scanTest =>
    cases h
    cases s.testSequenceActive
    · exact .inr (.inl rfl)
    · exact .inl (itemOf_afterEcho _)
  case mailTest =>
    cases h
    cases s.mailboxMessagePending
    · exact .inr (.inl rfl)
    · exact .inl rfl
  case dispatch =>
    unfold dispatchStep at h
    split at h <;> cases h
    exact .inl rfl
  case bulkGroup g groups =>
    unfold bulkStep at h
    split_ifs at h
    cases h
    exact .inl rfl
  case endTest =>
    cases h
    cases anyEvent s
    · exact .inr (.inl rfl)
    · exact .inr (.inr ⟨rfl, rfl⟩)
  case echoLowDelay n => cases h; exact .inl (itemOf_afterEcho _)
  case presetClear | pulseClear | scanCount | mailClear => cases h; exact .inr (.inl rfl)
  case pulseHigh | pulseHold | pulseLow | echoHigh | echoHighDelay | echoLow | scanDelay => cases h; exact .inl rfl
  case suspended => cases h; exact .inl (congrArg itemOf hp)
  case presetApply => cases h

/-- A line that runs an instruction stays in its item: the calls of the bring-up code in item 1, the commands of a
message in item 4. -/
theorem loopStep_run_item {i : Instr} (h : loopStep s = .run i u) (hx : exec i u = .next t) :
    itemOf t.loopPos = itemOf s.loopPos := by
  obtain ⟨cw, rest, hp, -, hdec, rfl⟩ | ⟨hp, rfl, rfl⟩ | ⟨hp, hdec, rfl⟩ | ⟨g, groups, hp, -, -, rfl, rfl⟩ |
    ⟨g, groups, hp, -, rfl, rfl⟩ := loopStep_run h
  · obtain ⟨hbulk, hprobe⟩ := decode_command_ne hdec
    rw [exec_loopPos hx hbulk hprobe, setCommands_loopPos]
  · rw [exec_loopPos hx nofun nofun, hp]; rfl
  · obtain ⟨-, rfl⟩ | ⟨-, rfl⟩ | ⟨-, rfl⟩ := decodeCmd_eq_ok.mp hdec
    · cases hx; rw [hp]; rfl
    · rw [exec_loopPos hx nofun nofun, hp]; rfl
    · rw [exec_loopPos hx nofun nofun, hp]; rfl
  · rw [exec_loopPos hx nofun nofun, hp]; rfl
  · rw [exec_loopPos hx nofun nofun, hp]; rfl

/-- Settles O45: a line of the loop advances the item, and an instruction stays in it. -/
theorem itemsFollowTheFixedOrder : Obligations.ItemsFollowTheFixedOrder := by
  intro s t h hs
  obtain ⟨i, u, hrun, hx⟩ | hd := step_loop_cases h hs
  · exact .inl (loopStep_run_item (s := setInputs s.inputs.tail s) hrun hx)
  · exact loopStep_done_item (s := setInputs s.inputs.tail s) hd

/-! ### The pulse and the scan step -/

/-- The two output lines are distinct (00_scope R5). -/
theorem Config.triggerLine_ne_strobeLine {cfg : Config} (h : cfg.wf = true) : cfg.triggerLine ≠ cfg.strobeLine := by
  obtain ⟨-, -, hparams⟩ := Config.wf_parts h
  simp only [Config.parametersOk, Config.linesDistinct, Bool.and_eq_true, decide_eq_true_eq] at hparams
  tauto

/-- Settles O41, by the five lines of item 2; the two writes of the trigger line leave the strobe alone. -/
theorem pulseItemDrivesOnePulse : Obligations.PulseItemDrivesOnePulse := by
  intro s hu hb hp hreq
  have hne := Config.triggerLine_ne_strobeLine hu.cfgWf
  have htest : loopStep s = .done (goto .pulseHigh s) := by simp [loopStep, hp, hreq]
  refine runs_cons_done hu hb htest fun hu hb => ?_
  refine runs_cons_done hu hb rfl fun hu hb => ?_
  refine runs_cons_done hu hb rfl fun hu hb => ?_
  refine runs_cons_done hu hb rfl fun hu hb => ?_
  refine runs_cons_done hu hb rfl fun _ _ => runs_zero.mpr ?_
  simp [goto, lineWrite, observe, clearPulse, hne, pulseTrace]

theorem afterEcho_succ (n : Nat) : afterEcho (n + 1) = .echoHigh (n + 1) := rfl

/-- The test of item 3 and its strobe toggles, also when ECHOES_PER_SCAN is 0 (44_control_loop R213). -/
theorem strobe_runs (hu : Undisturbed s) (hb : BlockIdle s) (hp : s.loopPos = .scanTest)
    (hact : s.testSequenceActive = true) (hs : s.strobe = false) : runs (4 * s.cfg.echoesPerScan + 1) s { s with
      loopPos := .scanDelay
      trace := (strobeTrace s.cfg s.cfg.echoesPerScan).reverse ++ s.trace } := by
  have htest : loopStep s = .done (goto (afterEcho s.cfg.echoesPerScan) s) := by simp [loopStep, hp, hact]
  refine runs_cons_done hu hb htest fun hu hb => ?_
  cases hn : s.cfg.echoesPerScan with
  | zero => exact runs_zero.mpr rfl
  | succ n =>
    rw [hn, afterEcho_succ] at hu hb
    exact echo_runs n _ hb hu rfl hs

/-- The end of item 3 with the two fields it decides, by the test at the target (44_control_loop R213). -/
theorem countScan_eq (h : s.testSequenceActive = true) : countScan s = { s with
    scanCount := s.scanCount + 1#8
    testSequenceActive := decide (s.scanCount + 1#8 < s.scanTarget)
    scanTarget := if s.scanCount + 1#8 < s.scanTarget then s.scanTarget else 0#8 } := by
  by_cases hlt : s.scanCount + 1#8 < s.scanTarget
  · rw [countScan, if_neg (BitVec.not_le.mpr hlt)]
    simp [hlt, h]
  · rw [countScan, if_pos (BitVec.not_lt.mp hlt)]
    simp [hlt]

/-- The inter-scan delay, then the count and its test at the target (44_control_loop R213). -/
theorem scan_end_runs (hu : Undisturbed s) (hb : BlockIdle s) (hp : s.loopPos = .scanDelay)
    (hact : s.testSequenceActive = true) : runs 2 s { s with
      loopPos := .mailTest
      scanCount := s.scanCount + 1#8
      testSequenceActive := decide (s.scanCount + 1#8 < s.scanTarget)
      scanTarget := if s.scanCount + 1#8 < s.scanTarget then s.scanTarget else 0#8
      trace := .delay (.interScan s.cfg.interScanDelayMs) :: s.trace } := by
  have hdelay : loopStep s = .done (goto .scanCount (observe (.delay (.interScan s.cfg.interScanDelayMs)) s)) := by
    simp only [loopStep, hp]
  refine runs_cons_done hu hb hdelay fun hu hb => runs_cons_done hu hb rfl fun _ _ => runs_zero.mpr ?_
  rw [countScan_eq (by exact hact)]
  rfl

/-- Settles O42: the test and the toggles, then the delay and the count. -/
theorem scanItemRunsOneScanStep : Obligations.ScanItemRunsOneScanStep := by
  intro s hu hb hp hact hs
  exact runs_add (m := 4 * s.cfg.echoesPerScan + 1) (n := 2) (strobe_runs hu hb hp hact hs)
    (scan_end_runs ⟨hu.cfgWf, hu.inputs, hu.context⟩ ⟨hb.busy, hb.seqState, hb.precompute⟩ rfl hact)

/-! ### The suspend test -/

theorem anyEvent_eq_false : anyEvent s = false ↔ s.presetChangeRequested = false ∧ s.pulseRequested = false ∧
    s.mailboxMessagePending = false ∧ s.testSequenceActive = false := by
  simp [anyEvent, and_assoc]

/-- The last line of an iteration (44_control_loop R215). -/
theorem loopStep_endTest (hp : s.loopPos = .endTest) :
    loopStep s = .done (goto (if anyEvent s then .top else .suspended) s) := by
  simp only [loopStep, hp]

/-- Settles O43: the suspend test reads the four flags, and a suspended loop's turn does nothing. -/
theorem loopSuspendsWhenNothingIsPending : Obligations.LoopSuspendsWhenNothingIsPending := by
  refine fun s h => ⟨fun hp => ?_, fun hp => step_loop_done h (by simp [loopStep, hp, setInputs])⟩
  have hstep := step_loop_done h (loopStep_endTest (s := setInputs s.inputs.tail s) hp)
  have hflags : anyEvent (setInputs s.inputs.tail s) = false ↔ _ := anyEvent_eq_false
  refine ⟨fun hquiet => ?_, fun hevent => ?_⟩ <;> rw [hstep]
  · rw [hflags.mpr hquiet]; rfl
  · rw [(Bool.not_eq_false _).mp (mt hflags.mp hevent)]; rfl

/-! ### The edge interrupt -/

/-- A remainder of a byte fits in a byte, so nothing of the sample is cut off (44_control_loop R216). -/
theorem sampledValue_toNat (cfg : Config) (v : Byte) :
    (sampledValue cfg v).toNat = v.toNat % 2 ^ cfg.presetInputBits :=
  Nat.mod_eq_of_lt (Nat.lt_of_le_of_lt (Nat.mod_le _ _) v.isLt)

/-- An edge is answered by its handler in one step (44_control_loop R216). -/
theorem step_edge {v : Byte} {rest : List Input} (hwf : s.cfg.wf = true) (hin : s.inputs = .edge v :: rest) :
    step s = .next (edgeHandler v (setInputs rest s)) :=
  step_of_done (nextAction_input hwf hin)

/-- Settles O47: the handler's frame, entered from loop context. -/
theorem edgeRecordsTheRequest : Obligations.EdgeRecordsTheRequest := by
  intro s v rest hwf hctx hin
  refine ⟨sampledValue s.cfg v, sampledValue_toNat s.cfg v, ?_⟩
  rw [step_edge hwf hin, edgeHandler_frame]
  simp [setInputs, hctx]

/-! ### The iteration after a PRESET_SELECT -/

/-- Past item 2 an iteration with nothing pending makes three tests and suspends (44_control_loop R213 to R215). -/
theorem quiet_end_runs (hu : Undisturbed s) (hb : BlockIdle s) (hp : s.loopPos = .scanTest)
    (hquiet : anyEvent s = false) : runs 3 s (goto .suspended s) := by
  obtain ⟨-, -, hmail, hact⟩ := anyEvent_eq_false.mp hquiet
  have hscan : loopStep s = .done (goto .mailTest s) := by simp [loopStep, hp, hact]
  have hnone : loopStep (goto .mailTest s) = .done (goto .endTest s) := by simp [loopStep, hmail, goto]
  have hend : loopStep (goto .endTest s) = .done (goto .suspended s) := by
    have hquiet : anyEvent (goto .endTest s) = false := hquiet
    rw [loopStep_endTest rfl, hquiet]
    rfl
  exact runs_cons_done hu hb hscan fun hu hb => runs_cons_done hu hb hnone fun hu hb =>
    runs_cons_done hu hb hend fun _ _ => rfl

/-- With the APPLY of item 1 returned and a pulse requested: the clear, one pulse, and the suspension
(44_control_loop R211, R212, R215). -/
theorem pulse_and_suspend_runs (hu : Undisturbed s) (hb : BlockIdle s) (hp : s.loopPos = .presetClear)
    (hpulse : s.pulseRequested = true) (hmail : s.mailboxMessagePending = false)
    (hact : s.testSequenceActive = false) : runs 9 s { s with
      loopPos := .suspended
      presetChangeRequested := false
      pulseRequested := false
      trigger := false
      trace := (pulseTrace s.cfg).reverse ++ s.trace } := by
  have hclear : loopStep s = .done (goto .pulseTest (clearPresetChange s)) := by simp only [loopStep, hp]
  refine runs_cons_done hu hb hclear fun hu hb => ?_
  refine runs_add (m := 5) (n := 3) (pulseItemDrivesOnePulse _ hu hb rfl hpulse) ?_
  exact quiet_end_runs ⟨hu.cfgWf, hu.inputs, hu.context⟩ ⟨hb.busy, hb.seqState, hb.precompute⟩ rfl
    (anyEvent_eq_false.mpr ⟨rfl, rfl, hmail, hact⟩)

/-- Item 1 of a requested change issues one APPLY of the pending preset (44_control_loop R211). -/
theorem preset_item_runs (hu : Undisturbed s) (hb : BlockIdle s) (hp : s.loopPos = .top) (hc : s.commands = [])
    (hreq : s.presetChangeRequested = true)
    (hx : exec (.apply (BitVec.setWidth 16 s.pendingPreset)) (goto .presetClear s) = .next t) : runs 2 s t := by
  have htest : loopStep s = .done (goto .presetApply s) := by simp [loopStep, hp, topStep, hc, hreq]
  refine runs_cons_done hu hb htest fun hu hb => runs_one ?_
  have hrun : nextAction (goto .presetApply s) =
      .run (.apply (BitVec.setWidth 16 s.pendingPreset)) (goto .presetClear s) := by
    rw [nextAction_loop (hu.loopTurn hb), hu.setInputs_tail]; rfl
  exact (step_of_run hrun).trans hx

/-- An APPLY of an index that is not cached answers with its entry error at once (42_sequencer R150). -/
theorem exec_apply_of_uncached {p : PresetIndex} {st : Status} (ha : Accepts s) (hp : s.cachedPresets ≤ p.toNat)
    (hst : st = if s.cachedPresets = 0 then .notReady else .indexOutOfRange) : exec (.apply p) s = .next { s with
      lastStatus := st
      response := responseWord st 0#24
      trace := .response (responseWord st 0#24) :: .accept (.apply p) :: s.trace } := by
  obtain ⟨hempty, hrange⟩ := applyEntryErrors s p ha
  by_cases h : s.cachedPresets = 0
  · rw [hst, if_pos h, hempty h]
  · rw [hst, if_neg h, hrange h hp]

/-- Settles O46: item 1 with its APPLY, walked to the end or answered at once, then the rest of the iteration. -/
theorem presetSelectIterationAppliesAndPulsesOnce : Obligations.PresetSelectIterationAppliesAndPulsesOnce := by
  intro s hu hb hp hc hreq hpulse hmail hact
  have hu' : Undisturbed (goto .presetClear s) := ⟨hu.cfgWf, hu.inputs, hu.context⟩
  have ha : Accepts (goto .presetClear s) := ⟨hb.busy, hu.context⟩
  have hpre : (BitVec.setWidth 16 s.pendingPreset).toNat = s.pendingPreset.toNat :=
    BitVec.toNat_setWidth_of_le (by decide)
  refine ⟨fun script rest hcached hlen hans => ?_, fun huncached => ?_⟩
  · have hx := exec_apply_of_cached ha (p := BitVec.setWidth 16 s.pendingPreset) (by rwa [hpre])
    obtain ⟨w, hwalk, -, hw⟩ := walk_runs s.cfg.deviceMap script _ (Config.deviceMap_ne_nil hu.cfgWf) rfl hlen
      (undisturbed_startWalk hu') rfl hans
    have happly := runs_add (preset_item_runs hu hb hp hc hreq hx) hwalk
    have hend := pulse_and_suspend_runs (s := w)
    generalize w.selectedBus = bus at hw
    generalize w.out = out at hw
    subst hw
    have hruns := runs_add happly (hend
      ⟨hu.cfgWf, hu.inputs, hu.context⟩ ⟨rfl, rfl, hb.precompute⟩ rfl hpulse hmail hact)
    rw [show 2 + (answerList script).length + 9 = (answerList script).length + 11 by omega] at hruns
    refine ⟨_, hruns, rfl, rfl, rfl, rfl, ?_⟩
    rw [← hpre]
    rfl
  · have happly := preset_item_runs hu hb hp hc hreq (exec_apply_of_uncached ha (by rwa [hpre]) rfl)
    exact ⟨_, runs_add happly (pulse_and_suspend_runs ⟨hu.cfgWf, hu.inputs, hu.context⟩
      ⟨hb.busy, hb.seqState, hb.precompute⟩ rfl hpulse hmail hact), rfl, rfl, rfl, rfl, rfl, rfl⟩

end Sys2Proof.Machine

/-! PROOFS of the statements about the interrupts (60_exceptions): what the two handlers leave alone, the wake of a
suspended loop, and the order of an edge and a notification. -/

namespace Sys2Proof.Machine

variable {s t u : State} {e : Input} {v : Byte} {l rest : List Input}

/-! ### The step of an interrupt -/

/-- A notification whose message is invalid is probed in the same step (43_command_channel R183). -/
theorem step_notify_of_invalid (hw : s.cfg.wf = true) (hin : s.inputs = .notify :: rest)
    (hv : messageValid s = false) : step s = execProbe (beginNotify (setInputs rest s)) := by
  refine step_of_run (i := .probe) ((nextAction_input hw hin).trans ?_)
  simp [inputStep, notifyStep, hv]

/-- The step of an interrupt is the edge handler, the taking of a message, or a probe (44_control_loop R216,
43_command_channel R181 to R183). -/
theorem step_interrupt_cases (hin : s.inputs = e :: rest) (he : e = .notify ∨ ∃ v, e = .edge v)
    (h : step s = .next t) :
    (∃ v, t = edgeHandler v (setInputs rest s)) ∨ t = takeMessage (beginNotify (setInputs rest s)) ∨
      execProbe (beginNotify (setInputs rest s)) = .next t := by
  have hw := step_next_wf h
  obtain rfl | ⟨v, rfl⟩ := he
  · cases hv : messageValid s with
    | false => exact .inr (.inr ((step_notify_of_invalid hw hin hv).symm.trans h))
    | true =>
      by_cases hlen : (mailField s .len).toNat ≤ 512
      · rw [step_notify_of_valid hw hin hv hlen] at h
        cases h
        exact .inr (.inl rfl)
      · rw [step_notify_of_overlong hw hin hv (Nat.lt_of_not_le hlen)] at h
        cases h
  · rw [step_edge hw hin] at h
    cases h
    exact .inl ⟨v, rfl⟩

/-! ### What a handler leaves alone -/

/-- The entry of the NOTIFY handler moves the context and the trace only (43_command_channel R181). -/
theorem beginNotify_frame (s : State) :
    beginNotify s = { s with context := .interrupt, trace := (beginNotify s).trace } := rfl

@[simp] theorem beginNotify_cfg (s : State) : (beginNotify s).cfg = s.cfg := rfl
@[simp] theorem beginNotify_mailbox (s : State) : (beginNotify s).mailbox = s.mailbox := rfl
@[simp] theorem beginNotify_muxReads (s : State) : (beginNotify s).muxReads = s.muxReads := rfl
@[simp] theorem beginNotify_draws (s : State) : (beginNotify s).draws = s.draws := rfl

/-- What the notification of an invalid message touches, from the entry of its handler to the return of the probe
(43_command_channel R181, R183). -/
theorem execProbe_beginNotify_frame (h : execProbe (beginNotify s) = .next t) :
    t = { s with
      context := .loop
      loopPos := wakePos s.loopPos
      mailbox := t.mailbox
      selectedBus := t.selectedBus
      muxReads := s.muxReads.tail
      draws := t.draws
      trace := t.trace } := by
  have hframe := execProbe_frame h
  rwa [beginNotify_frame] at hframe

/-- A handler returns to the loop, which it wakes; it writes the preset-input line, the preset request, the pulse and
message flags, PB, the mailbox, the routing, the answers still to come of the mux and of free values, and the trace,
and nothing else (60_exceptions R259, R263, R268). -/
theorem interrupt_frame (hin : s.inputs = e :: rest) (he : e = .notify ∨ ∃ v, e = .edge v) (h : step s = .next t) :
    t = { s with
      context := .loop
      loopPos := wakePos s.loopPos
      inputs := rest
      presetInput := t.presetInput
      pendingPreset := t.pendingPreset
      presetChangeRequested := t.presetChangeRequested
      pulseRequested := t.pulseRequested
      mailboxMessagePending := t.mailboxMessagePending
      mailbox := t.mailbox
      pb := t.pb
      selectedBus := t.selectedBus
      muxReads := t.muxReads
      draws := t.draws
      trace := t.trace } := by
  obtain ⟨v, rfl⟩ | rfl | hx := step_interrupt_cases hin he h
  · rw [edgeHandler_frame]; rfl
  · rw [takeMessage_frame]; rfl
  · rw [execProbe_beginNotify_frame hx]; rfl

/-- A handler sets flags and clears none (60_exceptions R263). -/
theorem interrupt_keeps_flags (hin : s.inputs = e :: rest) (he : e = .notify ∨ ∃ v, e = .edge v)
    (h : step s = .next t) :
    (s.presetChangeRequested = true → t.presetChangeRequested = true) ∧
    (s.pulseRequested = true → t.pulseRequested = true) ∧
    (s.mailboxMessagePending = true → t.mailboxMessagePending = true) := by
  obtain ⟨v, rfl⟩ | rfl | hx := step_interrupt_cases hin he h
  · rw [edgeHandler_frame]
    exact ⟨fun _ => rfl, fun hp => by simp [hp], id⟩
  · rw [takeMessage_frame]
    exact ⟨id, id, fun _ => rfl⟩
  · rw [execProbe_beginNotify_frame hx]
    exact ⟨id, id, id⟩

/-! ### An edge and a notification in both orders -/

/-- A loop that an interrupt has woken is awake for the next one (60_exceptions R268). -/
@[simp] theorem wakePos_wakePos (p : LoopPos) : wakePos (wakePos p) = wakePos p := by
  cases p <;> rfl

@[simp] theorem edgeHandler_cfg (v : Byte) (s : State) : (edgeHandler v s).cfg = s.cfg := by
  rw [edgeHandler_frame]

@[simp] theorem edgeHandler_mailbox (v : Byte) (s : State) : (edgeHandler v s).mailbox = s.mailbox := by
  rw [edgeHandler_frame]

@[simp] theorem edgeHandler_pb (v : Byte) (s : State) : (edgeHandler v s).pb = s.pb := by
  rw [edgeHandler_frame]

@[simp] theorem edgeHandler_inputs (v : Byte) (s : State) : (edgeHandler v s).inputs = s.inputs := by
  rw [edgeHandler_frame]

@[simp] theorem edgeHandler_muxReads (v : Byte) (s : State) : (edgeHandler v s).muxReads = s.muxReads := by
  rw [edgeHandler_frame]

@[simp] theorem edgeHandler_draws (v : Byte) (s : State) : (edgeHandler v s).draws = s.draws := by
  rw [edgeHandler_frame]

/-- What waits behind an edge is nothing to its handler. -/
theorem setInputs_edgeHandler (l rest : List Input) (v : Byte) (s : State) :
    setInputs rest (edgeHandler v (setInputs l s)) = edgeHandler v (setInputs rest s) := by
  rw [edgeHandler_frame, edgeHandler_frame]
  rfl

/-- The copy depends on the message and on the buffer it lands in only (43_command_channel R182). -/
theorem copyPayload_congr {n : Nat} (hc : t.cfg = s.cfg) (hm : t.mailbox = s.mailbox) (hp : t.pb = s.pb) :
    copyPayload n t = copyPayload n s := by
  have hread : mailPayload t = mailPayload s := funext fun _ => mailPayload_congr hc hm
  rw [copyPayload, copyPayload, hread, hp]

/-- A valid message is taken after an edge as it would be before it (60_exceptions R257). -/
theorem step_notify_of_valid_after_edge (hw : s.cfg.wf = true) (hv : messageValid s = true)
    (hlen : (mailField s .len).toNat ≤ 512) : step (edgeHandler v (setInputs (.notify :: rest) s)) =
      .next (takeMessage (beginNotify (edgeHandler v (setInputs rest s)))) := by
  rw [← setInputs_edgeHandler (.notify :: rest) rest]
  refine step_notify_of_valid (by simpa using hw) (by simp) ?_ ?_
  · exact (messageValid_congr (by simp) (by simp)).trans hv
  · rwa [mailField_congr (s := s) (by simp) (by simp)]

/-- An invalid one is probed after an edge as it would be before it (60_exceptions R257). -/
theorem step_notify_of_invalid_after_edge (hw : s.cfg.wf = true) (hv : messageValid s = false) :
    step (edgeHandler v (setInputs (.notify :: rest) s)) =
      execProbe (beginNotify (edgeHandler v (setInputs rest s))) := by
  rw [← setInputs_edgeHandler (.notify :: rest) rest]
  refine step_notify_of_invalid (by simpa using hw) (by simp) ?_
  exact (messageValid_congr (by simp) (by simp)).trans hv

/-- The edge handler and the taking of a message write disjoint state (60_exceptions R257). -/
theorem edgeHandler_takeMessage_comm (v : Byte) (s : State) :
    edgeHandler v (setInputs rest (takeMessage (beginNotify (setInputs l s)))) =
      { takeMessage (beginNotify (edgeHandler v (setInputs rest s))) with
        trace := (edgeHandler v (setInputs rest (takeMessage (beginNotify (setInputs l s))))).trace } := by
  have hfield (f : MailField) : mailField (edgeHandler v (setInputs rest s)) f = mailField (setInputs l s) f :=
    mailField_congr (by simp) (by simp)
  have hcopy (n : Nat) : copyPayload n (edgeHandler v (setInputs rest s)) = copyPayload n (setInputs l s) :=
    copyPayload_congr (by simp) (by simp) (by simp)
  rw [takeMessage_frame (edgeHandler v _), hfield, hfield, hcopy, takeMessage_frame, edgeHandler_frame,
    edgeHandler_frame]
  simp

/-- The edge handler writes nothing that a probe reads, and a probe nothing that it reads (60_exceptions R257). -/
theorem edgeHandler_execProbe_comm (ht : execProbe (beginNotify (setInputs l s)) = .next t)
    (hu : execProbe (beginNotify (edgeHandler v (setInputs rest s))) = .next u) :
    edgeHandler v (setInputs rest t) = { u with trace := (edgeHandler v (setInputs rest t)).trace } := by
  obtain ⟨hmailbox, hbus, hdraws⟩ := execProbe_congr (s := beginNotify (setInputs l s))
    (by simp) (by simp) (by simp) (by simp) ht hu
  rw [execProbe_beginNotify_frame hu, hmailbox, hbus, hdraws, execProbe_beginNotify_frame ht, edgeHandler_frame,
    edgeHandler_frame]
  simp

/-! ### The obligations -/

/-- Settles O44: every handler returns through `wakePos`. -/
theorem everyInterruptWakesTheLoop : Obligations.EveryInterruptWakesTheLoop := by
  intro s t e rest hin he hp h
  rw [interrupt_frame hin he h, hp]
  rfl

/-- Settles O50: the edge decides neither whether the message is valid nor what is done with it, and the other way
round. -/
theorem interruptOrderDoesNotMatter : Obligations.InterruptOrderDoesNotMatter := by
  intro s v rest hw _ hlegal
  have hedge : step (setInputs (.edge v :: .notify :: rest) s) =
      .next (edgeHandler v (setInputs (.notify :: rest) s)) := step_edge hw rfl
  cases hv : messageValid s with
  | true =>
    obtain ⟨hmagic, hstatus⟩ := messageValid_iff.mp hv
    have hlen := hlegal hmagic hstatus
    have hnotify : step (setInputs (.notify :: .edge v :: rest) s) =
        .next (takeMessage (beginNotify (setInputs (.edge v :: rest) s))) := step_notify_of_valid hw rfl hv hlen
    exact ⟨_, _, runs_cons hedge (runs_one (step_notify_of_valid_after_edge hw hv hlen)),
      runs_cons hnotify (runs_one (step_edge (by simpa using hw) (by simp))), edgeHandler_takeMessage_comm v s⟩
  | false =>
    obtain ⟨t, ht⟩ : ∃ t, execProbe (beginNotify (setInputs (.edge v :: rest) s)) = .next t := ⟨_, rfl⟩
    obtain ⟨u, hu⟩ : ∃ u, execProbe (beginNotify (edgeHandler v (setInputs rest s))) = .next u := ⟨_, rfl⟩
    have hnotify : step (setInputs (.notify :: .edge v :: rest) s) =
        execProbe (beginNotify (setInputs (.edge v :: rest) s)) := step_notify_of_invalid hw rfl hv
    have hsecond : step t = .next (edgeHandler v (setInputs rest t)) := by
      apply step_edge <;> rw [execProbe_beginNotify_frame ht]
      · exact hw
      · rfl
    exact ⟨u, _, runs_cons hedge (runs_one ((step_notify_of_invalid_after_edge hw hv).trans hu)),
      runs_cons (hnotify.trans ht) (runs_one hsecond), edgeHandler_execProbe_comm ht hu⟩

/-- Settles O51: the frame of a handler's step, and the flags it keeps. -/
theorem handlersTouchNoDeviceAndNoCache : Obligations.HandlersTouchNoDeviceAndNoCache := by
  intro s t e rest hin he h
  obtain ⟨hpreset, hpulse, hmail⟩ := interrupt_keeps_flags hin he h
  rw [interrupt_frame hin he h]
  exact ⟨rfl, rfl, rfl, rfl, rfl, rfl, rfl, rfl, rfl, rfl, rfl, rfl, rfl, rfl, rfl, hpreset, hpulse, hmail, rfl, rfl⟩

end Sys2Proof.Machine

/-! PROOFS of the statements about reset and the hazards (70_reset_and_hazards): the first iteration after reset, the
collaborator that does not answer, and the request that is lost between the read of `pending_preset` and the clear. -/

namespace Sys2Proof.Machine

variable {s : State} {r : DeviceRow} {answer : BusAnswer} {rest : List BusAnswer}
  {script : List DeviceAnswers} {past : Nat}

/-! ### An iteration with nothing pending -/

/-- With no call waiting and no flag pending an iteration makes its five tests and suspends (44_control_loop R210 to
R215). -/
theorem quiet_iteration_runs (hu : Undisturbed s) (hb : BlockIdle s) (hp : s.loopPos = .top) (hc : s.commands = [])
    (hquiet : anyEvent s = false) : runs 5 s (goto .suspended s) := by
  obtain ⟨hpreset, hpulse, -, -⟩ := anyEvent_eq_false.mp hquiet
  have htop : loopStep s = .done (goto .pulseTest s) := by simp [loopStep, hp, topStep, hc, hpreset]
  have hitem2 : loopStep (goto .pulseTest s) = .done (goto .scanTest s) := by simp [loopStep, hpulse, goto]
  exact runs_cons_done hu hb htop fun hu hb => runs_cons_done hu hb hitem2 fun hu hb =>
    quiet_end_runs hu hb rfl hquiet

/-! ### A call that does not answer -/

theorem nextBusAnswer_of_cons (h : s.busAnswers = answer :: rest) : nextBusAnswer s = answer := by
  simp [nextBusAnswer, h]

theorem takeBusAnswer_of_cons (h : s.busAnswers = answer :: rest) :
    takeBusAnswer s = { s with busAnswers := rest } := by
  simp [takeBusAnswer, h]

theorem selectStep_of_noAnswer (h : nextBusAnswer s = .noAnswer) : selectStep r s = takeBusAnswer s := by
  simp [selectStep, h]

theorem writeStep_of_noAnswer (h : nextBusAnswer s = .noAnswer) : writeStep r s = takeBusAnswer s := by
  simp [writeStep, h]

/-- In either position an open call takes its answer off the list and does nothing else (70_reset_and_hazards R295). -/
theorem step_walk_of_noAnswer (ho : OwnTurn s) (hr : s.cfg.deviceMap[s.devIdx]? = some r) (hq : s.seqState ≠ .idle)
    (ha : nextBusAnswer s = .noAnswer) : step s = .next (takeBusAnswer (setInputs s.inputs.tail s)) := by
  cases hpos : s.seqState with
  | idle => exact absurd hpos hq
  | select => rw [step_select ho hpos hr, selectStep_of_noAnswer (s := setInputs s.inputs.tail s) ha]
  | write => rw [step_write ho hpos hr, writeStep_of_noAnswer (s := setInputs s.inputs.tail s) ha]

/-! ### The rest of a walk, from inside a device -/

/-- A walk from `s` ends in `u`, with the bus events `events` and the answers `rest` left (42_sequencer R151, R152,
R155). What it leaves open is the routing, the output registers and how many free values were drawn. -/
def WalkEndsIn (s u : State) (rest : List BusAnswer) (events : List Obs) : Prop :=
  u = { s with
    busy := false
    lastStatus := .ok
    response := responseWord .ok 0#24
    seqState := .idle
    devIdx := s.cfg.deviceCount
    selectedBus := u.selectedBus
    out := u.out
    draws := u.draws
    busAnswers := rest
    trace := .response (responseWord .ok 0#24) :: (events.reverse ++ s.trace) }

/-- The bus events of the devices from `d` on, in a walk of `s` (42_sequencer R154). -/
def walkEvents (s : State) (d : Nat) (script : List DeviceAnswers) : List Obs :=
  walkTrace s.cfg (arenaCell s s.seqPreset.toNat) d (s.cfg.deviceMap.drop d) script

/-- Past its `selectBus`, a device that selected leaves its `writeRegister` and the events of the devices behind it. -/
theorem walkEvents_drop_one {a : DeviceAnswers} {d : Nat} (hsel : a.select = true) (hd : d < s.cfg.deviceCount) :
    (walkEvents s d (a :: script)).drop 1 = .writeRegister s.cfg.deviceMap[d].addr s.cfg.outputRegId
      (bytes3 s.cfg.payloadByteOrder (arenaCell s s.seqPreset.toNat d)) 3 a.write :: walkEvents s (d + 1) script := by
  rw [walkEvents, List.drop_eq_getElem_cons hd]
  simp [walkTrace, walkEvents, hsel]

/-- One answer pair for each device from `d` on. -/
theorem script_length_eq_drop {d : Nat} (h : d + script.length = s.cfg.deviceCount) :
    script.length = (s.cfg.deviceMap.drop d).length := by
  rw [List.length_drop]
  exact (Nat.sub_eq_of_eq_add' h.symm).symm

/-- The rest of a walk from SELECT of a device. -/
theorem walk_from_select (hu : Undisturbed s) (hq : s.seqState = .select) (hne : script ≠ [])
    (hlen : s.devIdx + script.length = s.cfg.deviceCount) (ha : s.busAnswers = answerList script ++ rest) :
    ∃ u, runs (answerList script).length s u ∧ WalkEndsIn s u rest (walkEvents s s.devIdx script) := by
  have hrows := script_length_eq_drop hlen
  have hne : s.cfg.deviceMap.drop s.devIdx ≠ [] :=
    List.length_pos_iff.mp (hrows ▸ List.length_pos_iff.mpr hne)
  obtain ⟨u, hrun, -, hend⟩ := walk_runs _ script s hne rfl hrows hu hq ha
  have hdraws : u.draws = s.draws := by rw [hend]
  refine ⟨u, hrun, ?_⟩
  rw [WalkEndsIn, hdraws]
  exact hend

/-- A device is left: what follows is the walk over the devices behind it, or its end if there is none. -/
theorem walk_from_nextDevice (hu : Undisturbed s) (hlen : s.devIdx + 1 + script.length = s.cfg.deviceCount)
    (ha : s.busAnswers = answerList script ++ rest) :
    ∃ u, runs (answerList script).length (nextDevice s) u ∧
      WalkEndsIn s u rest (walkEvents s (s.devIdx + 1) script) := by
  cases script with
  | nil =>
    have hnone : s.cfg.deviceMap.drop (s.devIdx + 1) = [] :=
      List.length_eq_zero_iff.mp (script_length_eq_drop hlen).symm
    refine ⟨_, runs_zero.mpr rfl, ?_⟩
    rw [nextDevice_of_last hlen, WalkEndsIn, walkEvents, hnone]
    simp [endWalk, setSeq, advanceDevice, respond, walkTrace, ← hlen, ha, answerList]
  | cons a script =>
    have hmore : s.devIdx + 1 < s.cfg.deviceCount := by rw [← hlen, List.length_cons]; omega
    rw [nextDevice_of_more hmore]
    exact walk_from_select (s := setSeq .select (advanceDevice s)) ⟨hu.cfgWf, hu.inputs, hu.context⟩ rfl
      (List.cons_ne_nil a script) hlen ha

/-- The rest of a walk from WRITE of a device: its `selectBus` has answered ok, so that answer and event are past. -/
theorem walk_from_write {a : DeviceAnswers} (hu : Undisturbed s) (hq : s.seqState = .write)
    (hsel : a.select = true) (hlen : s.devIdx + (a :: script).length = s.cfg.deviceCount)
    (ha : s.busAnswers = (answerList (a :: script)).drop 1 ++ rest) :
    ∃ u, runs ((answerList (a :: script)).drop 1).length s u ∧
      WalkEndsIn s u rest ((walkEvents s s.devIdx (a :: script)).drop 1) := by
  have hanswers : (answerList (a :: script)).drop 1 = busAnswerOf a.write :: answerList script := by
    simp [answerList, hsel]
  have hlen : s.devIdx + 1 + script.length = s.cfg.deviceCount := by rw [← hlen, List.length_cons]; omega
  have hlt : s.devIdx < s.cfg.deviceCount := by omega
  rw [hanswers] at ha ⊢
  obtain ⟨out, draws, hstep⟩ := write_step hu hq (List.getElem?_eq_getElem hlt) ha
  obtain ⟨u, hrun, hend⟩ := walk_from_nextDevice (rest := rest) (script := script) (s := { s with
    out := out, draws := draws, busAnswers := _, trace := _ }) ⟨hu.cfgWf, hu.inputs, hu.context⟩ hlen rfl
  refine ⟨u, runs_cons hstep hrun, hend.trans ?_⟩
  rw [walkEvents_drop_one hsel hlt, List.reverse_cons, List.append_assoc]
  rfl

/-- The rest of a walk from SELECT of a device, or from its WRITE with `past = 1` answers and events gone by. -/
theorem walk_rest_runs (hu : Undisturbed s) (hne : script ≠ []) (hlen : s.devIdx + script.length = s.cfg.deviceCount)
    (hpos : (s.seqState = .select ∧ past = 0) ∨
      (s.seqState = .write ∧ past = 1 ∧ script.head?.map DeviceAnswers.select = some true))
    (ha : s.busAnswers = (answerList script).drop past ++ rest) :
    ∃ u, runs ((answerList script).drop past).length s u ∧
      WalkEndsIn s u rest ((walkEvents s s.devIdx script).drop past) := by
  obtain ⟨hq, rfl⟩ | ⟨hq, rfl, hsel⟩ := hpos
  · exact walk_from_select hu hq hne hlen ha
  · obtain ⟨a, script, rfl⟩ := List.exists_cons_of_ne_nil hne
    exact walk_from_write hu hq (by simpa using hsel) hlen ha

/-! ### The clear of the preset request -/

/-- The clear takes the flag as it finds it, whatever was requested since the APPLY (44_control_loop R211). -/
theorem step_presetClear (h : LoopTurn s) (hp : s.loopPos = .presetClear) :
    step s = .next (goto .pulseTest (clearPresetChange (setInputs s.inputs.tail s))) :=
  step_loop_done h (by simp [loopStep, hp])

/-- A walk that item 1 issued ends, then the clear: the flag is taken, the pending value and the preset of the walk stay
as they are (44_control_loop R211). -/
theorem walk_then_clear_runs {w : State} {n : Nat} {events : List Obs} (hu : Undisturbed s)
    (hp : s.loopPos = .presetClear) (hpre : s.precompute = .idle) (hwalk : runs n s w)
    (hend : WalkEndsIn s w rest events) :
    ∃ u, runs (n + 1) s u ∧ u.pendingPreset = s.pendingPreset ∧ u.presetChangeRequested = false ∧
      u.loopPos = .pulseTest ∧ u.seqPreset = s.seqPreset ∧
      u.trace = .response (responseWord .ok 0#24) :: (events.reverse ++ s.trace) := by
  have hturn : LoopTurn w := by rw [hend]; exact ⟨⟨hu.cfgWf, .inl hu.inputs⟩, rfl, hpre⟩
  have hclear := step_presetClear hturn (by rw [hend]; exact hp)
  refine ⟨_, runs_add hwalk (runs_one hclear), ?_⟩
  rw [hend]
  exact ⟨rfl, rfl, rfl, rfl, rfl⟩

/-! ### The obligations -/

/-- Settles O48: the handler records the new value and moves neither the walk nor the loop, and the clear takes the new
request's flag with the old one's. -/
theorem edgeBeforeTheClearIsLost : Obligations.EdgeBeforeTheClearIsLost := by
  refine ⟨fun s v rest hw _ hb hp hin => ?_, fun s v script rest past hw _ hp hpre hin hne hlen hpos ha => ?_⟩
  · have hedge := step_edge hw hin
    have ht := edgeHandler_frame v (setInputs (.machine :: rest) s)
    generalize edgeHandler v (setInputs (.machine :: rest) s) = t at hedge ht
    have hturn : LoopTurn t := by rw [ht]; exact ⟨⟨hw, .inr ⟨rest, rfl⟩⟩, hb.seqState, hb.precompute⟩
    subst ht
    have hclear := step_presetClear hturn (congrArg wakePos hp)
    exact ⟨_, runs_cons hedge (runs_one hclear), rfl, rfl, rfl, rfl⟩
  · have hedge := step_edge hw hin
    have ht := edgeHandler_frame v (setInputs [] s)
    generalize edgeHandler v (setInputs [] s) = t at hedge ht
    have hu : Undisturbed t := by rw [ht]; exact ⟨hw, rfl, rfl⟩
    subst ht
    obtain ⟨w, hwalk, hend⟩ := walk_rest_runs hu hne hlen hpos ha
    obtain ⟨u, hrun, hrest⟩ := walk_then_clear_runs hu (congrArg wakePos hp) hpre hwalk hend
    exact ⟨u, runs_cons hedge hrun, hrest⟩

/-- Settles O28: in both positions of a walk an open call leaves everything but its own answer as it stands. -/
theorem unansweredCallHoldsTheBlock : Obligations.UnansweredCallHoldsTheBlock := by
  intro s r rest ho hr hq ha
  rw [step_walk_of_noAnswer ho hr hq (nextBusAnswer_of_cons ha)]
  exact congrArg _ (takeBusAnswer_of_cons (s := setInputs s.inputs.tail s) ha)

/-- Settles O58: at reset no call waits and no flag is pending. -/
theorem firstIterationSuspends : Obligations.FirstIterationSuspends :=
  fun _ hw => quiet_iteration_runs ⟨hw, rfl, rfl⟩ ⟨rfl, rfl, rfl⟩ rfl rfl rfl

end Sys2Proof.Machine
